-- ==== Sys2Proof/Word.lean ====
section
/-! DEFINITION. The two data types of the block's interface: a word is 32 bits (R6), and a word seen as bytes has
eight bits a byte (R46). -/

namespace Sys2Proof

/-- A 32-bit word; bit 0 is the least significant bit (R6). -/
abbrev Word := BitVec 32

/-- One byte of a word as a byte-addressing host sees it (R46). -/
abbrev Byte := BitVec 8

end Sys2Proof
end

