-- ==== Sys2Proof/Syntax.lean ====
section
/-! DEFINITION. The block's commands, one constructor per row of spec/opcode_table.json (R64). -/

namespace Sys2Proof

/-- The name of a lookup slot, field S of a command: 0 or 1 (R30, R61). -/
abbrev SlotId := Fin 2

/-- A command. `s` is field S, `l` field L, `a` and `b` fields A and B, `ofs` field OFS of R61; the last four are
plain unsigned integers (R63), and which of them fit their field is WellFormed's. -/
inductive Instr where
  /-- NOP (R80). -/
  | nop
  /-- INIT s, L (R81). -/
  | init (s : SlotId) (l : Nat)
  /-- CLEAR s (R87). -/
  | clear (s : SlotId)
  /-- BACKWARD s (R101). -/
  | backward (s : SlotId)
  /-- ROT_IN s (R102). -/
  | rotIn (s : SlotId)
  /-- BFLY_FIRST s (R104). -/
  | bflyFirst (s : SlotId)
  /-- BFLY_GEN s, A, B (R105). -/
  | bflyGen (s : SlotId) (a b : Nat)
  /-- BFLY_ALL s (R106). -/
  | bflyAll (s : SlotId)
  /-- BITREV s (R107). -/
  | bitrev (s : SlotId)
  /-- ROT_OUT s (R108). -/
  | rotOut (s : SlotId)
  /-- KER32 ofs (R120). -/
  | ker32 (ofs : Nat)
  /-- KER16 ofs (R121). -/
  | ker16 (ofs : Nat)
  /-- KER8 ofs (R122). -/
  | ker8 (ofs : Nat)
deriving DecidableEq, Repr

/-- The five formats of a command word (R62). -/
inductive Format where
  | FN | FI | FS | FG | FK
deriving DecidableEq, Repr

/-- Why a word is no command (R65). -/
inductive DecodeError where
  /-- Bits 7:0 are no opcode of R64. -/
  | illegalOpcode
  /-- A must-be-zero bit of the opcode's format is 1. -/
  | reservedField
deriving DecidableEq, Repr

end Sys2Proof
end

