-- ==== Sys2Proof/WellFormed.lean ====
section
/-! DEFINITION. Which commands have an encoding: every operand fits its field. These are the checks R67 gives the
assembler (L > 15, A or B > 255, ofs > 65535 are rejected; s > 1 cannot be written in this syntax). Operand values
that fit the field but that a command does not accept are execution errors, not ill-formed (R65). -/

namespace Sys2Proof

/-- L fits bits 15:12 (R61, R67). -/
def fitsL (l : Nat) : Bool := decide (l < 16)

/-- A or B fits its eight bits (R61, R67). -/
def fitsStage (a : Nat) : Bool := decide (a < 256)

/-- OFS fits bits 31:16 (R61, R67). -/
def fitsOfs (ofs : Nat) : Bool := decide (ofs < 65536)

/-- Every operand of the command fits its field (R67). -/
def Instr.wellFormed : Instr → Bool
  | .nop => true
  | .init _ l => fitsL l
  | .clear _ => true
  | .backward _ => true
  | .rotIn _ => true
  | .bflyFirst _ => true
  | .bflyGen _ a b => fitsStage a && fitsStage b
  | .bflyAll _ => true
  | .bitrev _ => true
  | .rotOut _ => true
  | .ker32 ofs => fitsOfs ofs
  | .ker16 ofs => fitsOfs ofs
  | .ker8 ofs => fitsOfs ofs

end Sys2Proof
end

