-- ==== Sys2Proof/Decode.lean ====
section
/-! DEFINITION. Decoding a command word (R61 to R66), the encoder written from the same layouts (R62, R67), and the opcode
table as the spec prints it (R64). -/

namespace Sys2Proof

/-- OP = w[7:0] (R61). -/
def fieldOp (w : Word) : Nat := w.toNat % 2 ^ 8

/-- S = w[8] (R63). -/
def fieldS (w : Word) : SlotId := Fin.ofNat 2 (w.toNat / 2 ^ 8)

/-- L = w[15:12] (R63). -/
def fieldL (w : Word) : Nat := w.toNat / 2 ^ 12 % 2 ^ 4

/-- A = w[23:16] (R63). -/
def fieldA (w : Word) : Nat := w.toNat / 2 ^ 16 % 2 ^ 8

/-- B = w[31:24] (R63). -/
def fieldB (w : Word) : Nat := w.toNat / 2 ^ 24 % 2 ^ 8

/-- OFS = w[31:16] (R63). -/
def fieldOfs (w : Word) : Nat := w.toNat / 2 ^ 16 % 2 ^ 16

/-- The must-be-zero mask of a format (R62). -/
def zmask : Format → Word
  | .FN => 0xFFFFFF00#32
  | .FI => 0xFFFF0E00#32
  | .FS => 0xFFFFFE00#32
  | .FG => 0x0000FE00#32
  | .FK => 0x0000FF00#32

/-- The opcode map (R64): the format an opcode selects and the command its fields make; nothing for the 243 illegal
opcodes (R65). -/
def opcodeMap (op : Nat) (w : Word) : Option (Format × Instr) :=
  match op with
  | 0x00 => some (.FN, .nop)
  | 0x01 => some (.FI, .init (fieldS w) (fieldL w))
  | 0x02 => some (.FS, .clear (fieldS w))
  | 0x10 => some (.FS, .backward (fieldS w))
  | 0x11 => some (.FS, .rotIn (fieldS w))
  | 0x12 => some (.FS, .bflyFirst (fieldS w))
  | 0x13 => some (.FG, .bflyGen (fieldS w) (fieldA w) (fieldB w))
  | 0x14 => some (.FS, .bflyAll (fieldS w))
  | 0x15 => some (.FS, .bitrev (fieldS w))
  | 0x16 => some (.FS, .rotOut (fieldS w))
  | 0x20 => some (.FK, .ker32 (fieldOfs w))
  | 0x21 => some (.FK, .ker16 (fieldOfs w))
  | 0x22 => some (.FK, .ker8 (fieldOfs w))
  | _ => none

/-- Decoding of R66: the opcode test, then the must-be-zero test, then the fields. Total on every word. -/
def decode (w : Word) : Except DecodeError Instr :=
  match opcodeMap (fieldOp w) w with
  | none => .error .illegalOpcode
  | some (f, i) => if w &&& zmask f ≠ 0#32 then .error .reservedField else .ok i

/-- The word a list of fields makes: opcode in 7:0, the upper half in 31:16, S in 8, L in 15:12 (R61, R62). -/
def packWord (op : Nat) (s : SlotId) (l hi : Nat) : Word :=
  BitVec.ofNat 32 (op + s.val * 2 ^ 8 + l * 2 ^ 12 + hi * 2 ^ 16)

/-- The word of a command, every Z bit zero (R62, R67). -/
def encode : Instr → Word
  | .nop => packWord 0x00 0 0 0
  | .init s l => packWord 0x01 s l 0
  | .clear s => packWord 0x02 s 0 0
  | .backward s => packWord 0x10 s 0 0
  | .rotIn s => packWord 0x11 s 0 0
  | .bflyFirst s => packWord 0x12 s 0 0
  | .bflyGen s a b => packWord 0x13 s 0 (a + b * 2 ^ 8)
  | .bflyAll s => packWord 0x14 s 0 0
  | .bitrev s => packWord 0x15 s 0 0
  | .rotOut s => packWord 0x16 s 0 0
  | .ker32 ofs => packWord 0x20 0 0 ofs
  | .ker16 ofs => packWord 0x21 0 0 ofs
  | .ker8 ofs => packWord 0x22 0 0 ofs

/-- The mnemonic of a command, as R64 spells it. -/
def Instr.mnemonic : Instr → String
  | .nop => "NOP"
  | .init _ _ => "INIT"
  | .clear _ => "CLEAR"
  | .backward _ => "BACKWARD"
  | .rotIn _ => "ROT_IN"
  | .bflyFirst _ => "BFLY_FIRST"
  | .bflyGen _ _ _ => "BFLY_GEN"
  | .bflyAll _ => "BFLY_ALL"
  | .bitrev _ => "BITREV"
  | .rotOut _ => "ROT_OUT"
  | .ker32 _ => "KER32"
  | .ker16 _ => "KER16"
  | .ker8 _ => "KER8"

/-- One row of the printed opcode table (R64). -/
structure OpcodeRow where
  mnemonic : String
  pattern : Word
  mask : Word
deriving DecidableEq, Repr

/-- Whether a word encodes the row's command: `(w & mask) == match` (R64). -/
def OpcodeRow.covers (r : OpcodeRow) (w : Word) : Bool := w &&& r.mask == r.pattern

/-- The opcode table of R64: mnemonic, match and mask as printed. The decoder does not read it; that the two agree is a
statement. -/
def opcodeTable : List OpcodeRow :=
  [⟨"NOP", 0x00000000#32, 0xFFFFFFFF#32⟩,
   ⟨"INIT", 0x00000001#32, 0xFFFF0EFF#32⟩,
   ⟨"CLEAR", 0x00000002#32, 0xFFFFFEFF#32⟩,
   ⟨"BACKWARD", 0x00000010#32, 0xFFFFFEFF#32⟩,
   ⟨"ROT_IN", 0x00000011#32, 0xFFFFFEFF#32⟩,
   ⟨"BFLY_FIRST", 0x00000012#32, 0xFFFFFEFF#32⟩,
   ⟨"BFLY_GEN", 0x00000013#32, 0x0000FEFF#32⟩,
   ⟨"BFLY_ALL", 0x00000014#32, 0xFFFFFEFF#32⟩,
   ⟨"BITREV", 0x00000015#32, 0xFFFFFEFF#32⟩,
   ⟨"ROT_OUT", 0x00000016#32, 0xFFFFFEFF#32⟩,
   ⟨"KER32", 0x00000020#32, 0x0000FFFF#32⟩,
   ⟨"KER16", 0x00000021#32, 0x0000FFFF#32⟩,
   ⟨"KER8", 0x00000022#32, 0x0000FFFF#32⟩]

/-- The host's question: the command this decoder reads from a table word of `nbits` bits, the bits above them zero. -/
def decodeTableWord (nbits w : Nat) : Option Instr :=
  match decode (BitVec.ofNat 32 (w % 2 ^ nbits)) with
  | .ok i => some i
  | .error _ => none

end Sys2Proof
end

