-- ==== Sys2Proof/Config.lean ====
section
/-! DEFINITION. What the implementation fixes (the constants of R1 and R5) and the two free values of the spec, each an
opaque constant with no body: the pattern of a NaN result (`NAN_POLICY`, U1) and the contents of BUF after reset
(`BUF_RESET`, U2). The third parameter, `BUF_WORDS` (U3), is the field `bufSize` of State, so that every statement about
all states holds for all eight sizes. -/

namespace Sys2Proof

/-- The ID register's constant, "MDCT" in ASCII (R1, R23). -/
def Config.idWord : Word := 0x4D444354#32

/-- `LOG2N_MIN` (R5): the smallest block size is n = 64. -/
def Config.log2nMin : Nat := 6

/-- `LOG2N_MAX` (R5): the largest block size is n = 8192. -/
def Config.log2nMax : Nat := 13

/-- `NSLOTS` (R5). -/
def Config.nSlots : Nat := 2

/-- Host-interface version `IFVER` (R1, R24). -/
def Config.ifVer : Nat := 1

/-- The smallest K of `BUF_WORDS` = 2^K, 13 ≤ K ≤ 20 (R5, U3). -/
def Config.log2BufMin : Nat := 13

/-- `NAN_POLICY` (R8, U1): the raw bits of the d-th arithmetic result, used only when that result is a NaN.
A FREE VALUE, one for every arithmetic operation the block ever performs (assumption 2). -/
opaque Config.nanPolicy : Nat → Word

/-- `BUF_RESET` (R160, U2): the byte a BUF byte address holds after the e-th reset, until it is written.
A FREE VALUE (assumption 3). -/
opaque Config.bufReset : Nat → Nat → Byte

end Sys2Proof
end

