-- ==== Sys2Proof/Machine/State.lean ====
section
/-! DEFINITION. The state of the block (R33) as plain data, the host port that drives it (R14, R42), the reasons a step can
stop, and the state after reset (R160). -/

namespace Sys2Proof.Machine

/-- The error codes of STATUS.ERRCODE (R141). Codes 7 to 15 are reserved and never recorded (U6), so they have no
constructor. -/
inductive ErrCode where
  | noError
  | illegalOpcode
  | reservedField
  | badSize
  | slotInvalid
  | badStage
  | range
deriving DecidableEq, Repr

/-- A lookup slot, determined by (VALID, L) as R30 says: nothing when VALID = 0, else L − 6. T and BR are computed
from it (Tables.lean). -/
abbrev Slot := Option (Fin 8)

/-- BUF's written bytes: (host byte address, byte) pairs in rising order of address. A byte not listed has not been
written since reset (R31, R33); word w of BUF stands at byte address 0x400000 + 4w (R40, R46). -/
abbrev Memory := List Host.Cell

/-- One event at the block's boundary: a host transaction (R41, R42), with its width in bytes, or the hardware reset
(R161). Data of a write is 32 bits wide; no narrower write has a step (R47). -/
inductive HostOp where
  | read (addr : BitVec 24) (bytes : Nat)
  | write (addr : BitVec 24) (bytes : Nat) (data : Word)
  | reset
deriving DecidableEq, Repr

/-- The whole state. The first eight fields are R33's; `bufSize` is the parameter of U3; the rest is the model's own:
two counters for the free values and the two sides of the host port. -/
structure State where
  /-- STATUS.ERRV (R25). -/
  errv : Bool
  /-- STATUS.DROP (R25). -/
  drop : Bool
  /-- STATUS.ERRCODE (R25, R141). -/
  errcode : ErrCode
  /-- ERRCMD (R28). -/
  errcmd : Word
  /-- BASE.IDX (R27). -/
  baseIdx : BitVec 20
  /-- slot[0], the short block's by convention (R30). -/
  slot0 : Slot
  /-- slot[1], the long block's by convention (R30). -/
  slot1 : Slot
  /-- BUF (R31), as its written bytes. -/
  buf : Memory
  /-- K − 13, where `BUF_WORDS` = 2^K (R5, R24). No step changes it (assumption 1). -/
  bufSize : Fin 8
  /-- How many resets there have been: which contents the unwritten bytes of BUF have (assumption 3). -/
  bufEpoch : Nat
  /-- How many arithmetic operations the block has performed: the next free NaN pattern (assumption 2). -/
  nanDraws : Nat
  /-- The host's transactions still to come, the next one first (assumption 4). -/
  pending : List HostOp
  /-- What the host's reads have returned, the latest first (assumption 4). -/
  replies : List Word
deriving DecidableEq, Repr

/-- No step of this block faults: R140 gives it no traps, and every error is recorded in STATUS by a next state. -/
inductive Fault where
deriving DecidableEq, Repr

/-- Why a step has no next state. -/
inductive Refusal where
  /-- A command whose meaning is not written yet; raised by no arm of exec. Safe. -/
  | notModelled (mnemonic : String)
  /-- A host transaction at an address with a[1:0] ≠ 0, which R47 says has no step; raised by `State.perform`. Safe. -/
  | misalignedAccess
  /-- A host transaction of a width other than 32 bits, which R47 says has no step; raised by `State.perform`. Safe. -/
  | unsupportedWidth
deriving DecidableEq, Repr

/-- The block right after its first reset (R160), with the default `BUF_WORDS` = 8192 and no host transaction waiting. -/
def State.reset : State where
  errv := false
  drop := false
  errcode := .noError
  errcmd := 0#32
  baseIdx := 0#20
  slot0 := none
  slot1 := none
  buf := []
  bufSize := 0
  bufEpoch := 0
  nanDraws := 0
  pending := []
  replies := []

end Sys2Proof.Machine
end

