-- ==== Sys2Proof/Machine/Float.lean ====
section
/-! DEFINITION. binary32 arithmetic (R8): every operation computes its exact result on integers and rounds once, to nearest
with ties to even; subnormals are kept, there are no flags. All finite values are whole multiples of 2^-149. -/

namespace Sys2Proof.Machine

/-! ### The binary32 datum of a word (R46) -/

/-- Bit 31. -/
def signBit (w : Word) : Bool := decide (2 ^ 31 ≤ w.toNat)

/-- Bits 30:23, the biased exponent. -/
def expField (w : Word) : Nat := w.toNat / 2 ^ 23 % 2 ^ 8

/-- Bits 22:0, the fraction. -/
def fracField (w : Word) : Nat := w.toNat % 2 ^ 23

/-- Exponent all ones, fraction nonzero (U1). -/
def isNaN (w : Word) : Bool := expField w == 255 && fracField w != 0

/-- Exponent all ones, fraction zero. -/
def isInf (w : Word) : Bool := expField w == 255 && fracField w == 0

/-- Neither a NaN nor an infinity. -/
def isFinite (w : Word) : Bool := expField w != 255

/-- The absolute value of a finite word, in units of 2^-149. -/
def magnitude (w : Word) : Nat :=
  if expField w = 0 then fracField w else (2 ^ 23 + fracField w) * 2 ^ (expField w - 1)

/-- The value of a finite word, in units of 2^-149. -/
def scaledValue (w : Word) : Int := if signBit w then -(magnitude w : Int) else (magnitude w : Int)

/-- +0.0 or −0.0. -/
def isZero (w : Word) : Bool := isFinite w && magnitude w == 0

/-! ### Rounding -/

/-- The bits 30:0 of +∞. -/
def infBits : Nat := 0x7F800000

/-- Bits 30:0 of the binary32 value nearest to m · 2^-(149+s), ties to even, overflow to infinity (R8). `drop` low bits
go, so that at most 24 are kept and the unit is at least 2^-149; the exponent and the 24 bits then add up to the word,
a carry out of the fraction included. -/
def roundBits (m s : Nat) : Nat :=
  let drop := max s (m.log2 + 1 - 24)
  let q := m / 2 ^ drop
  let rest := m % 2 ^ drop
  let up := decide (2 ^ drop < 2 * rest) || (decide (2 * rest = 2 ^ drop) && q % 2 == 1)
  min ((drop - s) * 2 ^ 23 + q + up.toNat) infBits

/-- A word from its sign and its bits 30:0. -/
def signed (neg : Bool) (bits : Nat) : Word := BitVec.ofNat 32 (neg.toNat * 2 ^ 31 + bits)

/-! ### Exact operations: nothing stands for "the IEEE result is a NaN" -/

/-- IEEE binary32 addition, rounded once (R8). -/
def addResult (a b : Word) : Option Word :=
  if isNaN a || isNaN b then none
  else if isInf a then (if isInf b && signBit a != signBit b then none else some a)
  else if isInf b then some b
  else
    let sum := scaledValue a + scaledValue b
    if sum = 0 then some (signed (signBit a && signBit b) 0)
    else some (signed (decide (sum < 0)) (roundBits sum.natAbs 0))

/-- `fneg`: bit 31 inverted, nothing else, NaN included (R8). -/
def fneg (a : Word) : Word := a ^^^ 0x80000000#32

/-- IEEE binary32 subtraction: the sum with the second operand's sign inverted (R8). -/
def subResult (a b : Word) : Option Word := addResult a (fneg b)

/-- IEEE binary32 multiplication, rounded once (R8). -/
def mulResult (a b : Word) : Option Word :=
  let neg := signBit a != signBit b
  if isNaN a || isNaN b then none
  else if isInf a || isInf b then (if isZero a || isZero b then none else some (signed neg infBits))
  else some (signed neg (roundBits (magnitude a * magnitude b) 149))

/-! ### NaN results (U1) -/

/-- The NaN pattern a raw word stands for: itself if it is one. Every NaN pattern is reached, and nothing else. -/
def nanOf (w : Word) : Word :=
  let v := w ||| 0x7F800000#32
  if fracField v = 0 then v ||| 1#32 else v

/-- The word of an operation's result: the rounded one, or, where the result is a NaN, the d-th free NaN pattern. -/
def orNaN (d : Nat) (r : Option Word) : Word :=
  match r with
  | some w => w
  | none => nanOf (Config.nanPolicy d)

/-- `fadd` as the d-th operation of the block (R8). -/
def fadd (d : Nat) (a b : Word) : Word := orNaN d (addResult a b)

/-- `fsub` as the d-th operation of the block (R8). -/
def fsub (d : Nat) (a b : Word) : Word := orNaN d (subResult a b)

/-- `fmul` as the d-th operation of the block (R8). -/
def fmul (d : Nat) (a b : Word) : Word := orNaN d (mulResult a b)

/-! ### Constants (R8) -/

/-- 0.5. -/
def HALF : Word := 0x3F000000#32
/-- The binary32 nearest cos(π/8). -/
def C1 : Word := 0x3F6C835E#32
/-- The binary32 nearest cos(2π/8). -/
def C2 : Word := 0x3F3504F3#32
/-- The binary32 nearest cos(3π/8). -/
def C3 : Word := 0x3EC3EF15#32

end Sys2Proof.Machine
end

