-- ==== Sys2Proof/Machine/Ops.lean ====
section
/-! DEFINITION. The named operations over memory, slots and the error record: one byte, one word, a slot, entering an
error (R142), leaving it (R25, R147), and the hardware reset (R160). -/

namespace Sys2Proof.Machine

/-! ### Memory: bytes -/

/-- The byte written at an address, if any. -/
def Memory.get? : Memory → Nat → Option Byte
  | [], _ => none
  | (b, v) :: m, a => if b = a then some v else Memory.get? m a

/-- Write one byte, keeping the addresses in rising order with no repeats. -/
def Memory.set : Memory → Nat → Byte → Memory
  | [], a, v => [(a, v)]
  | (b, w) :: m, a, v =>
    if a < b then (a, v) :: (b, w) :: m
    else if a = b then (a, v) :: m
    else (b, w) :: Memory.set m a v

/-- The canonical form: addresses strictly rising. An unlisted address is unwritten, which no listed byte is, so no entry
equals what an unlisted address holds. -/
def Memory.wf : Memory → Bool
  | [] => true
  | [_] => true
  | (a, _) :: (b, v) :: m => decide (a < b) && Memory.wf ((b, v) :: m)

/-- The byte at a BUF byte address: the one written, else the reset contents (R44, U2). -/
def Memory.readByte (epoch : Nat) (m : Memory) (a : Nat) : Byte :=
  (m.get? a).getD (Config.bufReset epoch a)

/-! ### Memory: words, little-endian (R46) -/

/-- The host byte address of BUF word `w` (R40). -/
def bufAddr (w : Nat) : Nat := 0x400000 + 4 * w

/-- The word whose four bytes stand at byte address `a` and after: the byte at a + j holds bits 8j+7 to 8j (R46). -/
def Memory.readWordAt (epoch : Nat) (m : Memory) (a : Nat) : Word :=
  m.readByte epoch (a + 3) ++ m.readByte epoch (a + 2) ++ m.readByte epoch (a + 1) ++ m.readByte epoch a

/-- Write a word's four bytes at byte address `a` (R46). -/
def Memory.writeWordAt (m : Memory) (a : Nat) (v : Word) : Memory :=
  (((m.set a (v.extractLsb' 0 8)).set (a + 1) (v.extractLsb' 8 8)).set (a + 2) (v.extractLsb' 16 8)).set (a + 3)
    (v.extractLsb' 24 8)

/-- `BUF[w]` (R7, R31). -/
def Memory.readWord (epoch : Nat) (m : Memory) (w : Nat) : Word := m.readWordAt epoch (bufAddr w)

/-- `BUF[w] <- v` (R7, R31). -/
def Memory.writeWord (m : Memory) (w : Nat) (v : Word) : Memory := m.writeWordAt (bufAddr w) v

/-! ### The state's own reads and writes -/

/-- `BUF_WORDS` = 2^K (R5, R24). -/
def State.bufWords (s : State) : Nat := 2 ^ (Config.log2BufMin + s.bufSize.val)

/-- One byte of BUF by its host byte address (R46). -/
def State.readByte (s : State) (a : Nat) : Byte := s.buf.readByte s.bufEpoch a

/-- `BUF[w]` (R7). -/
def State.bufWord (s : State) (w : Nat) : Word := s.buf.readWord s.bufEpoch w

/-- `BUF[w] <- v` (R7). -/
def State.setBufWord (s : State) (w : Nat) (v : Word) : State := { s with buf := s.buf.writeWord w v }

/-- `slot[k]` (R30). -/
def State.slot (s : State) (k : SlotId) : Slot := if k = 0 then s.slot0 else s.slot1

/-- Replace `slot[k]` (R81, R87). -/
def State.setSlot (s : State) (k : SlotId) (v : Slot) : State :=
  if k = 0 then { s with slot0 := v } else { s with slot1 := v }

/-- VALID of a slot (R30). -/
def slotValid (v : Slot) : Bool := v.isSome

/-- L of a slot: 6 to 13 when VALID = 1, 0 when VALID = 0 (R30). -/
def slotL : Slot → Nat
  | none => 0
  | some k => k.val + Config.log2nMin

/-- The slot INIT builds for a legal L (R30, R81). -/
def slotOf (l : Nat) : Slot := some (Fin.ofNat 8 (l - Config.log2nMin))

/-! ### The block's one exception: entering an error, and the return from it -/

/-- `raise Error(code)` for command word `w` (R142): ERRV, ERRCODE and ERRCMD, and nothing else. -/
def State.raiseError (s : State) (code : ErrCode) (w : Word) : State :=
  { s with errv := true, errcode := code, errcmd := w }

/-- The return from an error: what writing 1 to STATUS bit 0 does (R25, R147). -/
def State.clearError (s : State) : State :=
  { s with errv := false, errcode := .noError, errcmd := 0#32 }

/-- The discard of a command while an error is pending (R146): only a nonzero word is counted. -/
def State.discard (s : State) (w : Word) : State :=
  if w ≠ 0#32 then { s with drop := true } else s

/-- The hardware reset (R160, R161): every state element of R33 takes its reset value and BUF is unwritten again, with
contents of its own (assumption 3). The parameter, the draw count and the host's side of the port stay. -/
def State.hardReset (s : State) : State :=
  { State.reset with
      bufSize := s.bufSize, bufEpoch := s.bufEpoch + 1, nanDraws := s.nanDraws
      pending := s.pending, replies := s.replies }

end Sys2Proof.Machine
end

