-- ==== Sys2Proof/Machine/Tables.lean ====
section
/-! DEFINITION. The lookup tables of a slot as functions of L (R30): the trig table TRIG(L) (R82, R83) and the bit-reversal
table BITREV(L) (R84). The cosines are computed on integers in units of 2^-64, close enough that the binary32 value
nearest to the computed number is the one nearest to the exact real number (assumption 5). -/

namespace Sys2Proof.Machine

/-! ### Cosine and sine of π·j/2^e in units of 2^-64 -/

/-- One in units of 2^-64. -/
def fixOne : Nat := 2 ^ 64

/-- π in units of 2^-64, rounded down. -/
def fixPi : Nat := 0x3243F6A8885A308D3

/-- Horner's scheme for the alternating series 1 − x²/d(k)·(1 − x²/d(k+1)·(…)), `n` terms, `x2` = x². -/
def altSeries (d : Nat → Nat) (x2 : Nat) : Nat → Nat → Nat
  | _, 0 => fixOne
  | k, n + 1 => fixOne - x2 * altSeries d x2 (k + 1) n / 2 ^ 64 / d k

/-- The cosine of an angle of at most π/4, by its series. -/
def cosSeries (x : Nat) : Nat := altSeries (fun k => (2 * k - 1) * (2 * k)) (x * x / 2 ^ 64) 1 12

/-- The sine of an angle of at most π/4, by its series. -/
def sinSeries (x : Nat) : Nat := x * altSeries (fun k => 2 * k * (2 * k + 1)) (x * x / 2 ^ 64) 1 12 / 2 ^ 64

/-- cos(π·j/2^e) for 0 ≤ j ≤ 2^(e−1), the first quarter turn, e ≥ 2. -/
def cosQuarter (j e : Nat) : Nat :=
  if j ≤ 2 ^ (e - 2) then cosSeries (fixPi * j / 2 ^ e) else sinSeries (fixPi * (2 ^ (e - 1) - j) / 2 ^ e)

/-- cos(π·j/2^e) for 0 ≤ j ≤ 2^e, the first half turn. -/
def cosFix (j e : Nat) : Int :=
  if j ≤ 2 ^ (e - 1) then (cosQuarter j e : Int) else -(cosQuarter (2 ^ e - j) e : Int)

/-- sin(π·j/2^e) for 0 ≤ j ≤ 2^e: the cosine of the distance to the quarter turn. -/
def sinFix (j e : Nat) : Int :=
  if j ≤ 2 ^ (e - 1) then (cosQuarter (2 ^ (e - 1) - j) e : Int) else (cosQuarter (j - 2 ^ (e - 1)) e : Int)

/-- `rnd32` of v · 2^-(64+h) (R8). -/
def rndFix (v : Int) (h : Nat) : Word := signed (decide (v < 0)) (roundBits (v.natAbs * 2 ^ 85) h)

/-! ### The trig table (R82, R83) -/

/-- Word k of TRIG(L). Every angle is a multiple of π/(2n) = π/2^(L+1). -/
def trigWord (l k : Nat) : Word :=
  let n := 2 ^ l
  let n2 := n / 2
  let e := l + 1
  if k = 1 then 0x80000000#32
  else if k = n / 4 then 0x248D3132#32
  else if k < n2 then
    let i := k / 2
    if k % 2 = 0 then rndFix (cosFix (8 * i) e) 0 else rndFix (-sinFix (8 * i) e) 0
  else if k < n then
    let i := (k - n2) / 2
    if k % 2 = 0 then rndFix (cosFix (2 * i + 1) e) 0 else rndFix (sinFix (2 * i + 1) e) 0
  else if k < n + n / 4 then
    let i := (k - n) / 2
    if k % 2 = 0 then rndFix (cosFix (2 * (4 * i + 2)) e) 1 else rndFix (-sinFix (2 * (4 * i + 2)) e) 1
  else 0#32

/-! ### The bit-reversal table (R84) -/

/-- `rev(i, w)`: the w low bits of i in reverse order (R84). -/
def revBits (i : Nat) : Nat → Nat
  | 0 => 0
  | w + 1 => i % 2 * 2 ^ w + revBits (i / 2) w

/-- Entry k of BITREV(L) (R84). -/
def bitrevEntry (l k : Nat) : Nat :=
  if k < 2 ^ l / 4 then
    if k % 2 = 1 then revBits (k / 2) (l - 1) else 2 ^ l / 2 - 2 - revBits (k / 2) (l - 1)
  else 0

/-! ### A slot's tables (R30): zero everywhere while VALID = 0 -/

/-- `slot.T[k]` (R30). -/
def slotTrig (v : Slot) (k : Nat) : Word := if slotValid v then trigWord (slotL v) k else 0#32

/-- `slot.BR[k]` (R30). -/
def slotBitrev (v : Slot) (k : Nat) : Nat := if slotValid v then bitrevEntry (slotL v) k else 0

end Sys2Proof.Machine
end

