-- ==== Sys2Proof/Machine/Datapath.lean ====
section
/-! DEFINITION. The datapath (R7, R8): a command's body is a list of assignments, in the order the pseudocode writes them, over
the words X(i) of its window, the temporaries r0 to r3 and the trig table. The list depends on the command's operands
and on L alone, never on BUF (R69, R100). -/

namespace Sys2Proof.Machine

/-- A temporary of a command (R20). -/
inductive Temp where
  | r0 | r1 | r2 | r3
deriving DecidableEq, Repr

/-- The right side of an assignment. -/
inductive Rhs where
  /-- X(i), the i-th word of the window (R7). -/
  | x (i : Nat)
  /-- A temporary. -/
  | r (k : Temp)
  /-- T[k], word k of the slot's trig table (R7). -/
  | t (k : Nat)
  /-- A constant of R8. -/
  | c (w : Word)
  | neg (e : Rhs)
  | add (e f : Rhs)
  | sub (e f : Rhs)
  | mul (e f : Rhs)
deriving DecidableEq, Repr

/-- One assignment of the pseudocode. -/
inductive Assign where
  /-- `X(i) <- e`. -/
  | setX (i : Nat) (e : Rhs)
  /-- `r = e`. -/
  | setR (k : Temp) (e : Rhs)
deriving DecidableEq, Repr

/-- How many operations an expression performs; a negation is none (R173). -/
def Rhs.ops : Rhs → Nat
  | .x _ => 0
  | .r _ => 0
  | .t _ => 0
  | .c _ => 0
  | .neg e => e.ops
  | .add e f => e.ops + f.ops + 1
  | .sub e f => e.ops + f.ops + 1
  | .mul e f => e.ops + f.ops + 1

/-- The value of an expression whose first operation is the d-th of the block: operands from left to right, each
operation rounded once, none fused (R8). -/
def Rhs.eval (X : Nat → Word) (R : Temp → Word) (T : Nat → Word) : Rhs → Nat → Word
  | .x i, _ => X i
  | .r k, _ => R k
  | .t k, _ => T k
  | .c w, _ => w
  | .neg e, d => fneg (e.eval X R T d)
  | .add e f, d => fadd (d + e.ops + f.ops) (e.eval X R T d) (f.eval X R T (d + e.ops))
  | .sub e f, d => fsub (d + e.ops + f.ops) (e.eval X R T d) (f.eval X R T (d + e.ops))
  | .mul e f, d => fmul (d + e.ops + f.ops) (e.eval X R T d) (f.eval X R T (d + e.ops))

/-- What a body changes while it runs: BUF, the temporaries, and the count of operations. -/
structure Datapath where
  mem : Memory
  draws : Nat
  r0 : Word
  r1 : Word
  r2 : Word
  r3 : Word
deriving DecidableEq, Repr

/-- The value of a temporary. -/
def Datapath.temp (p : Datapath) : Temp → Word
  | .r0 => p.r0
  | .r1 => p.r1
  | .r2 => p.r2
  | .r3 => p.r3

/-- Replace a temporary's value. -/
def Datapath.setTemp (p : Datapath) (v : Word) : Temp → Datapath
  | .r0 => { p with r0 := v }
  | .r1 => { p with r1 := v }
  | .r2 => { p with r2 := v }
  | .r3 => { p with r3 := v }

/-- X(i) = `BUF[base + i]` (R7). -/
def Datapath.X (epoch base : Nat) (p : Datapath) (i : Nat) : Word := p.mem.readWord epoch (base + i)

/-- The value of an expression in a running body. -/
def Datapath.value (epoch base : Nat) (T : Nat → Word) (p : Datapath) (e : Rhs) : Word :=
  e.eval (p.X epoch base) p.temp T p.draws

/-- One assignment. -/
def Datapath.assign (epoch base : Nat) (T : Nat → Word) (p : Datapath) : Assign → Datapath
  | .setX i e =>
    { p with mem := p.mem.writeWord (base + i) (p.value epoch base T e), draws := p.draws + e.ops }
  | .setR k e => { p.setTemp (p.value epoch base T e) k with draws := p.draws + e.ops }

/-- The assignments of a body, one after another (R7). -/
def Datapath.run (epoch base : Nat) (T : Nat → Word) : Datapath → List Assign → Datapath
  | p, [] => p
  | p, b :: bs => Datapath.run epoch base T (p.assign epoch base T b) bs

/-- The datapath at the start of a command: the temporaries hold nothing of an earlier command (R20), here zero. No
body reads a temporary before it sets it. -/
def State.datapath (s : State) : Datapath :=
  { mem := s.buf, draws := s.nanDraws, r0 := 0#32, r1 := 0#32, r2 := 0#32, r3 := 0#32 }

/-- Perform a body on the window at BUF word `base` with table `T`: only BUF and the operation count change. -/
def State.runBody (s : State) (base : Nat) (T : Nat → Word) (body : List Assign) : State :=
  let p := s.datapath.run s.bufEpoch base T body
  { s with buf := p.mem, nanDraws := p.draws }

/-- `for m in 0 .. q - 1` (R9): the bodies for m = 0, 1, …, q − 1 in this order, none when q = 0. -/
def forLoop (q : Nat) (body : Nat → List Assign) : List Assign := (List.range q).flatMap body

/-- The operations a body performs. -/
def bodyOps : List Assign → Nat
  | [] => 0
  | .setX _ e :: bs => e.ops + bodyOps bs
  | .setR _ e :: bs => e.ops + bodyOps bs

end Sys2Proof.Machine
end

