-- ==== Sys2Proof/Machine/Flags.lean ====
section
/-! DEFINITION. The block's only flags, STATUS.ERRV and STATUS.DROP (R32), as the register a host sees (R25), and the other
registers' words (R22 to R29). -/

namespace Sys2Proof.Machine

/-- The number of an error code (R141). -/
def ErrCode.toNat : ErrCode → Nat
  | .noError => 0
  | .illegalOpcode => 1
  | .reservedField => 2
  | .badSize => 3
  | .slotInvalid => 4
  | .badStage => 5
  | .range => 6

/-- The code a decode error records (R65, R66). -/
def decodeErrCode : DecodeError → ErrCode
  | .illegalOpcode => .illegalOpcode
  | .reservedField => .reservedField

/-- What STATUS reads as: ERRV in bit 0, DROP in bit 1, ERRCODE in 11:8, the rest 0 (R25). -/
def State.statusWord (s : State) : Word :=
  BitVec.ofNat 32 (s.errv.toNat + s.drop.toNat * 2 + s.errcode.toNat * 2 ^ 8)

/-- A host write of `v` to STATUS: bit 0 clears the error, bit 1 clears DROP, the other bits do nothing (R25). -/
def State.writeStatus (s : State) (v : Word) : State :=
  let s1 := if v.getLsbD 0 then s.clearError else s
  if v.getLsbD 1 then { s1 with drop := false } else s1

/-- What PARAM reads as (R24). -/
def State.paramWord (s : State) : Word :=
  BitVec.ofNat 32
    (Config.log2nMin + Config.log2nMax * 2 ^ 8 + Config.nSlots * 2 ^ 16 + (Config.log2BufMin + s.bufSize.val) * 2 ^ 20
      + Config.ifVer * 2 ^ 28)

/-- What BASE reads as: IDX in 19:0, the rest 0 (R27). -/
def State.baseWord (s : State) : Word := s.baseIdx.setWidth 32

/-- A host write of `v` to BASE: IDX takes v[19:0] (R27). -/
def State.writeBase (s : State) (v : Word) : State := { s with baseIdx := v.setWidth 20 }

/-- What SLOT0 or SLOT1 reads as: L in 3:0, VALID in bit 8, the rest 0 (R29). -/
def slotWord (v : Slot) : Word := BitVec.ofNat 32 (slotL v + (slotValid v).toNat * 2 ^ 8)

end Sys2Proof.Machine
end

