-- ==== Sys2Proof/Machine/Operands.lean ====
section
/-! DEFINITION. The operand forms of the BUF-using commands: a slot with the window of n words at BASE.IDX (R100), and a
kernel's window of K words at BASE.IDX + OFS (R126), each with its checks in the order of R143 and R144. -/

namespace Sys2Proof.Machine

/-- BASE.IDX as an index (R27). -/
def State.base (s : State) : Nat := s.baseIdx.toNat

/-- The block size n = 2^L of a slot (R100). -/
def State.blockSize (s : State) (k : SlotId) : Nat := 2 ^ slotL (s.slot k)

/-- COMMON_CHECK (R100): the first error of SLOT_INVALID, RANGE, if any. -/
def State.commonCheck (s : State) (k : SlotId) : Option ErrCode :=
  if !slotValid (s.slot k) then some .slotInvalid
  else if s.base + s.blockSize k > s.bufWords then some .range
  else none

/-- BFLY_GEN's checks (R105): the first error of SLOT_INVALID, BAD_STAGE, RANGE, if any. -/
def State.stageCheck (s : State) (k : SlotId) (a b : Nat) : Option ErrCode :=
  if !slotValid (s.slot k) then some .slotInvalid
  else if a > slotL (s.slot k) - 5 ∨ b ≥ 2 ^ a then some .badStage
  else if s.base + s.blockSize k > s.bufWords then some .range
  else none

/-- KERNEL_CHECK (R126). -/
def State.kernelCheck (s : State) (ofs size : Nat) : Option ErrCode :=
  if s.base + ofs + size > s.bufWords then some .range else none

/-- INIT's check (R81). -/
def sizeCheck (l : Nat) : Option ErrCode :=
  if l < Config.log2nMin ∨ l > Config.log2nMax then some .badSize else none

/-- A command of the shape of R9: its CHECK, then its BODY only if every check passed. A failed check is an error entry
with the command's own word (R142). -/
def State.checked (s : State) (i : Instr) (check : Option ErrCode) (body : State) : Host.Outcome State Fault Refusal :=
  match check with
  | some code => .next (s.raiseError code (encode i))
  | none => .next body

/-- A slot-based body on the window X(0) .. X(n − 1) = BUF[BASE.IDX ..], with the slot's tables (R100). -/
def State.slotBody (s : State) (k : SlotId) (body : Nat → List Assign) : State :=
  s.runBody s.base (slotTrig (s.slot k)) (body (slotL (s.slot k)))

/-- A kernel body on the words E(i) = X(OFS + i) (R126). Kernels read no table. -/
def State.kernelBody (s : State) (body : List Assign) : State := s.runBody s.base (fun _ => 0#32) body

end Sys2Proof.Machine
end

