-- ==== Sys2Proof/Machine/Control.lean ====
section
/-! DEFINITION. NOP, INIT and CLEAR (R80, R81, R87). -/

namespace Sys2Proof.Machine

/-- NOP (R80): nothing. -/
def execNop (s : State) : Host.Outcome State Fault Refusal := .next s

/-- INIT s, L (R81): BAD_SIZE outside 6..13, else slot S holds the lookup of n = 2^L. -/
def execInit (k : SlotId) (l : Nat) (s : State) : Host.Outcome State Fault Refusal :=
  s.checked (.init k l) (sizeCheck l) (s.setSlot k (slotOf l))

/-- CLEAR s (R87): slot S is invalid, its tables all zero. -/
def execClear (k : SlotId) (s : State) : Host.Outcome State Fault Refusal := .next (s.setSlot k none)

end Sys2Proof.Machine
end

