-- ==== Sys2Proof/Machine/Kernels.lean ====
section
/-! DEFINITION. The kernels (R123, R124, R125) and their commands KER32, KER16, KER8 (R120, R121, R122). -/

namespace Sys2Proof.Machine

open Rhs Assign Temp

/-- The 8-point kernel K8(o), E(i) = X(o + i) (R125). -/
def k8Body (o : Nat) : List Assign :=
  [setR r0 (add (x (o + 6)) (x (o + 2))), setR r1 (sub (x (o + 6)) (x (o + 2))),
   setR r2 (add (x (o + 4)) (x (o + 0))), setR r3 (sub (x (o + 4)) (x (o + 0))),
   setX (o + 6) (add (r r0) (r r2)),
   setX (o + 4) (sub (r r0) (r r2)),
   setR r0 (sub (x (o + 5)) (x (o + 1))), setR r2 (sub (x (o + 7)) (x (o + 3))),
   setX (o + 0) (add (r r1) (r r0)),
   setX (o + 2) (sub (r r1) (r r0)),
   setR r0 (add (x (o + 5)) (x (o + 1))), setR r1 (add (x (o + 7)) (x (o + 3))),
   setX (o + 3) (add (r r2) (r r3)),
   setX (o + 1) (sub (r r2) (r r3)),
   setX (o + 7) (add (r r1) (r r0)),
   setX (o + 5) (sub (r r1) (r r0))]

/-- The four groups of K16(o) that come before its two 8-point kernels (R124). -/
def k16Head (o : Nat) : List Assign :=
  [setR r0 (sub (x (o + 1)) (x (o + 9))), setR r1 (sub (x (o + 0)) (x (o + 8))),
   setX (o + 8) (add (x (o + 8)) (x (o + 0))), setX (o + 9) (add (x (o + 9)) (x (o + 1))),
   setX (o + 0) (mul (add (r r0) (r r1)) (c C2)),
   setX (o + 1) (mul (sub (r r0) (r r1)) (c C2)),
   setR r0 (sub (x (o + 3)) (x (o + 11))), setR r1 (sub (x (o + 10)) (x (o + 2))),
   setX (o + 10) (add (x (o + 10)) (x (o + 2))), setX (o + 11) (add (x (o + 11)) (x (o + 3))),
   setX (o + 2) (r r0), setX (o + 3) (r r1),
   setR r0 (sub (x (o + 12)) (x (o + 4))), setR r1 (sub (x (o + 13)) (x (o + 5))),
   setX (o + 12) (add (x (o + 12)) (x (o + 4))), setX (o + 13) (add (x (o + 13)) (x (o + 5))),
   setX (o + 4) (mul (sub (r r0) (r r1)) (c C2)),
   setX (o + 5) (mul (add (r r0) (r r1)) (c C2)),
   setR r0 (sub (x (o + 14)) (x (o + 6))), setR r1 (sub (x (o + 15)) (x (o + 7))),
   setX (o + 14) (add (x (o + 14)) (x (o + 6))), setX (o + 15) (add (x (o + 15)) (x (o + 7))),
   setX (o + 6) (r r0), setX (o + 7) (r r1)]

/-- The 16-point kernel K16(o) (R124). -/
def k16Body (o : Nat) : List Assign := k16Head o ++ k8Body o ++ k8Body (o + 8)

/-- The eight groups of K32(o) that come before its two 16-point kernels (R123). -/
def k32Head (o : Nat) : List Assign :=
  [setR r0 (sub (x (o + 30)) (x (o + 14))), setR r1 (sub (x (o + 31)) (x (o + 15))),
   setX (o + 30) (add (x (o + 30)) (x (o + 14))), setX (o + 31) (add (x (o + 31)) (x (o + 15))),
   setX (o + 14) (r r0), setX (o + 15) (r r1),
   setR r0 (sub (x (o + 28)) (x (o + 12))), setR r1 (sub (x (o + 29)) (x (o + 13))),
   setX (o + 28) (add (x (o + 28)) (x (o + 12))), setX (o + 29) (add (x (o + 29)) (x (o + 13))),
   setX (o + 12) (sub (mul (r r0) (c C1)) (mul (r r1) (c C3))),
   setX (o + 13) (add (mul (r r0) (c C3)) (mul (r r1) (c C1))),
   setR r0 (sub (x (o + 26)) (x (o + 10))), setR r1 (sub (x (o + 27)) (x (o + 11))),
   setX (o + 26) (add (x (o + 26)) (x (o + 10))), setX (o + 27) (add (x (o + 27)) (x (o + 11))),
   setX (o + 10) (mul (sub (r r0) (r r1)) (c C2)),
   setX (o + 11) (mul (add (r r0) (r r1)) (c C2)),
   setR r0 (sub (x (o + 24)) (x (o + 8))), setR r1 (sub (x (o + 25)) (x (o + 9))),
   setX (o + 24) (add (x (o + 24)) (x (o + 8))), setX (o + 25) (add (x (o + 25)) (x (o + 9))),
   setX (o + 8) (sub (mul (r r0) (c C3)) (mul (r r1) (c C1))),
   setX (o + 9) (add (mul (r r1) (c C3)) (mul (r r0) (c C1))),
   setR r0 (sub (x (o + 22)) (x (o + 6))), setR r1 (sub (x (o + 7)) (x (o + 23))),
   setX (o + 22) (add (x (o + 22)) (x (o + 6))), setX (o + 23) (add (x (o + 23)) (x (o + 7))),
   setX (o + 6) (r r1), setX (o + 7) (r r0),
   setR r0 (sub (x (o + 4)) (x (o + 20))), setR r1 (sub (x (o + 5)) (x (o + 21))),
   setX (o + 20) (add (x (o + 20)) (x (o + 4))), setX (o + 21) (add (x (o + 21)) (x (o + 5))),
   setX (o + 4) (add (mul (r r1) (c C1)) (mul (r r0) (c C3))),
   setX (o + 5) (sub (mul (r r1) (c C3)) (mul (r r0) (c C1))),
   setR r0 (sub (x (o + 2)) (x (o + 18))), setR r1 (sub (x (o + 3)) (x (o + 19))),
   setX (o + 18) (add (x (o + 18)) (x (o + 2))), setX (o + 19) (add (x (o + 19)) (x (o + 3))),
   setX (o + 2) (mul (add (r r1) (r r0)) (c C2)),
   setX (o + 3) (mul (sub (r r1) (r r0)) (c C2)),
   setR r0 (sub (x (o + 0)) (x (o + 16))), setR r1 (sub (x (o + 1)) (x (o + 17))),
   setX (o + 16) (add (x (o + 16)) (x (o + 0))), setX (o + 17) (add (x (o + 17)) (x (o + 1))),
   setX (o + 0) (add (mul (r r1) (c C3)) (mul (r r0) (c C1))),
   setX (o + 1) (sub (mul (r r1) (c C1)) (mul (r r0) (c C3)))]

/-- The 32-point kernel K32(o) (R123). -/
def k32Body (o : Nat) : List Assign := k32Head o ++ k16Body o ++ k16Body (o + 16)

/-- KER32 ofs (R120): K32 on the 32 words at BASE.IDX + OFS. -/
def execKer32 (ofs : Nat) (s : State) : Host.Outcome State Fault Refusal :=
  s.checked (.ker32 ofs) (s.kernelCheck ofs 32) (s.kernelBody (k32Body ofs))

/-- KER16 ofs (R121): K16 on the 16 words at BASE.IDX + OFS. -/
def execKer16 (ofs : Nat) (s : State) : Host.Outcome State Fault Refusal :=
  s.checked (.ker16 ofs) (s.kernelCheck ofs 16) (s.kernelBody (k16Body ofs))

/-- KER8 ofs (R122): K8 on the 8 words at BASE.IDX + OFS. -/
def execKer8 (ofs : Nat) (s : State) : Host.Outcome State Fault Refusal :=
  s.checked (.ker8 ofs) (s.kernelCheck ofs 8) (s.kernelBody (k8Body ofs))

end Sys2Proof.Machine
end

