-- ==== Sys2Proof/Machine/Transform.lean ====
section
/-! DEFINITION. The transform commands (R101 to R108): BACKWARD and its stages. In every body n = 2^L, n2 = n/2, n4 = n/4 and
q = n/16. -/

namespace Sys2Proof.Machine

open Rhs Assign Temp

/-- Loop A of ROT_IN for one m: the odd inputs (R102). -/
def rotInA (n2 n4 m : Nat) : List Assign :=
  let i := n2 - 7 - 8 * m
  let o := n2 + n4 - 4 - 4 * m
  let k := n4 + 4 * m
  [setX (o + 0) (sub (mul (neg (x (i + 2))) (t (k + 3))) (mul (x (i + 0)) (t (k + 2)))),
   setX (o + 1) (sub (mul (x (i + 0)) (t (k + 3))) (mul (x (i + 2)) (t (k + 2)))),
   setX (o + 2) (sub (mul (neg (x (i + 6))) (t (k + 1))) (mul (x (i + 4)) (t (k + 0)))),
   setX (o + 3) (sub (mul (x (i + 4)) (t (k + 1))) (mul (x (i + 6)) (t (k + 0))))]

/-- Loop B of ROT_IN for one m: the even inputs (R102). -/
def rotInB (n2 n4 m : Nat) : List Assign :=
  let i := n2 - 8 - 8 * m
  let o := n2 + n4 + 4 * m
  let k := n4 - 4 - 4 * m
  [setX (o + 0) (add (mul (x (i + 4)) (t (k + 3))) (mul (x (i + 6)) (t (k + 2)))),
   setX (o + 1) (sub (mul (x (i + 4)) (t (k + 2))) (mul (x (i + 6)) (t (k + 3)))),
   setX (o + 2) (add (mul (x (i + 0)) (t (k + 1))) (mul (x (i + 2)) (t (k + 0)))),
   setX (o + 3) (sub (mul (x (i + 0)) (t (k + 0))) (mul (x (i + 2)) (t (k + 1))))]

/-- ROT_IN_BODY (R102). -/
def rotInBody (l : Nat) : List Assign :=
  let n := 2 ^ l
  forLoop (n / 16) (rotInA (n / 2) (n / 4)) ++ forLoop (n / 16) (rotInB (n / 2) (n / 4))

/-- PAIR(a, b, ta, tb) (R103). -/
def pairBody (a b ta tb : Nat) : List Assign :=
  [setR r0 (sub (x a) (x b)),
   setR r1 (sub (x (a + 1)) (x (b + 1))),
   setX a (add (x a) (x b)),
   setX (a + 1) (add (x (a + 1)) (x (b + 1))),
   setX b (add (mul (r r1) (t tb)) (mul (r r0) (t ta))),
   setX (b + 1) (sub (mul (r r1) (t ta)) (mul (r r0) (t tb)))]

/-- One iteration of GROUP(g, p, d) (R103). -/
def groupStep (g p d m : Nat) : List Assign :=
  let a := g + p - 8 - 8 * m
  let b := g + p / 2 - 8 - 8 * m
  let k := 4 * d * m
  pairBody (a + 6) (b + 6) k (k + 1) ++
  pairBody (a + 4) (b + 4) (k + d) (k + d + 1) ++
  pairBody (a + 2) (b + 2) (k + 2 * d) (k + 2 * d + 1) ++
  pairBody (a + 0) (b + 0) (k + 3 * d) (k + 3 * d + 1)

/-- GROUP(g, p, d) (R103). -/
def groupBody (g p d : Nat) : List Assign := forLoop (p / 16) (groupStep g p d)

/-- BFLY_FIRST_BODY (R104). -/
def bflyFirstBody (l : Nat) : List Assign := groupBody (2 ^ l / 2) (2 ^ l / 2) 4

/-- BFLY_GEN's body for stage a, group b (R105). -/
def bflyGenBody (a b l : Nat) : List Assign :=
  let n2 := 2 ^ l / 2
  let p := n2 / 2 ^ a
  groupBody (n2 + p * b) p (4 * 2 ^ a)

/-- All the groups of generic stage i (R106). -/
def genericStage (l i : Nat) : List Assign := forLoop (2 ^ i) (fun j => bflyGenBody i j l)

/-- BFLY_ALL_BODY (R106): the first stage when L ≥ 7, the generic stages 1 .. L − 7, then the 32-point kernels. -/
def bflyAllBody (l : Nat) : List Assign :=
  (if l ≥ 7 then bflyFirstBody l else []) ++
  forLoop (l - 7) (fun i => genericStage l (i + 1)) ++
  forLoop (2 ^ l / 64) (fun j => k32Body (2 ^ l / 2 + 32 * j))

/-- One pair of BITREV (R107): reads at i0 and i1, twiddles T[k] and T[k+1], writes lo, lo+1 and hi, hi+1. -/
def bitrevPair (i0 i1 k lo hi : Nat) : List Assign :=
  [setR r0 (sub (x (i0 + 1)) (x (i1 + 1))),
   setR r1 (add (x i0) (x i1)),
   setR r2 (add (mul (r r1) (t k)) (mul (r r0) (t (k + 1)))),
   setR r3 (sub (mul (r r1) (t (k + 1))) (mul (r r0) (t k))),
   setR r0 (mul (add (x (i0 + 1)) (x (i1 + 1))) (c HALF)),
   setR r1 (mul (sub (x i0) (x i1)) (c HALF)),
   setX lo (add (r r0) (r r2)),
   setX hi (sub (r r0) (r r2)),
   setX (lo + 1) (add (r r1) (r r3)),
   setX (hi + 1) (sub (r r3) (r r1))]

/-- One iteration of BITREV_BODY (R107). -/
def bitrevStep (l m : Nat) : List Assign :=
  let n := 2 ^ l
  let n2 := n / 2
  let w0 := 4 * m
  let w1 := n2 - 4 - 4 * m
  let k := n + 4 * m
  let b := 4 * m
  bitrevPair (n2 + bitrevEntry l b) (n2 + bitrevEntry l (b + 1)) k (w0 + 0) (w1 + 2) ++
  bitrevPair (n2 + bitrevEntry l (b + 2)) (n2 + bitrevEntry l (b + 3)) (k + 2) (w0 + 2) (w1 + 0)

/-- BITREV_BODY (R107). -/
def bitrevBody (l : Nat) : List Assign := forLoop (2 ^ l / 16) (bitrevStep l)

/-- Loop A of ROT_OUT for one m (R108). -/
def rotOutA (n2 n4 m : Nat) : List Assign :=
  let i := 8 * m
  let a := n2 + n4 - 4 - 4 * m
  let b := n2 + n4 + 4 * m
  let k := n2 + 8 * m
  [setX (a + 3) (sub (mul (x (i + 0)) (t (k + 1))) (mul (x (i + 1)) (t (k + 0)))),
   setX (b + 0) (neg (add (mul (x (i + 0)) (t (k + 0))) (mul (x (i + 1)) (t (k + 1))))),
   setX (a + 2) (sub (mul (x (i + 2)) (t (k + 3))) (mul (x (i + 3)) (t (k + 2)))),
   setX (b + 1) (neg (add (mul (x (i + 2)) (t (k + 2))) (mul (x (i + 3)) (t (k + 3))))),
   setX (a + 1) (sub (mul (x (i + 4)) (t (k + 5))) (mul (x (i + 5)) (t (k + 4)))),
   setX (b + 2) (neg (add (mul (x (i + 4)) (t (k + 4))) (mul (x (i + 5)) (t (k + 5))))),
   setX (a + 0) (sub (mul (x (i + 6)) (t (k + 7))) (mul (x (i + 7)) (t (k + 6)))),
   setX (b + 3) (neg (add (mul (x (i + 6)) (t (k + 6))) (mul (x (i + 7)) (t (k + 7)))))]

/-- Loop B of ROT_OUT for one m (R108). -/
def rotOutB (n2 n4 m : Nat) : List Assign :=
  let i := n2 + n4 - 4 - 4 * m
  let a := n4 - 4 - 4 * m
  let b := n4 + 4 * m
  [setX (a + 3) (x (i + 3)), setX (b + 0) (neg (x (i + 3))),
   setX (a + 2) (x (i + 2)), setX (b + 1) (neg (x (i + 2))),
   setX (a + 1) (x (i + 1)), setX (b + 2) (neg (x (i + 1))),
   setX (a + 0) (x (i + 0)), setX (b + 3) (neg (x (i + 0)))]

/-- Loop C of ROT_OUT for one m (R108). -/
def rotOutC (n2 n4 m : Nat) : List Assign :=
  let i := n2 + n4 + 4 * m
  let a := n2 + n4 - 4 - 4 * m
  [setX (a + 0) (x (i + 3)),
   setX (a + 1) (x (i + 2)),
   setX (a + 2) (x (i + 1)),
   setX (a + 3) (x (i + 0))]

/-- ROT_OUT_BODY (R108): each loop to completion before the next. -/
def rotOutBody (l : Nat) : List Assign :=
  let n := 2 ^ l
  forLoop (n / 16) (rotOutA (n / 2) (n / 4)) ++ forLoop (n / 16) (rotOutB (n / 2) (n / 4)) ++
  forLoop (n / 16) (rotOutC (n / 2) (n / 4))

/-- BACKWARD's body: the four stage bodies in order, with no check between them (R101). -/
def backwardBody (l : Nat) : List Assign := rotInBody l ++ bflyAllBody l ++ bitrevBody l ++ rotOutBody l

/-- BACKWARD s (R101): the inverse MDCT of one channel block, in place. -/
def execBackward (k : SlotId) (s : State) : Host.Outcome State Fault Refusal :=
  s.checked (.backward k) (s.commonCheck k) (s.slotBody k backwardBody)

/-- ROT_IN s (R102). -/
def execRotIn (k : SlotId) (s : State) : Host.Outcome State Fault Refusal :=
  s.checked (.rotIn k) (s.commonCheck k) (s.slotBody k rotInBody)

/-- BFLY_FIRST s (R104). -/
def execBflyFirst (k : SlotId) (s : State) : Host.Outcome State Fault Refusal :=
  s.checked (.bflyFirst k) (s.commonCheck k) (s.slotBody k bflyFirstBody)

/-- BFLY_GEN s, A, B (R105). -/
def execBflyGen (k : SlotId) (a b : Nat) (s : State) : Host.Outcome State Fault Refusal :=
  s.checked (.bflyGen k a b) (s.stageCheck k a b) (s.slotBody k (bflyGenBody a b))

/-- BFLY_ALL s (R106). -/
def execBflyAll (k : SlotId) (s : State) : Host.Outcome State Fault Refusal :=
  s.checked (.bflyAll k) (s.commonCheck k) (s.slotBody k bflyAllBody)

/-- BITREV s (R107). -/
def execBitrev (k : SlotId) (s : State) : Host.Outcome State Fault Refusal :=
  s.checked (.bitrev k) (s.commonCheck k) (s.slotBody k bitrevBody)

/-- ROT_OUT s (R108). -/
def execRotOut (k : SlotId) (s : State) : Host.Outcome State Fault Refusal :=
  s.checked (.rotOut k) (s.commonCheck k) (s.slotBody k rotOutBody)

end Sys2Proof.Machine
end

