-- ==== Sys2Proof/Machine/Dispatch.lean ====
section
/-! DEFINITION. `execute(op, fields)` of R66: one arm per command of R64. -/

namespace Sys2Proof.Machine

def exec (i : Instr) (s : State) : Host.Outcome State Fault Refusal :=
  match i with
  | .nop => Sys2Proof.Machine.execNop s
  | .init k l => Sys2Proof.Machine.execInit k l s
  | .clear k => Sys2Proof.Machine.execClear k s
  | .backward k => Sys2Proof.Machine.execBackward k s
  | .rotIn k => Sys2Proof.Machine.execRotIn k s
  | .bflyFirst k => Sys2Proof.Machine.execBflyFirst k s
  | .bflyGen k a b => Sys2Proof.Machine.execBflyGen k a b s
  | .bflyAll k => Sys2Proof.Machine.execBflyAll k s
  | .bitrev k => Sys2Proof.Machine.execBitrev k s
  | .rotOut k => Sys2Proof.Machine.execRotOut k s
  | .ker32 ofs => Sys2Proof.Machine.execKer32 ofs s
  | .ker16 ofs => Sys2Proof.Machine.execKer16 ofs s
  | .ker8 ofs => Sys2Proof.Machine.execKer8 ofs s

end Sys2Proof.Machine
end

