-- ==== Sys2Proof/Machine/Bus.lean ====
section
/-! DEFINITION. The host port: what a host read returns (R41, R43, R49, R50), what a host write does (R42), decode and issue of
a command word (R66, R146), and one whole event at the boundary (R45, R47, R161). -/

namespace Sys2Proof.Machine

/-- The address of STATUS, CMD and BASE, the three registers a write does something to (R22, R42). -/
def addrStatus : Nat := 0x008
def addrCmd : Nat := 0x00C
def addrBase : Nat := 0x010

/-- What a read of the register at a byte offset of REG returns; CMD and reserved offsets read 0 (R22, R41, R43). -/
def State.readReg (s : State) (offset : Nat) : Word :=
  match offset with
  | 0x000 => Config.idWord
  | 0x004 => s.paramWord
  | 0x008 => s.statusWord
  | 0x00C => 0#32
  | 0x010 => s.baseWord
  | 0x014 => s.errcmd
  | 0x018 => slotWord s.slot0
  | 0x01C => slotWord s.slot1
  | _ => 0#32

/-- Word k of a TRIG window (R40, R49). -/
def trigWindow (v : Slot) (k : Nat) : Word := if k < 10240 then slotTrig v k else 0#32

/-- Word k of a BITREV window (R40, R50). -/
def bitrevWindow (v : Slot) (k : Nat) : Word := BitVec.ofNat 32 (slotBitrev v k)

/-- `MemRead(a, 4)` (R41) by the map of R40. -/
def State.memRead (s : State) (addr : BitVec 24) : Word :=
  let a := addr.toNat
  if a < 0x001000 then s.readReg a
  else if a < 0x010000 then 0#32
  else if a < 0x020000 then trigWindow s.slot0 ((a - 0x010000) / 4)
  else if a < 0x030000 then trigWindow s.slot1 ((a - 0x020000) / 4)
  else if a < 0x032000 then bitrevWindow s.slot0 ((a - 0x030000) / 4)
  else if a < 0x034000 then bitrevWindow s.slot1 ((a - 0x032000) / 4)
  else if a < 0x400000 then 0#32
  else if a < 0x800000 then
    let w := (a - 0x400000) / 4
    if w < s.bufWords then s.bufWord w else 0#32
  else 0#32

/-- `issue(w)` (R66): while an error is pending the word is discarded (R146); else it is decoded, and either its error is
recorded with the word itself (R142) or its command executed. -/
def State.issue (s : State) (w : Word) : Host.Outcome State Fault Refusal :=
  if s.errv then .next (s.discard w)
  else
    match decode w with
    | .error e => .next (s.raiseError (decodeErrCode e) w)
    | .ok i => exec i s

/-- `MemWrite(a, 4, v)` (R42): STATUS, CMD, BASE and BUF; every other address ignores the write (R43). -/
def State.memWrite (s : State) (addr : BitVec 24) (v : Word) : Host.Outcome State Fault Refusal :=
  let a := addr.toNat
  if a = addrStatus then .next (s.writeStatus v)
  else if a = addrCmd then s.issue v
  else if a = addrBase then .next (s.writeBase v)
  else if 0x400000 ≤ a ∧ a < 0x800000 ∧ (a - 0x400000) / 4 < s.bufWords then
    .next (s.setBufWord ((a - 0x400000) / 4) v)
  else .next s

/-- Whether a transaction is inside the interface contract, and if not, why (R47). -/
def contract (addr : BitVec 24) (bytes : Nat) : Option Refusal :=
  if bytes ≠ 4 then some .unsupportedWidth
  else if addr.toNat % 4 ≠ 0 then some .misalignedAccess
  else none

/-- One event at the boundary, performed completely (R45). A transaction outside the contract has no step (R47, R148);
a read changes nothing but what the host has been told (R41). -/
def State.perform (s : State) : HostOp → Host.Outcome State Fault Refusal
  | .read addr bytes =>
    match contract addr bytes with
    | some r => .refused r
    | none => .next { s with replies := s.memRead addr :: s.replies }
  | .write addr bytes data =>
    match contract addr bytes with
    | some r => .refused r
    | none => s.memWrite addr data
  | .reset => .next s.hardReset

/-- One step of the block with its host: the next transaction of the host, or nothing when none is waiting (R14, R156). -/
def State.hostStep (s : State) : Host.Outcome State Fault Refusal :=
  match s.pending with
  | [] => .next s
  | op :: rest => { s with pending := rest }.perform op

/-- The state in which the very next step issues word `w` as a command: the host's next transaction is the write of `w`
to CMD, and no error is pending, which would discard it (R146). -/
def State.withCommand (s : State) (w : Word) : State :=
  { s.clearError with pending := .write 0x00000C#24 4 w :: s.pending }

end Sys2Proof.Machine
end

