-- ==== Sys2Proof/Machine/Step.lean ====
section
/-! DEFINITION. The machine's step: one host transaction (R14). -/

namespace Sys2Proof.Machine

/-- One step: the host's next transaction, performed completely (R14, R45). -/
def step (s : State) : Host.Outcome State Fault Refusal := s.hostStep

/-- The state whose next step runs the table word `w` of `nbits` bits, the bits above them zero. -/
def State.withFetchWord (s : State) (nbits w : Nat) : State := s.withCommand (BitVec.ofNat 32 (w % 2 ^ nbits))

end Sys2Proof.Machine
end

