-- ==== Sys2Proof/Safety.lean ====
section
/-! DEFINITION. The terms the statements use: when a command's checks pass, what a run of commands is, what a command leaves
alone, the results of an arithmetic operation whatever pattern a NaN takes, the real number a word stands for, and the
invariant of the machine. -/

namespace Sys2Proof.Machine

/-! ### Runs and readiness -/

/-- A run without a rejected command: no error is pending (R25). -/
def State.clean (s : State) : Prop := s.errv = false

/-- The commands of a list executed one after another, each on the state the one before it left. -/
def runCommands : List Instr → State → Host.Outcome State Fault Refusal
  | [], s => .next s
  | i :: is, s =>
    match exec i s with
    | .next t => runCommands is t
    | .fault f => .fault f
    | .refused r => .refused r

/-- COMMON_CHECK of R100 passes: the slot is valid and its window lies inside BUF. -/
def State.transformReady (s : State) (k : SlotId) : Prop :=
  slotValid (s.slot k) = true ∧ s.base + s.blockSize k ≤ s.bufWords

/-- BFLY_GEN's stage check of R105 passes: the group has at least 16 words and lies inside X(n2 .. n − 1). -/
def State.stageReady (s : State) (k : SlotId) (a b : Nat) : Prop := a ≤ slotL (s.slot k) - 5 ∧ b < 2 ^ a

/-- KERNEL_CHECK of R126 passes for a kernel of `size` words. -/
def State.kernelReady (s : State) (ofs size : Nat) : Prop := s.base + ofs + size ≤ s.bufWords

/-- X(i) of a slot-based command (R7). -/
def State.X (s : State) (i : Nat) : Word := s.bufWord (s.base + i)

/-! ### Frames -/

/-- Every state element of R33 but BUF is the same, and so are the parameter, the reset count and the host's port. -/
def SameButBuf (s t : State) : Prop :=
  t.errv = s.errv ∧ t.drop = s.drop ∧ t.errcode = s.errcode ∧ t.errcmd = s.errcmd ∧ t.baseIdx = s.baseIdx ∧
  t.slot0 = s.slot0 ∧ t.slot1 = s.slot1 ∧ t.bufSize = s.bufSize ∧ t.bufEpoch = s.bufEpoch ∧
  t.pending = s.pending ∧ t.replies = s.replies

/-- Every byte of memory outside BUF words lo .. hi − 1 reads as before. -/
def BytesSameOutside (s t : State) (lo hi : Nat) : Prop :=
  ∀ a, a < bufAddr lo ∨ bufAddr hi ≤ a → t.readByte a = s.readByte a

/-- The BUF words a command may touch, from the first to the one before the second number (R55): none for the control
commands, n words at BASE.IDX for a slot-based command, K words at BASE.IDX + OFS for a kernel. -/
def State.window (s : State) : Instr → Nat × Nat
  | .nop => (0, 0)
  | .init _ _ => (0, 0)
  | .clear _ => (0, 0)
  | .backward k => (s.base, s.base + s.blockSize k)
  | .rotIn k => (s.base, s.base + s.blockSize k)
  | .bflyFirst k => (s.base, s.base + s.blockSize k)
  | .bflyGen k _ _ => (s.base, s.base + s.blockSize k)
  | .bflyAll k => (s.base, s.base + s.blockSize k)
  | .bitrev k => (s.base, s.base + s.blockSize k)
  | .rotOut k => (s.base, s.base + s.blockSize k)
  | .ker32 ofs => (s.base + ofs, s.base + ofs + 32)
  | .ker16 ofs => (s.base + ofs, s.base + ofs + 16)
  | .ker8 ofs => (s.base + ofs, s.base + ofs + 8)

/-- The transaction is inside the contract (R47) and does not write BUF word `w`: it is a read, or a write to another
location that issues no command whose window holds `w`. -/
def State.leavesWord (s : State) (w : Nat) : HostOp → Prop
  | .read a bytes => bytes = 4 ∧ a.toNat % 4 = 0
  | .write a bytes d => bytes = 4 ∧ a.toNat % 4 = 0 ∧ a.toNat ≠ bufAddr w ∧
      (a.toNat = addrCmd → s.errv = false → ∀ i, decode d = .ok i → w < (s.window i).1 ∨ (s.window i).2 ≤ w)
  | .reset => False

/-- The next `n` steps each perform a transaction that does not write BUF word `w`. -/
def Undisturbed (w : Nat) : Nat → State → Prop
  | 0, _ => True
  | n + 1, s => (∃ op rest, s.pending = op :: rest ∧ s.leavesWord w op) ∧ ∀ t, step s = .next t → Undisturbed w n t

/-! ### Results of arithmetic, whatever pattern a NaN takes (R8, U1) -/

/-- `r` is what an operation with exact result `o` may give: the rounded word, or any NaN where the result is a NaN. -/
def IsResult (o : Option Word) (r : Word) : Prop :=
  match o with
  | some w => r = w
  | none => isNaN r = true

/-- r is a binary32 sum a + b. -/
def SumOf (a b r : Word) : Prop := IsResult (addResult a b) r

/-- r is a binary32 difference a − b. -/
def DiffOf (a b r : Word) : Prop := IsResult (subResult a b) r

/-- r is a binary32 product a · b. -/
def ProdOf (a b r : Word) : Prop := IsResult (mulResult a b) r

/-- r is fadd(fmul(a, b), fmul(c, d)): three roundings (R8). -/
def MulAdd (a b c d r : Word) : Prop := ∃ p q, ProdOf a b p ∧ ProdOf c d q ∧ SumOf p q r

/-- r is fsub(fmul(a, b), fmul(c, d)): three roundings (R8). -/
def MulSub (a b c d r : Word) : Prop := ∃ p q, ProdOf a b p ∧ ProdOf c d q ∧ DiffOf p q r

/-- r is fmul(fadd(a, b), c). -/
def SumMul (a b c r : Word) : Prop := ∃ p, SumOf a b p ∧ ProdOf p c r

/-- r is fmul(fsub(a, b), c). -/
def DiffMul (a b c r : Word) : Prop := ∃ p, DiffOf a b p ∧ ProdOf p c r

/-! ### The real number of a word, and rounding to nearest (R8) -/

/-- The real value of a finite word. -/
noncomputable def toReal (w : Word) : ℝ := (scaledValue w : ℝ) / 2 ^ 149

/-- From this absolute value on, rounding to nearest overflows to infinity: the largest finite value plus half its unit. -/
noncomputable def overflowBound : ℝ := (2 ^ 25 - 1) * 2 ^ 103

/-- `w` is `rnd32` of the real number `r` (R8): no NaN, the sign of r, infinite exactly on overflow, and otherwise a
finite word as near to r as any, even where another value is as near. -/
def IsRnd32 (r : ℝ) (w : Word) : Prop :=
  isNaN w = false ∧ (r < 0 → signBit w = true) ∧ (0 < r → signBit w = false) ∧
  (overflowBound ≤ |r| → isInf w = true) ∧
  (|r| < overflowBound → isFinite w = true ∧
    ∀ v, isFinite v = true →
      |toReal w - r| ≤ |toReal v - r| ∧ (|toReal w - r| = |toReal v - r| → toReal v ≠ toReal w → w.getLsbD 0 = false))

/-! ### The invariant -/

/-- What every step keeps: BUF's list has its canonical form, lists bytes of BUF words only and words only whole (R31,
R48), and the error record is empty exactly when no error is pending (R25, R28). -/
structure State.Inv (s : State) : Prop where
  canonical : s.buf.wf = true
  insideBuf : ∀ e ∈ s.buf, bufAddr 0 ≤ e.1 ∧ e.1 < bufAddr s.bufWords
  wholeWords : ∀ a, (s.buf.get? a).isSome = true → ∀ j, j < 4 → (s.buf.get? (a / 4 * 4 + j)).isSome = true
  recordEmpty : s.errv = false → s.errcode = .noError ∧ s.errcmd = 0#32
  recordCoded : s.errv = true → s.errcode ≠ .noError

end Sys2Proof.Machine
end

