-- ==== Sys2Proof/Certificates/Slice0/Obligations.lean ====
section
/-! DEFINITION. The statements for the provers, one definition each; OBLIGATIONS.json lists them with the rules they rest on. -/

open Sys2Proof Sys2Proof.Machine

/-! ### Encoding (R60 to R67) -/

/-- R62, R63, R66: the encoder and the decoder agree on every command whose operands fit their fields. -/
def Obligations.DecodeOfEncodeIsTheCommand : Prop :=
  ∀ i : Instr, i.wellFormed = true → decode (encode i) = .ok i

/-- R62, R66: a word has one meaning. A command the decoder reads is well formed and encodes to that very word. -/
def Obligations.DecodedWordIsItsEncoding : Prop :=
  ∀ (w : Word) (i : Instr), decode w = .ok i → i.wellFormed = true ∧ encode i = w

/-- R64: a word decodes to a command of a row exactly when `(w & mask) == match` for the row, and no word matches two
rows. -/
def Obligations.OpcodeTableDecidesDecoding : Prop :=
  (∀ (w : Word) (r : OpcodeRow), r ∈ opcodeTable →
    (r.covers w = true ↔ ∃ i, decode w = .ok i ∧ i.mnemonic = r.mnemonic)) ∧
  (∀ (w : Word) (i : Instr), decode w = .ok i → ∃ r ∈ opcodeTable, r.mnemonic = i.mnemonic) ∧
  (∀ (w : Word) (r q : OpcodeRow), r ∈ opcodeTable → q ∈ opcodeTable → r.covers w = true → q.covers w = true → r = q)

/-- R65: a word is refused as ILLEGAL_OPCODE exactly when bits 7:0 are none of the thirteen opcodes, and as
RESERVED_FIELD exactly when they are but no row of the table matches; every other word is a command. -/
def Obligations.UndecodableWordsByCause : Prop :=
  ∀ w : Word,
    (decode w = .error .illegalOpcode ↔
      fieldOp w ∉ [0x00, 0x01, 0x02, 0x10, 0x11, 0x12, 0x13, 0x14, 0x15, 0x16, 0x20, 0x21, 0x22]) ∧
    (decode w = .error .reservedField ↔
      fieldOp w ∈ [0x00, 0x01, 0x02, 0x10, 0x11, 0x12, 0x13, 0x14, 0x15, 0x16, 0x20, 0x21, 0x22] ∧
        ∀ r ∈ opcodeTable, r.covers w = false)

/-- R62, R67: words written out from the formats decode to the commands they stand for. A sanity statement. -/
def Obligations.WordsOfTheSpecDecode : Prop :=
  decode 0x0000B101#32 = .ok (.init 1 11) ∧ decode 0x01010013#32 = .ok (.bflyGen 0 1 1) ∧
  decode 0x00400020#32 = .ok (.ker32 64) ∧ decode 0x00000110#32 = .ok (.backward 1) ∧
  decode 0x00000102#32 = .ok (.clear 1) ∧ decode 0x00000000#32 = .ok .nop ∧
  decode 0x00000310#32 = .error .reservedField ∧ decode 0x00000080#32 = .error .illegalOpcode

/-! ### Steps and the host port (R14, R40 to R51) -/

/-- R66: when no error is pending and the host's next transaction writes a word that decodes to a command to CMD, the
step is that command's meaning on the state with the transaction taken off the host's list. -/
def Obligations.StepRunsDecodedCommand : Prop :=
  ∀ (s : State) (rest : List HostOp) (w : Word) (i : Instr), s.errv = false → decode w = .ok i →
    step { s with pending := .write 0x00000C#24 4 w :: rest } = exec i { s with pending := rest }

/-- R14, R156: with no transaction of the host waiting, a step holds the block's state. That such a step exists is the
model's choice (assumption 6). -/
def Obligations.StepWithoutTransactionHoldsState : Prop :=
  ∀ s : State, s.pending = [] → step s = .next s

/-- R41: an aligned 32-bit host read changes nothing and returns, by the map: the register (CMD and reserved offsets 0),
the trig-table word (0 from word 10240), the bit-reversal entry, the BUF word (0 at and above BUF_WORDS), else 0. -/
def Obligations.HostReadReturnsMappedWord : Prop :=
  ∀ (s : State) (rest : List HostOp) (a : Nat), a < 2 ^ 24 → a % 4 = 0 →
    ∃ v, step { s with pending := .read (BitVec.ofNat 24 a) 4 :: rest } =
        .next { s with pending := rest, replies := v :: s.replies } ∧
      (a = 0x000 → v = 0x4D444354#32) ∧
      (a = 0x004 → v = s.paramWord) ∧
      (a = 0x008 → v = s.statusWord) ∧
      (a = 0x00C → v = 0#32) ∧
      (a = 0x010 → v = s.baseWord) ∧
      (a = 0x014 → v = s.errcmd) ∧
      (a = 0x018 → v = slotWord s.slot0) ∧
      (a = 0x01C → v = slotWord s.slot1) ∧
      (0x020 ≤ a ∧ a < 0x010000 → v = 0#32) ∧
      (∀ k, a = 0x010000 + 4 * k → k < 10240 → v = slotTrig s.slot0 k) ∧
      (∀ k, a = 0x010000 + 4 * k → 10240 ≤ k → k < 16384 → v = 0#32) ∧
      (∀ k, a = 0x020000 + 4 * k → k < 10240 → v = slotTrig s.slot1 k) ∧
      (∀ k, a = 0x020000 + 4 * k → 10240 ≤ k → k < 16384 → v = 0#32) ∧
      (∀ k, a = 0x030000 + 4 * k → k < 2048 → v = BitVec.ofNat 32 (slotBitrev s.slot0 k)) ∧
      (∀ k, a = 0x032000 + 4 * k → k < 2048 → v = BitVec.ofNat 32 (slotBitrev s.slot1 k)) ∧
      (0x034000 ≤ a ∧ a < 0x400000 → v = 0#32) ∧
      (∀ w, a = 0x400000 + 4 * w → w < s.bufWords → v = s.bufWord w) ∧
      (∀ w, a = 0x400000 + 4 * w → s.bufWords ≤ w → w < 2 ^ 20 → v = 0#32) ∧
      (0x800000 ≤ a → v = 0#32)

/-- R42, R44, R46: an aligned host write to a BUF word stores its 32 bits there, little-endian, and nothing else. -/
def Obligations.HostWriteToBufStoresWord : Prop :=
  ∀ (s : State) (rest : List HostOp) (w : Nat) (v : Word), w < s.bufWords →
    ∃ t, step { s with pending := .write (BitVec.ofNat 24 (0x400000 + 4 * w)) 4 v :: rest } = .next t ∧
      SameButBuf { s with pending := rest } t ∧ t.nanDraws = s.nanDraws ∧
      t.bufWord w = v ∧
      (∀ j, j < 4 → t.readByte (0x400000 + 4 * w + j) = v.extractLsb' (8 * j) 8) ∧
      (∀ a, a < 0x400000 + 4 * w ∨ 0x400000 + 4 * w + 4 ≤ a → t.readByte a = s.readByte a)

/-- R22, R42, R43, R49, R50: an aligned host write to a read-only register, a table window or reserved space is
ignored. -/
def Obligations.HostWriteElsewhereIgnored : Prop :=
  ∀ (s : State) (rest : List HostOp) (a : Nat) (v : Word), a < 2 ^ 24 → a % 4 = 0 →
    a ∉ [0x008, 0x00C, 0x010] → (a < 0x400000 ∨ 0x400000 + 4 * s.bufWords ≤ a) →
    step { s with pending := .write (BitVec.ofNat 24 a) 4 v :: rest } = .next { s with pending := rest }

/-- R47, R148: a transaction whose address has a[1:0] ≠ 0, or whose width is not 32 bits, has no step. -/
def Obligations.AccessOutsideContractRefused : Prop :=
  ∀ (s : State) (rest : List HostOp) (a : BitVec 24) (bytes : Nat) (v : Word), bytes ≠ 4 ∨ a.toNat % 4 ≠ 0 →
    (∃ r, step { s with pending := .read a bytes :: rest } = .refused r) ∧
    (∃ r, step { s with pending := .write a bytes v :: rest } = .refused r)

/-- R47, R140: nothing else stops the machine: a step without a next state means the host's next transaction was outside
the contract. -/
def Obligations.StepStopsOnlyOutsideContract : Prop :=
  ∀ s : State, (∀ t, step s ≠ .next t) →
    ∃ rest a bytes, (s.pending = .read a bytes :: rest ∨ ∃ v, s.pending = .write a bytes v :: rest) ∧
      (bytes ≠ 4 ∨ a.toNat % 4 ≠ 0)

/-- R51: a host read of a BUF word returns what the host wrote there last, whatever transactions of the contract come
between the two that do not write that word: reads, writes to other locations, and commands whose window does not
hold it. -/
def Obligations.HostReadsBackWhatItWrote : Prop :=
  ∀ (s : State) (mid rest : List HostOp) (w : Nat) (v : Word), w < s.bufWords →
    Undisturbed w mid.length
      { s.setBufWord w v with pending := mid ++ .read (BitVec.ofNat 24 (0x400000 + 4 * w)) 4 :: rest } →
    ∃ t, Sys2Proof.core.run (mid.length + 2)
        { s with pending := .write (BitVec.ofNat 24 (0x400000 + 4 * w)) 4 v ::
                            (mid ++ .read (BitVec.ofNat 24 (0x400000 + 4 * w)) 4 :: rest) } = .next t ∧
      t.replies.head? = some v ∧ t.bufWord w = v ∧ t.pending = rest

/-! ### Registers (R22 to R29) -/

/-- R25: STATUS reads ERRV in bit 0, DROP in bit 1, ERRCODE in 11:8 with the numbers of R141, and 0 elsewhere; writing 1
to bit 0 clears ERRV, ERRCODE and ERRCMD, writing 1 to bit 1 clears DROP, and the other bits of the write do nothing. -/
def Obligations.StatusReadsFlagsAndClearsByOne : Prop :=
  (ErrCode.noError.toNat = 0 ∧ ErrCode.illegalOpcode.toNat = 1 ∧ ErrCode.reservedField.toNat = 2 ∧
    ErrCode.badSize.toNat = 3 ∧ ErrCode.slotInvalid.toNat = 4 ∧ ErrCode.badStage.toNat = 5 ∧ ErrCode.range.toNat = 6) ∧
  (∀ s : State, s.statusWord.getLsbD 0 = s.errv ∧ s.statusWord.getLsbD 1 = s.drop ∧
    s.statusWord.extractLsb' 8 4 = BitVec.ofNat 4 s.errcode.toNat ∧
    (∀ b, (2 ≤ b ∧ b < 8) ∨ 12 ≤ b → s.statusWord.getLsbD b = false)) ∧
  (∀ (s : State) (rest : List HostOp) (v : Word),
    step { s with pending := .write 0x000008#24 4 v :: rest } =
      .next { s with
        pending := rest
        errv := if v.getLsbD 0 then false else s.errv
        errcode := if v.getLsbD 0 then .noError else s.errcode
        errcmd := if v.getLsbD 0 then 0#32 else s.errcmd
        drop := if v.getLsbD 1 then false else s.drop })

/-- R27: BASE reads IDX in 19:0 and 0 above, and is 0 after reset; a host write takes v[19:0], whatever its value, ignores
v[31:20] and changes nothing else; no command writes it, and a step changes it only by such a write or by reset. -/
def Obligations.BaseHoldsTwentyBits : Prop :=
  State.reset.baseIdx = 0#20 ∧
  (∀ s : State, s.baseWord.extractLsb' 0 20 = s.baseIdx ∧ ∀ b, 20 ≤ b → s.baseWord.getLsbD b = false) ∧
  (∀ (s : State) (rest : List HostOp) (v : Word),
    step { s with pending := .write 0x000010#24 4 v :: rest } =
      .next { s with pending := rest, baseIdx := v.extractLsb' 0 20 }) ∧
  (∀ (i : Instr) (s t : State), exec i s = .next t → t.baseIdx = s.baseIdx) ∧
  (∀ s t : State, step s = .next t → t.baseIdx ≠ s.baseIdx →
    ∃ rest, s.pending = .reset :: rest ∨ ∃ v, s.pending = .write 0x000010#24 4 v :: rest)

/-- R23, R24, R29: ID is the constant, PARAM reports the parameters of R5, SLOT0 and SLOT1 show L and VALID, and host
writes to the four are ignored. -/
def Obligations.ReadOnlyRegistersShowTheirFields : Prop :=
  (∀ s : State, s.readReg 0x000 = 0x4D444354#32) ∧
  (∀ s : State, s.paramWord.extractLsb' 0 8 = 6#8 ∧ s.paramWord.extractLsb' 8 8 = 13#8 ∧
    s.paramWord.extractLsb' 16 4 = 2#4 ∧ s.bufWords = 2 ^ (s.paramWord.extractLsb' 20 8).toNat ∧
    s.paramWord.extractLsb' 28 4 = 1#4 ∧ (s.bufWords = 8192 → s.paramWord = 0x10D20D06#32)) ∧
  (∀ v : Slot, (slotWord v).extractLsb' 0 4 = BitVec.ofNat 4 (slotL v) ∧ (slotWord v).getLsbD 8 = slotValid v ∧
    (∀ b, (4 ≤ b ∧ b < 8) ∨ 9 ≤ b → (slotWord v).getLsbD b = false) ∧
    (slotValid v = true → 6 ≤ slotL v ∧ slotL v ≤ 13) ∧ (slotValid v = false → slotL v = 0)) ∧
  (∀ (s : State) (rest : List HostOp) (a : BitVec 24) (v : Word),
    a ∈ [0x000000#24, 0x000004#24, 0x000018#24, 0x00001C#24] →
    step { s with pending := .write a 4 v :: rest } = .next { s with pending := rest })

/-! ### Errors (R140 to R147) -/

/-- R142: an error entry sets ERRV, puts the code and the whole word into ERRCODE and ERRCMD, and changes nothing else:
a command word issued with no error pending that leaves one has had no other effect. -/
def Obligations.ErrorEntryRecordsWordAndNothingElse : Prop :=
  ∀ (s t : State) (w : Word), s.errv = false → s.issue w = .next t → t.errv = true →
    ∃ code, code ≠ .noError ∧ t = { s with errv := true, errcode := code, errcmd := w }

/-- R65, R66, R144: a word that is no command is recorded as code 1 or 2, whatever else is wrong with it, and only so. -/
def Obligations.UndecodableWordIsRecorded : Prop :=
  ∀ (s : State) (rest : List HostOp) (w : Word), s.errv = false →
    (decode w = .error .illegalOpcode →
      step { s with pending := .write 0x00000C#24 4 w :: rest } =
        .next { s with pending := rest, errv := true, errcode := .illegalOpcode, errcmd := w }) ∧
    (decode w = .error .reservedField →
      step { s with pending := .write 0x00000C#24 4 w :: rest } =
        .next { s with pending := rest, errv := true, errcode := .reservedField, errcmd := w })

/-- R146: while an error is pending a command word is not decoded and not executed; a nonzero one sets DROP, and nothing
else changes. Host writes to BASE and BUF and reads of any location do what they do without an error; a read of STATUS
shows the error. -/
def Obligations.CommandsDiscardedWhileErrorPending : Prop :=
  (∀ (s : State) (rest : List HostOp) (w : Word), s.errv = true →
    step { s with pending := .write 0x00000C#24 4 w :: rest } =
      .next { s with pending := rest, drop := if w = 0#32 then s.drop else true }) ∧
  (∀ (s t : State) (rest : List HostOp) (op : HostOp),
    ((∃ a, op = .read a 4 ∧ a ≠ 0x000008#24) ∨ (∃ v, op = .write 0x000010#24 4 v) ∨
      ∃ w v, w < 2 ^ 20 ∧ op = .write (BitVec.ofNat 24 (0x400000 + 4 * w)) 4 v) →
    step { s with errv := false, pending := op :: rest } = .next t →
    step { s with errv := true, pending := op :: rest } = .next { t with errv := true }) ∧
  (∀ (s : State) (rest : List HostOp), s.errv = true →
    step { s with pending := .read 0x000008#24 4 :: rest } =
      .next { s with pending := rest, replies := s.statusWord :: s.replies })

/-- R143, R144: the execution checks, each with its code, in their order: BAD_SIZE of INIT; SLOT_INVALID, then BAD_STAGE
of BFLY_GEN, then RANGE of the transform commands; RANGE of the kernels. When they pass, and always for NOP and CLEAR, no
error is raised; a window that ends exactly at BUF_WORDS passes. -/
def Obligations.ExecutionChecksInOrder : Prop :=
  (∀ (s : State) (k : SlotId) (l : Nat), l < 6 ∨ 13 < l →
    exec (.init k l) s = .next { s with errv := true, errcode := .badSize, errcmd := encode (.init k l) }) ∧
  (∀ (s : State) (k : SlotId) (i : Instr),
    i ∈ [.backward k, .rotIn k, .bflyFirst k, .bflyAll k, .bitrev k, .rotOut k] →
    (slotValid (s.slot k) = false →
      exec i s = .next { s with errv := true, errcode := .slotInvalid, errcmd := encode i }) ∧
    (slotValid (s.slot k) = true → s.bufWords < s.base + 2 ^ slotL (s.slot k) →
      exec i s = .next { s with errv := true, errcode := .range, errcmd := encode i })) ∧
  (∀ (s : State) (k : SlotId) (a b : Nat),
    (slotValid (s.slot k) = false → exec (.bflyGen k a b) s =
      .next { s with errv := true, errcode := .slotInvalid, errcmd := encode (.bflyGen k a b) }) ∧
    (slotValid (s.slot k) = true → slotL (s.slot k) - 5 < a ∨ 2 ^ a ≤ b → exec (.bflyGen k a b) s =
      .next { s with errv := true, errcode := .badStage, errcmd := encode (.bflyGen k a b) }) ∧
    (slotValid (s.slot k) = true → a ≤ slotL (s.slot k) - 5 → b < 2 ^ a →
      s.bufWords < s.base + 2 ^ slotL (s.slot k) → exec (.bflyGen k a b) s =
      .next { s with errv := true, errcode := .range, errcmd := encode (.bflyGen k a b) })) ∧
  (∀ (s : State) (ofs : Nat),
    (s.bufWords < s.base + ofs + 32 → exec (.ker32 ofs) s =
      .next { s with errv := true, errcode := .range, errcmd := encode (.ker32 ofs) }) ∧
    (s.bufWords < s.base + ofs + 16 → exec (.ker16 ofs) s =
      .next { s with errv := true, errcode := .range, errcmd := encode (.ker16 ofs) }) ∧
    (s.bufWords < s.base + ofs + 8 → exec (.ker8 ofs) s =
      .next { s with errv := true, errcode := .range, errcmd := encode (.ker8 ofs) })) ∧
  (∀ (s : State) (i : Instr), s.errv = false →
    ((i = .nop ∨ (∃ k, i = .clear k) ∨ (∃ k l, 6 ≤ l ∧ l ≤ 13 ∧ i = .init k l)) ∨
      (∃ k, s.transformReady k ∧
        (i ∈ [.backward k, .rotIn k, .bflyFirst k, .bflyAll k, .bitrev k, .rotOut k] ∨
          ∃ a b, s.stageReady k a b ∧ i = .bflyGen k a b)) ∨
      ∃ ofs, (s.kernelReady ofs 32 ∧ i = .ker32 ofs) ∨ (s.kernelReady ofs 16 ∧ i = .ker16 ofs) ∨
        (s.kernelReady ofs 8 ∧ i = .ker8 ofs)) →
    ∃ t, exec i s = .next t ∧ t.errv = false)

/-- R32: ERRV is set only by a command word written to CMD, and cleared only by a host write of 1 to STATUS bit 0 or by
reset; DROP likewise, by STATUS bit 1. -/
def Obligations.FlagsChangeOnlyByCommandStatusOrReset : Prop :=
  ∀ s t : State, step s = .next t →
    (s.errv = false → t.errv = true → ∃ rest w, s.pending = .write 0x00000C#24 4 w :: rest) ∧
    (s.errv = true → t.errv = false → ∃ rest, s.pending = .reset :: rest ∨
      ∃ v : Word, s.pending = .write 0x000008#24 4 v :: rest ∧ v.getLsbD 0 = true) ∧
    (s.drop = false → t.drop = true → s.errv = true ∧
      ∃ rest w, s.pending = .write 0x00000C#24 4 w :: rest ∧ w ≠ 0#32) ∧
    (s.drop = true → t.drop = false → ∃ rest, s.pending = .reset :: rest ∨
      ∃ v : Word, s.pending = .write 0x000008#24 4 v :: rest ∧ v.getLsbD 1 = true)

/-! ### Reset (R160 to R162) -/

/-- R160: the state right after reset, for every element whose value R160 gives. -/
def Obligations.ResetLeavesSpecifiedValues : Prop :=
  State.reset.errv = false ∧ State.reset.drop = false ∧ State.reset.errcode = .noError ∧
  State.reset.baseIdx = 0#20 ∧ State.reset.errcmd = 0#32 ∧
  (∀ k, slotValid (State.reset.slot k) = false ∧ slotL (State.reset.slot k) = 0) ∧
  (∀ (k : SlotId) (j : Nat), slotTrig (State.reset.slot k) j = 0#32 ∧ slotBitrev (State.reset.slot k) j = 0) ∧
  State.reset.buf = []

/-- R162: what a host reads right after reset with BUF_WORDS = 8192, by address: the two constants, the free contents
`BUF_RESET` of BUF byte by byte (assumption 3), and 0 everywhere else. -/
def Obligations.ReadsRightAfterReset : Prop :=
  ∀ (rest : List HostOp) (a : Nat), a < 2 ^ 24 → a % 4 = 0 →
    ∃ v, step { State.reset with pending := .read (BitVec.ofNat 24 a) 4 :: rest } =
        .next { State.reset with pending := rest, replies := [v] } ∧
      (a = 0x000 → v = 0x4D444354#32) ∧ (a = 0x004 → v = 0x10D20D06#32) ∧
      (0x008 ≤ a ∧ a < 0x400000 → v = 0#32) ∧
      (∀ w, a = 0x400000 + 4 * w → w < 8192 → ∀ j, j < 4 → v.extractLsb' (8 * j) 8 = Config.bufReset 0 (a + j)) ∧
      (0x408000 ≤ a → v = 0#32)

/-- R160, R161: a hardware reset in any state gives every state element of R160 its reset value, with BUF unwritten. The
parameter BUF_WORDS and the host's side of the port stay (assumptions 1, 3 and 4). -/
def Obligations.HardResetFromAnyState : Prop :=
  ∀ (s : State) (rest : List HostOp),
    ∃ t, step { s with pending := .reset :: rest } = .next t ∧
      t.errv = false ∧ t.drop = false ∧ t.errcode = .noError ∧ t.baseIdx = 0#20 ∧ t.errcmd = 0#32 ∧
      t.slot0 = none ∧ t.slot1 = none ∧ t.buf = [] ∧
      t.bufSize = s.bufSize ∧ t.pending = rest ∧ t.replies = s.replies

/-- R161: CLRERR, CLEAR 0, CLEAR 1 and SETBASE 0 reach the reset state of every element except BUF, from any state. -/
def Obligations.SoftwareReachesResetStateButBuf : Prop :=
  ∀ s : State,
    Sys2Proof.core.run 4
        { s with pending := [.write 0x000008#24 4 0x00000003#32, .write 0x00000C#24 4 (encode (.clear 0)),
                             .write 0x00000C#24 4 (encode (.clear 1)), .write 0x000010#24 4 0x00000000#32] } =
      .next { State.reset with
        buf := s.buf, bufSize := s.bufSize, bufEpoch := s.bufEpoch, nanDraws := s.nanDraws, replies := s.replies }

/-! ### Control commands and tables (R80 to R88) -/

/-- R80: NOP, the word 0, changes no state element; while an error is pending it leaves DROP unchanged as well. Any nonzero
bit in 31:8 makes the word RESERVED_FIELD. -/
def Obligations.NopChangesNothing : Prop :=
  decode 0x00000000#32 = .ok .nop ∧ (∀ w : Word, fieldOp w = 0 → w ≠ 0#32 → decode w = .error .reservedField) ∧
  (∀ s : State, exec .nop s = .next s) ∧
  (∀ (s : State) (rest : List HostOp),
    step { s with pending := .write 0x00000C#24 4 0x00000000#32 :: rest } = .next { s with pending := rest })

/-- R81: for L in 6..13 INIT makes slot S valid with that L and its tables TRIG(L) and BITREV(L), whatever the slot held,
and changes nothing else. -/
def Obligations.InitBuildsTheLookup : Prop :=
  ∀ (s : State) (k : SlotId) (l : Nat), 6 ≤ l → l ≤ 13 →
    ∃ t, exec (.init k l) s = .next t ∧
      slotValid (t.slot k) = true ∧ slotL (t.slot k) = l ∧
      (∀ j, slotTrig (t.slot k) j = trigWord l j) ∧ (∀ j, slotBitrev (t.slot k) j = bitrevEntry l j) ∧
      (∀ j, j ≠ k → t.slot j = s.slot j) ∧
      t = { s with slot0 := t.slot0, slot1 := t.slot1 }

/-- R87: CLEAR makes slot S invalid with L = 0 and both tables all zero, also when it already was, and changes nothing
else. -/
def Obligations.ClearDropsTheLookup : Prop :=
  ∀ (s : State) (k : SlotId),
    ∃ t, exec (.clear k) s = .next t ∧
      slotValid (t.slot k) = false ∧ slotL (t.slot k) = 0 ∧
      (∀ j, slotTrig (t.slot k) j = 0#32 ∧ slotBitrev (t.slot k) j = 0) ∧
      (∀ j, j ≠ k → t.slot j = s.slot j) ∧
      t = { s with slot0 := t.slot0, slot1 := t.slot1 } ∧
      (s.slot k = none → t = s)

/-- R88: a slot changes only in a step that performs INIT or CLEAR of that slot, or the reset. -/
def Obligations.TablesChangeOnlyByInitClearReset : Prop :=
  ∀ (s t : State) (k : SlotId), step s = .next t → t.slot k ≠ s.slot k →
    ∃ rest, s.pending = .reset :: rest ∨
      ∃ w, s.pending = .write 0x00000C#24 4 w :: rest ∧ s.errv = false ∧
        (decode w = .ok (.clear k) ∨ ∃ l, decode w = .ok (.init k l))

/-- R82: every word of the trig table is the binary32 value nearest to the exact real number of its formula, but for the
two words R83 names; words from n + n/4 on are zero. -/
def Obligations.TrigTableNearestToExactValues : Prop :=
  ∀ l : Nat, 6 ≤ l → l ≤ 13 →
    (∀ i : Nat, i < 2 ^ l / 4 → 2 * i ≠ 2 ^ l / 4 →
      IsRnd32 (Real.cos (4 * Real.pi * i / 2 ^ l)) (trigWord l (2 * i))) ∧
    (∀ i : Nat, i < 2 ^ l / 4 → 0 < i →
      IsRnd32 (-Real.sin (4 * Real.pi * i / 2 ^ l)) (trigWord l (2 * i + 1))) ∧
    (∀ i : Nat, i < 2 ^ l / 4 →
      IsRnd32 (Real.cos (Real.pi * (2 * i + 1) / (2 * 2 ^ l))) (trigWord l (2 ^ l / 2 + 2 * i)) ∧
      IsRnd32 (Real.sin (Real.pi * (2 * i + 1) / (2 * 2 ^ l))) (trigWord l (2 ^ l / 2 + 2 * i + 1))) ∧
    (∀ i : Nat, i < 2 ^ l / 8 →
      IsRnd32 (Real.cos (Real.pi * (4 * i + 2) / 2 ^ l) / 2) (trigWord l (2 ^ l + 2 * i)) ∧
      IsRnd32 (-Real.sin (Real.pi * (4 * i + 2) / 2 ^ l) / 2) (trigWord l (2 ^ l + 2 * i + 1))) ∧
    (∀ k : Nat, 2 ^ l + 2 ^ l / 4 ≤ k → trigWord l k = 0#32) ∧
    trigWord l 1 = 0x80000000#32 ∧ trigWord l (2 ^ l / 4) = 0x248D3132#32

/-- R84: the entries are the closed form over the bit reversal, which is given bit by bit; every entry is even and at
most n/2 − 2, every even number in 0..n/2 − 2 is exactly one entry, and entries from n/4 on are 0. -/
def Obligations.BitReversalTableIsPermutation : Prop :=
  (∀ i w b, b < w → (revBits i w).testBit b = i.testBit (w - 1 - b)) ∧ (∀ i w, revBits i w < 2 ^ w) ∧
  ∀ l, 6 ≤ l → l ≤ 13 →
    (∀ i, i < 2 ^ l / 8 → bitrevEntry l (2 * i + 1) = revBits i (l - 1) ∧
      bitrevEntry l (2 * i) + revBits i (l - 1) = 2 ^ l / 2 - 2 ∧ revBits i (l - 1) ≤ 2 ^ l / 2 - 4) ∧
    (∀ k, bitrevEntry l k % 2 = 0 ∧ bitrevEntry l k ≤ 2 ^ l / 2 - 2) ∧
    (∀ e, e % 2 = 0 → e ≤ 2 ^ l / 2 - 2 → ∃ k, k < 2 ^ l / 4 ∧ bitrevEntry l k = e) ∧
    (∀ j k, j < 2 ^ l / 4 → k < 2 ^ l / 4 → bitrevEntry l j = bitrevEntry l k → j = k) ∧
    (∀ k, 2 ^ l / 4 ≤ k → bitrevEntry l k = 0)

/-! ### Arithmetic (R8) -/

/-- R8: on finite operands fadd and fsub give the exact real sum or difference rounded once to nearest, ties to even, and
a zero of the IEEE sign where it is zero. -/
def Obligations.AdditionRoundsOnceToNearestEven : Prop :=
  ∀ (d : Nat) (a b : Word), isFinite a = true → isFinite b = true →
    (toReal a + toReal b ≠ 0 → IsRnd32 (toReal a + toReal b) (fadd d a b)) ∧
    (toReal a + toReal b = 0 → fadd d a b = if signBit a && signBit b then 0x80000000#32 else 0#32) ∧
    (toReal a - toReal b ≠ 0 → IsRnd32 (toReal a - toReal b) (fsub d a b)) ∧
    (toReal a - toReal b = 0 → fsub d a b = if signBit a && !signBit b then 0x80000000#32 else 0#32)

/-- R8: on finite operands fmul gives the exact real product rounded once to nearest, ties to even, with the sign that is
the exclusive or of the operands' signs, underflow to zero included. -/
def Obligations.MultiplicationRoundsOnceToNearestEven : Prop :=
  ∀ (d : Nat) (a b : Word), isFinite a = true → isFinite b = true →
    IsRnd32 (toReal a * toReal b) (fmul d a b) ∧ signBit (fmul d a b) = (signBit a != signBit b)

/-- R8, R145, U1: NaN operands, ∞ − ∞ and 0 · ∞ give a NaN, of whatever pattern; other infinities keep their IEEE values;
fneg inverts bit 31 and no other bit of any word. -/
def Obligations.SpecialValuesFollowIEEE : Prop :=
  (∀ (d : Nat) (a b : Word), isNaN a = true ∨ isNaN b = true →
    isNaN (fadd d a b) = true ∧ isNaN (fsub d a b) = true ∧ isNaN (fmul d a b) = true) ∧
  (∀ (d : Nat) (a b : Word), isInf a = true → isInf b = true →
    (signBit a ≠ signBit b → isNaN (fadd d a b) = true) ∧ (signBit a = signBit b → fadd d a b = a) ∧
    (signBit a = signBit b → isNaN (fsub d a b) = true) ∧ (signBit a ≠ signBit b → fsub d a b = a)) ∧
  (∀ (d : Nat) (a b : Word), isInf a = true → isFinite b = true →
    fadd d a b = a ∧ fadd d b a = a ∧ fsub d a b = a ∧ fsub d b a = fneg a ∧
    (isZero b = true → isNaN (fmul d a b) = true ∧ isNaN (fmul d b a) = true)) ∧
  (∀ (d : Nat) (a b : Word), isInf a = true → isNaN b = false → isZero b = false →
    isInf (fmul d a b) = true ∧ isInf (fmul d b a) = true ∧
    signBit (fmul d a b) = (signBit a != signBit b) ∧ signBit (fmul d b a) = (signBit a != signBit b)) ∧
  (∀ (a : Word) (b : Nat), b < 32 → (fneg a).getLsbD b = if b = 31 then !a.getLsbD b else a.getLsbD b)

/-- R8: the kernel constants are the binary32 values nearest to cos(π/8), cos(2π/8) and cos(3π/8), and HALF is 0.5. -/
def Obligations.KernelConstantsNearestToCosines : Prop :=
  IsRnd32 (Real.cos (Real.pi / 8)) C1 ∧ IsRnd32 (Real.cos (2 * Real.pi / 8)) C2 ∧
  IsRnd32 (Real.cos (3 * Real.pi / 8)) C3 ∧ toReal HALF = 1 / 2

/-! ### Transform commands (R100 to R113) -/

/-- R55, R100: when its checks pass, each transform command completes; BASE, the slots, STATUS and ERRCMD stay, and so
does every byte of BUF outside the words the command writes: the upper half of its window for ROT_IN and the butterfly
stages, the lower half for BITREV, its group of n2/2^A words for BFLY_GEN, the whole window for ROT_OUT and BACKWARD. -/
def Obligations.TransformCommandsCompleteWithinWindow : Prop :=
  ∀ (s : State) (k : SlotId), s.transformReady k →
    (∀ i ∈ [Instr.rotIn k, .bflyFirst k, .bflyAll k],
      ∃ t, exec i s = .next t ∧ SameButBuf s t ∧
        BytesSameOutside s t (s.base + 2 ^ slotL (s.slot k) / 2) (s.base + 2 ^ slotL (s.slot k))) ∧
    (∃ t, exec (.bitrev k) s = .next t ∧ SameButBuf s t ∧
      BytesSameOutside s t s.base (s.base + 2 ^ slotL (s.slot k) / 2)) ∧
    (∀ i ∈ [Instr.rotOut k, .backward k],
      ∃ t, exec i s = .next t ∧ SameButBuf s t ∧
        BytesSameOutside s t s.base (s.base + 2 ^ slotL (s.slot k))) ∧
    (∀ a b, s.stageReady k a b →
      ∃ t, exec (.bflyGen k a b) s = .next t ∧ SameButBuf s t ∧
        BytesSameOutside s t (s.base + (2 ^ slotL (s.slot k) / 2 + 2 ^ slotL (s.slot k) / 2 / 2 ^ a * b))
          (s.base + (2 ^ slotL (s.slot k) / 2 + 2 ^ slotL (s.slot k) / 2 / 2 ^ a * (b + 1))))

/-- R55: the words a BUF-using command leaves in its window depend on the words of its window alone, besides BASE, the
slot and its operands: BUF contents elsewhere, of whatever epoch, make no difference. NaN patterns agree by the model's
choice of one free pattern per operation (assumption 2). -/
def Obligations.CommandsReadOnlyTheirWindow : Prop :=
  ∀ (s s' : State), SameButBuf { s with bufEpoch := s'.bufEpoch } s' → s'.nanDraws = s.nanDraws →
    (∀ (k : SlotId) (i : Instr),
      (i ∈ [.backward k, .rotIn k, .bflyFirst k, .bflyAll k, .bitrev k, .rotOut k] ∨
        ∃ a b, s.stageReady k a b ∧ i = .bflyGen k a b) →
      s.transformReady k → (∀ j, j < s.blockSize k → s.X j = s'.X j) →
      ∃ t t', exec i s = .next t ∧ exec i s' = .next t' ∧ t.nanDraws = t'.nanDraws ∧
        ∀ j, j < s.blockSize k → t.X j = t'.X j) ∧
    (∀ (ofs size : Nat) (i : Instr), (i, size) ∈ [(.ker32 ofs, 32), (.ker16 ofs, 16), (.ker8 ofs, 8)] →
      s.kernelReady ofs size → (∀ j, j < size → s.X (ofs + j) = s'.X (ofs + j)) →
      ∃ t t', exec i s = .next t ∧ exec i s' = .next t' ∧ t.nanDraws = t'.nanDraws ∧
        ∀ j, j < size → t.X (ofs + j) = t'.X (ofs + j))

/-- R69, R145: no command branches on the contents of BUF: two states that differ in BUF alone are left alike in
everything but BUF, the count of operations performed included, and no contents raise an error. -/
def Obligations.CommandsDoNotBranchOnContent : Prop :=
  ∀ (i : Instr) (s s' : State), SameButBuf s s' → s'.nanDraws = s.nanDraws →
    ∃ t t', exec i s = .next t ∧ exec i s' = .next t' ∧ SameButBuf t t' ∧ t'.nanDraws = t.nanDraws

/-- R101: when its checks pass, BACKWARD leaves exactly the state that ROT_IN, BFLY_ALL, BITREV and ROT_OUT leave one
after another, and completes. NaN patterns agree by the model's choice of one free pattern per operation (assumption 2). -/
def Obligations.BackwardIsItsFourStages : Prop :=
  ∀ (s : State) (k : SlotId), s.transformReady k →
    ∃ t, exec (.backward k) s = .next t ∧
      runCommands [.rotIn k, .bflyAll k, .bitrev k, .rotOut k] s = .next t

/-- R102: ROT_IN's result: each word of X(n2 .. n − 1) is the rotation of two coefficients by two twiddles that its
formula gives, every operation rounded once. -/
def Obligations.RotInRotatesCoefficientPairs : Prop :=
  ∀ (s : State) (k : SlotId), s.transformReady k →
    ∃ t, exec (.rotIn k) s = .next t ∧ SameButBuf s t ∧
      BytesSameOutside s t (s.base + 2 ^ slotL (s.slot k) / 2) (s.base + 2 ^ slotL (s.slot k)) ∧
      ∀ n n2 n4 m, n = 2 ^ slotL (s.slot k) → n2 = n / 2 → n4 = n / 4 → m < n / 16 →
        (∀ i o c, i = n2 - 7 - 8 * m → o = n2 + n4 - 4 - 4 * m → c = n4 + 4 * m →
          MulSub (fneg (s.X (i + 2))) (slotTrig (s.slot k) (c + 3)) (s.X i) (slotTrig (s.slot k) (c + 2)) (t.X o) ∧
          MulSub (s.X i) (slotTrig (s.slot k) (c + 3)) (s.X (i + 2)) (slotTrig (s.slot k) (c + 2)) (t.X (o + 1)) ∧
          MulSub (fneg (s.X (i + 6))) (slotTrig (s.slot k) (c + 1)) (s.X (i + 4)) (slotTrig (s.slot k) c)
            (t.X (o + 2)) ∧
          MulSub (s.X (i + 4)) (slotTrig (s.slot k) (c + 1)) (s.X (i + 6)) (slotTrig (s.slot k) c) (t.X (o + 3))) ∧
        (∀ i o c, i = n2 - 8 - 8 * m → o = n2 + n4 + 4 * m → c = n4 - 4 - 4 * m →
          MulAdd (s.X (i + 4)) (slotTrig (s.slot k) (c + 3)) (s.X (i + 6)) (slotTrig (s.slot k) (c + 2)) (t.X o) ∧
          MulSub (s.X (i + 4)) (slotTrig (s.slot k) (c + 2)) (s.X (i + 6)) (slotTrig (s.slot k) (c + 3))
            (t.X (o + 1)) ∧
          MulAdd (s.X i) (slotTrig (s.slot k) (c + 1)) (s.X (i + 2)) (slotTrig (s.slot k) c) (t.X (o + 2)) ∧
          MulSub (s.X i) (slotTrig (s.slot k) c) (s.X (i + 2)) (slotTrig (s.slot k) (c + 1)) (t.X (o + 3)))

/-- R103, R105: BFLY_GEN's result: on its group of p = n2/2^A words from g = n2 + p·B, with twiddle stride d = 4·2^A, every
PAIR's two complex words become their sum and their difference rotated by the PAIR's twiddle. -/
def Obligations.BflyGenComputesEveryPair : Prop :=
  ∀ (s : State) (k : SlotId) (A B : Nat), s.transformReady k → s.stageReady k A B →
    ∃ t, exec (.bflyGen k A B) s = .next t ∧ SameButBuf s t ∧
      ∀ n2 p g d m u a b ta, n2 = 2 ^ slotL (s.slot k) / 2 → p = n2 / 2 ^ A → g = n2 + p * B → d = 4 * 2 ^ A →
        m < p / 16 → u < 4 → a = g + p - 8 - 8 * m + (6 - 2 * u) → b = g + p / 2 - 8 - 8 * m + (6 - 2 * u) →
        ta = 4 * d * m + u * d →
        ∃ r0 r1, DiffOf (s.X a) (s.X b) r0 ∧ DiffOf (s.X (a + 1)) (s.X (b + 1)) r1 ∧
          SumOf (s.X a) (s.X b) (t.X a) ∧ SumOf (s.X (a + 1)) (s.X (b + 1)) (t.X (a + 1)) ∧
          MulAdd r1 (slotTrig (s.slot k) (ta + 1)) r0 (slotTrig (s.slot k) ta) (t.X b) ∧
          MulSub r1 (slotTrig (s.slot k) ta) r0 (slotTrig (s.slot k) (ta + 1)) (t.X (b + 1))

/-- R104: BFLY_FIRST is the same operation as BFLY_GEN of stage 0, group 0, bit for bit, and completes. NaN patterns agree by
the model's choice of one free pattern per operation (assumption 2). -/
def Obligations.BflyFirstIsStageZero : Prop :=
  ∀ (s : State) (k : SlotId), s.transformReady k →
    ∃ t, exec (.bflyFirst k) s = .next t ∧ exec (.bflyGen k 0 0) s = .next t

/-- R106: BFLY_ALL leaves exactly the state of its schedule issued command by command: BFLY_FIRST when L ≥ 7, every
BFLY_GEN s, i, j for i in 1 .. L − 7 and j in 0 .. 2^i − 1, then KER32 at every offset n2 + 32j of the upper half. NaN
patterns agree by the model's choice of one free pattern per operation (assumption 2). -/
def Obligations.BflyAllIsItsSchedule : Prop :=
  ∀ (s : State) (k : SlotId), s.transformReady k →
    ∃ t, exec (.bflyAll k) s = .next t ∧
      runCommands
        ((if 7 ≤ slotL (s.slot k) then [.bflyFirst k] else []) ++
          (List.range (slotL (s.slot k) - 7)).flatMap
            (fun i => (List.range (2 ^ (i + 1))).map (fun j => Instr.bflyGen k (i + 1) j)) ++
          (List.range (2 ^ slotL (s.slot k) / 64)).map
            (fun j => Instr.ker32 (2 ^ slotL (s.slot k) / 2 + 32 * j))) s = .next t

/-- R107: BITREV's result: for each m the two pairs of complex words that the bit-reversal table picks from the upper
half are combined with the twiddles of region C into four words at each end of the lower half. -/
def Obligations.BitrevCombinesReorderedPairs : Prop :=
  ∀ (s : State) (k : SlotId), s.transformReady k →
    ∃ t, exec (.bitrev k) s = .next t ∧ SameButBuf s t ∧
      BytesSameOutside s t s.base (s.base + 2 ^ slotL (s.slot k) / 2) ∧
      ∀ n n2 m u i0 i1 c lo hi, n = 2 ^ slotL (s.slot k) → n2 = n / 2 → m < n / 16 → u < 2 →
        i0 = n2 + slotBitrev (s.slot k) (4 * m + 2 * u) → i1 = n2 + slotBitrev (s.slot k) (4 * m + 2 * u + 1) →
        c = n + 4 * m + 2 * u → lo = 4 * m + 2 * u → hi = n2 - 4 - 4 * m + 2 - 2 * u →
        ∃ d0 s1 r2 r3 r0 r1, DiffOf (s.X (i0 + 1)) (s.X (i1 + 1)) d0 ∧ SumOf (s.X i0) (s.X i1) s1 ∧
          MulAdd s1 (slotTrig (s.slot k) c) d0 (slotTrig (s.slot k) (c + 1)) r2 ∧
          MulSub s1 (slotTrig (s.slot k) (c + 1)) d0 (slotTrig (s.slot k) c) r3 ∧
          SumMul (s.X (i0 + 1)) (s.X (i1 + 1)) HALF r0 ∧ DiffMul (s.X i0) (s.X i1) HALF r1 ∧
          SumOf r0 r2 (t.X lo) ∧ DiffOf r0 r2 (t.X hi) ∧ SumOf r1 r3 (t.X (lo + 1)) ∧ DiffOf r3 r1 (t.X (hi + 1))

/-- R108: ROT_OUT's result. Y is the upper half as loop A leaves it, rotated by the twiddles of region B; the output is
Y's first quarter copied, then mirrored and negated, then Y's second quarter mirrored, then copied. The straight copy of the
first quarter follows R108's pseudocode against its commentary, which says reversed (DEDUCED, assumption 12). -/
def Obligations.RotOutRotatesAndUnrolls : Prop :=
  ∀ (s : State) (k : SlotId), s.transformReady k →
    ∃ t, exec (.rotOut k) s = .next t ∧ SameButBuf s t ∧
      BytesSameOutside s t s.base (s.base + 2 ^ slotL (s.slot k)) ∧
      ∀ n n2 n4, n = 2 ^ slotL (s.slot k) → n2 = n / 2 → n4 = n / 4 →
        ∃ Y : Nat → Word,
          (∀ m u, m < n / 16 → u < 4 →
            MulSub (s.X (8 * m + 2 * u)) (slotTrig (s.slot k) (n2 + 8 * m + 2 * u + 1))
              (s.X (8 * m + 2 * u + 1)) (slotTrig (s.slot k) (n2 + 8 * m + 2 * u)) (Y (n2 + n4 - 4 - 4 * m + 3 - u)) ∧
            ∃ v, MulAdd (s.X (8 * m + 2 * u)) (slotTrig (s.slot k) (n2 + 8 * m + 2 * u))
                (s.X (8 * m + 2 * u + 1)) (slotTrig (s.slot k) (n2 + 8 * m + 2 * u + 1)) v ∧
              Y (n2 + n4 + 4 * m + u) = fneg v) ∧
          ∀ j, j < n4 → t.X j = Y (n2 + j) ∧ t.X (n4 + j) = fneg (Y (n2 + n4 - 1 - j)) ∧
            t.X (n2 + n4 - 1 - j) = Y (n2 + n4 + j) ∧ t.X (n2 + n4 + j) = Y (n2 + n4 + j)

/-- R111: after BACKWARD, for every input, the first half of the output is odd about its centre and the second half even,
bit for bit. -/
def Obligations.BackwardOutputSymmetries : Prop :=
  ∀ (s : State) (k : SlotId), s.transformReady k →
    ∃ t, exec (.backward k) s = .next t ∧
      ∀ n m, n = 2 ^ slotL (s.slot k) → m < n / 4 →
        t.X (n / 4 - 1 - m) = fneg (t.X (n / 4 + m)) ∧
        t.X (n / 2 + n / 4 - 1 - m) = t.X (n / 2 + n / 4 + m)

/-- R102, R113: what stands in X(n2 .. n − 1) before BACKWARD, ROT_IN or ROT_OUT, or in X(0 .. n2 − 1) before BITREV, has no influence
on any word of the window afterwards. NaN patterns agree by the model's choice of one free
pattern per operation (assumption 2). -/
def Obligations.OverwrittenHalfHasNoInfluence : Prop :=
  ∀ (s s' : State) (k : SlotId), SameButBuf { s with bufEpoch := s'.bufEpoch } s' → s'.nanDraws = s.nanDraws →
    s.transformReady k →
    ((∀ j, j < s.blockSize k / 2 → s.X j = s'.X j) → ∀ i ∈ [Instr.backward k, .rotIn k, .rotOut k],
      ∃ t t', exec i s = .next t ∧ exec i s' = .next t' ∧ ∀ j, j < s.blockSize k → t.X j = t'.X j) ∧
    ((∀ j, s.blockSize k / 2 ≤ j → j < s.blockSize k → s.X j = s'.X j) →
      ∃ t t', exec (.bitrev k) s = .next t ∧ exec (.bitrev k) s' = .next t' ∧
        ∀ j, j < s.blockSize k → t.X j = t'.X j)

/-- R115: at L = 6, with +0.0 in X(0 .. 31), BACKWARD leaves +0.0 in X(0 .. 15) and −0.0 in X(16 .. 63), whatever the
window's upper half held. -/
def Obligations.BackwardOfZeroInput : Prop :=
  ∀ (s : State) (k : SlotId), s.transformReady k → slotL (s.slot k) = 6 → (∀ j, j < 32 → s.X j = 0#32) →
    ∃ t, exec (.backward k) s = .next t ∧
      (∀ j, j < 16 → t.X j = 0x00000000#32) ∧ (∀ j, 16 ≤ j → j < 64 → t.X j = 0x80000000#32)

/-- R112: at L = 6 a single NaN coefficient, of any pattern, makes all 64 outputs of BACKWARD NaN, whatever the other words
of the window hold, and raises no error. -/
def Obligations.NanCoefficientSpreadsToEveryOutput : Prop :=
  ∀ (s : State) (k : SlotId) (c : Nat), s.transformReady k → slotL (s.slot k) = 6 → s.errv = false → c < 32 →
    isNaN (s.X c) = true →
    ∃ t, exec (.backward k) s = .next t ∧ t.errv = false ∧ ∀ j, j < 64 → isNaN (t.X j) = true

/-- R173: the operations a stage performs, additions, subtractions and multiplications together, for L = 6 .. 13. The
count stands in the model's own field `nanDraws` (assumption 2). -/
def Obligations.OperationCountsPerStage : Prop :=
  ∀ (s : State) (k : SlotId) (p : Nat × Nat × Nat × Nat × Nat × Nat),
    p ∈ [(6, 96, 176, 128, 96, 496), (7, 192, 512, 256, 192, 1152), (8, 384, 1344, 512, 384, 2624),
         (9, 768, 3328, 1024, 768, 5888), (10, 1536, 7936, 2048, 1536, 13056), (11, 3072, 18432, 4096, 3072, 28672),
         (12, 6144, 41984, 8192, 6144, 62464), (13, 12288, 94208, 16384, 12288, 135168)] →
    s.transformReady k → slotL (s.slot k) = p.1 →
    ∀ i c, (i, c) ∈ [(Instr.rotIn k, p.2.1), (.bflyAll k, p.2.2.1), (.bitrev k, p.2.2.2.1), (.rotOut k, p.2.2.2.2.1),
        (.backward k, p.2.2.2.2.2)] →
      ∃ t, exec i s = .next t ∧ t.nanDraws = s.nanDraws + c

/-! ### Kernel commands (R120 to R126) -/

/-- R126: when its window lies inside BUF a kernel command completes at any OFS, whatever the slots hold, and only the K
words of its window change. -/
def Obligations.KernelCommandsCompleteWithinWindow : Prop :=
  ∀ (s : State) (ofs size : Nat) (i : Instr), (i, size) ∈ [(.ker32 ofs, 32), (.ker16 ofs, 16), (.ker8 ofs, 8)] →
    s.kernelReady ofs size →
    ∃ t, exec i s = .next t ∧ SameButBuf s t ∧ BytesSameOutside s t (s.base + ofs) (s.base + ofs + size)

/-- R122, R125: KER8's eight results from its eight inputs Y(i) = BUF[BASE.IDX + OFS + i]. -/
def Obligations.Ker8ComputesEightPointButterfly : Prop :=
  ∀ (s : State) (ofs : Nat), s.kernelReady ofs 8 →
    ∃ t, exec (.ker8 ofs) s = .next t ∧ SameButBuf s t ∧ BytesSameOutside s t (s.base + ofs) (s.base + ofs + 8) ∧
      ∃ s62 d62 s40 d40 d51 d73 s51 s73,
        SumOf (s.X (ofs + 6)) (s.X (ofs + 2)) s62 ∧ DiffOf (s.X (ofs + 6)) (s.X (ofs + 2)) d62 ∧
        SumOf (s.X (ofs + 4)) (s.X ofs) s40 ∧ DiffOf (s.X (ofs + 4)) (s.X ofs) d40 ∧
        DiffOf (s.X (ofs + 5)) (s.X (ofs + 1)) d51 ∧ DiffOf (s.X (ofs + 7)) (s.X (ofs + 3)) d73 ∧
        SumOf (s.X (ofs + 5)) (s.X (ofs + 1)) s51 ∧ SumOf (s.X (ofs + 7)) (s.X (ofs + 3)) s73 ∧
        SumOf s62 s40 (t.X (ofs + 6)) ∧ DiffOf s62 s40 (t.X (ofs + 4)) ∧
        SumOf d62 d51 (t.X ofs) ∧ DiffOf d62 d51 (t.X (ofs + 2)) ∧
        SumOf d73 d40 (t.X (ofs + 3)) ∧ DiffOf d73 d40 (t.X (ofs + 1)) ∧
        SumOf s73 s51 (t.X (ofs + 7)) ∧ DiffOf s73 s51 (t.X (ofs + 5))

/-- R121, R124: KER16 is its four groups, whose results u are given from the inputs, then KER8 on each half.
NaN patterns agree by the model's choice of one free pattern per operation (assumption 2). -/
def Obligations.Ker16ComputesGroupsThenKer8s : Prop :=
  ∀ (s : State) (ofs : Nat), s.kernelReady ofs 16 →
    ∃ u t, exec (.ker16 ofs) s = .next t ∧ SameButBuf s u ∧
      BytesSameOutside s u (s.base + ofs) (s.base + ofs + 16) ∧
      runCommands [.ker8 ofs, .ker8 (ofs + 8)] u = .next t ∧
      (∀ i, 8 ≤ i → i < 16 → SumOf (s.X (ofs + i)) (s.X (ofs + (i - 8))) (u.X (ofs + i))) ∧
      (∃ r0 r1, DiffOf (s.X (ofs + 1)) (s.X (ofs + 9)) r0 ∧ DiffOf (s.X ofs) (s.X (ofs + 8)) r1 ∧
        SumMul r0 r1 C2 (u.X ofs) ∧ DiffMul r0 r1 C2 (u.X (ofs + 1))) ∧
      DiffOf (s.X (ofs + 3)) (s.X (ofs + 11)) (u.X (ofs + 2)) ∧
      DiffOf (s.X (ofs + 10)) (s.X (ofs + 2)) (u.X (ofs + 3)) ∧
      (∃ r0 r1, DiffOf (s.X (ofs + 12)) (s.X (ofs + 4)) r0 ∧ DiffOf (s.X (ofs + 13)) (s.X (ofs + 5)) r1 ∧
        DiffMul r0 r1 C2 (u.X (ofs + 4)) ∧ SumMul r0 r1 C2 (u.X (ofs + 5))) ∧
      DiffOf (s.X (ofs + 14)) (s.X (ofs + 6)) (u.X (ofs + 6)) ∧
      DiffOf (s.X (ofs + 15)) (s.X (ofs + 7)) (u.X (ofs + 7))

/-- R120, R121, R123: KER32 is its eight groups, whose results u are given from the inputs, then KER16 on each
half. NaN patterns agree by the model's choice of one free pattern per operation (assumption 2). -/
def Obligations.Ker32ComputesGroupsThenKer16s : Prop :=
  ∀ (s : State) (ofs : Nat), s.kernelReady ofs 32 →
    ∃ u t, exec (.ker32 ofs) s = .next t ∧ SameButBuf s u ∧
      BytesSameOutside s u (s.base + ofs) (s.base + ofs + 32) ∧
      runCommands [.ker16 ofs, .ker16 (ofs + 16)] u = .next t ∧
      (∀ i, 16 ≤ i → i < 32 → SumOf (s.X (ofs + i)) (s.X (ofs + (i - 16))) (u.X (ofs + i))) ∧
      DiffOf (s.X (ofs + 30)) (s.X (ofs + 14)) (u.X (ofs + 14)) ∧
      DiffOf (s.X (ofs + 31)) (s.X (ofs + 15)) (u.X (ofs + 15)) ∧
      (∃ r0 r1, DiffOf (s.X (ofs + 28)) (s.X (ofs + 12)) r0 ∧ DiffOf (s.X (ofs + 29)) (s.X (ofs + 13)) r1 ∧
        MulSub r0 C1 r1 C3 (u.X (ofs + 12)) ∧ MulAdd r0 C3 r1 C1 (u.X (ofs + 13))) ∧
      (∃ r0 r1, DiffOf (s.X (ofs + 26)) (s.X (ofs + 10)) r0 ∧ DiffOf (s.X (ofs + 27)) (s.X (ofs + 11)) r1 ∧
        DiffMul r0 r1 C2 (u.X (ofs + 10)) ∧ SumMul r0 r1 C2 (u.X (ofs + 11))) ∧
      (∃ r0 r1, DiffOf (s.X (ofs + 24)) (s.X (ofs + 8)) r0 ∧ DiffOf (s.X (ofs + 25)) (s.X (ofs + 9)) r1 ∧
        MulSub r0 C3 r1 C1 (u.X (ofs + 8)) ∧ MulAdd r1 C3 r0 C1 (u.X (ofs + 9))) ∧
      DiffOf (s.X (ofs + 7)) (s.X (ofs + 23)) (u.X (ofs + 6)) ∧
      DiffOf (s.X (ofs + 22)) (s.X (ofs + 6)) (u.X (ofs + 7)) ∧
      (∃ r0 r1, DiffOf (s.X (ofs + 4)) (s.X (ofs + 20)) r0 ∧ DiffOf (s.X (ofs + 5)) (s.X (ofs + 21)) r1 ∧
        MulAdd r1 C1 r0 C3 (u.X (ofs + 4)) ∧ MulSub r1 C3 r0 C1 (u.X (ofs + 5))) ∧
      (∃ r0 r1, DiffOf (s.X (ofs + 2)) (s.X (ofs + 18)) r0 ∧ DiffOf (s.X (ofs + 3)) (s.X (ofs + 19)) r1 ∧
        SumMul r1 r0 C2 (u.X (ofs + 2)) ∧ DiffMul r1 r0 C2 (u.X (ofs + 3))) ∧
      (∃ r0 r1, DiffOf (s.X ofs) (s.X (ofs + 16)) r0 ∧ DiffOf (s.X (ofs + 1)) (s.X (ofs + 17)) r1 ∧
        MulAdd r1 C3 r0 C1 (u.X ofs) ∧ MulSub r1 C1 r0 C3 (u.X (ofs + 1)))

/-- R120, R121, R122: a kernel command on words that are all +0.0 gives words that are all +0.0. -/
def Obligations.KernelsOfZerosGiveZeros : Prop :=
  ∀ (s : State) (ofs size : Nat) (i : Instr), (i, size) ∈ [(.ker32 ofs, 32), (.ker16 ofs, 16), (.ker8 ofs, 8)] →
    s.kernelReady ofs size → (∀ j, j < size → s.X (ofs + j) = 0#32) →
    ∃ t, exec i s = .next t ∧ ∀ j, j < size → t.X (ofs + j) = 0#32

/-! ### The invariant (R25, R28, R31, R48) -/

/-- The invariant holds right after reset. -/
def Obligations.InvariantHoldsAtReset : Prop := State.reset.Inv

/-- R25, R28, R31, R48, R55: every step keeps the invariant: BUF's list stays canonical, lists only whole words of BUF, and
the error record is empty exactly when no error is pending. -/
def Obligations.EveryStepKeepsInvariant : Prop :=
  ∀ s t : State, s.Inv → step s = .next t → t.Inv
end

