-- ==== Sys2Proof/Laws/Memory.lean ====
section
/-! SUPPORT. The laws of BUF: a read after a write, at the same and at another place, for bytes and for words, and that every
write keeps the canonical form. -/

namespace Sys2Proof.Laws

open Sys2Proof.Machine

/-! ### Bytes -/

theorem get?_set (m : Memory) (a : Nat) (v : Byte) (c : Nat) :
    (m.set a v).get? c = if a = c then some v else m.get? c := by
  induction m with
  | nil => rfl
  | cons e m ih =>
    obtain ⟨b, w⟩ := e
    unfold Memory.set
    split
    · rfl
    · split
      · subst_vars
        simp only [Memory.get?]
        split <;> rfl
      · simp only [Memory.get?, ih]
        split <;> split <;> simp_all

theorem readByte_set (epoch : Nat) (m : Memory) (a : Nat) (v : Byte) (c : Nat) :
    (m.set a v).readByte epoch c = if a = c then v else m.readByte epoch c := by
  unfold Memory.readByte
  rw [get?_set]
  split <;> rfl

/-- What `Memory.wf` says of the head: every later address is greater. -/
theorem wf_cons {a : Nat} {v : Byte} {m : Memory} :
    Memory.wf ((a, v) :: m) = true ↔ (∀ e ∈ m, a < e.1) ∧ Memory.wf m = true := by
  induction m generalizing a v with
  | nil => simp [Memory.wf]
  | cons e m ih =>
    obtain ⟨b, w⟩ := e
    simp only [Memory.wf, Bool.and_eq_true, decide_eq_true_eq, List.forall_mem_cons]
    rw [ih]
    constructor
    · rintro ⟨h, h1, h2⟩
      exact ⟨⟨h, fun e he => Nat.lt_trans h (h1 e he)⟩, h1, h2⟩
    · rintro ⟨⟨h, -⟩, h1, h2⟩
      exact ⟨h, h1, h2⟩

theorem mem_set {m : Memory} {a : Nat} {v : Byte} {e : Host.Cell} (h : e ∈ m.set a v) : e = (a, v) ∨ e ∈ m := by
  induction m with
  | nil => simpa [Memory.set] using h
  | cons d m ih =>
    obtain ⟨b, w⟩ := d
    unfold Memory.set at h
    split at h
    · simpa using h
    · split at h
      · rcases List.mem_cons.1 h with h | h
        · exact .inl h
        · exact .inr (List.mem_cons_of_mem _ h)
      · rcases List.mem_cons.1 h with h | h
        · exact .inr (h ▸ List.mem_cons_self)
        · rcases ih h with h | h
          · exact .inl h
          · exact .inr (List.mem_cons_of_mem _ h)

theorem wf_set {m : Memory} (h : m.wf = true) (a : Nat) (v : Byte) : (m.set a v).wf = true := by
  induction m with
  | nil => rfl
  | cons d m ih =>
    obtain ⟨b, w⟩ := d
    obtain ⟨h1, h2⟩ := wf_cons.1 h
    unfold Memory.set
    split
    · rename_i hab
      refine wf_cons.2 ⟨?_, h⟩
      rintro e he
      rcases List.mem_cons.1 he with he | he
      · exact he ▸ hab
      · exact Nat.lt_trans hab (h1 e he)
    · split
      · subst_vars
        exact wf_cons.2 ⟨h1, h2⟩
      · refine wf_cons.2 ⟨?_, ih h2⟩
        intro e he
        rcases mem_set he with he | he
        · subst he; simp only; omega
        · exact h1 e he

/-! ### Words -/

theorem readByte_writeWordAt (epoch : Nat) (m : Memory) (a : Nat) (v : Word) (c : Nat) :
    (m.writeWordAt a v).readByte epoch c =
      if a + 3 = c then v.extractLsb' 24 8
      else if a + 2 = c then v.extractLsb' 16 8
      else if a + 1 = c then v.extractLsb' 8 8
      else if a = c then v.extractLsb' 0 8
      else m.readByte epoch c := by
  simp only [Memory.writeWordAt, readByte_set]

/-- A word is its four bytes, the most significant first (R46). -/
theorem word_of_bytes (v : Word) :
    v.extractLsb' 24 8 ++ v.extractLsb' 16 8 ++ v.extractLsb' 8 8 ++ v.extractLsb' 0 8 = v := by
  apply BitVec.eq_of_getLsbD_eq
  intro i hi
  simp only [BitVec.getLsbD_append, BitVec.getLsbD_extractLsb']
  by_cases h0 : i < 8
  · simp [h0]
  · by_cases h1 : i - 8 < 8
    · simp only [h0, h1, decide_true, decide_false, Bool.true_and, if_true, if_false]
      congr 1; omega
    · by_cases h2 : i - 8 - 8 < 8
      · simp only [h0, h1, h2, decide_true, decide_false, Bool.true_and, if_true, if_false]
        congr 1; omega
      · have h3 : i - 8 - 8 - 8 < 8 := by omega
        simp only [h0, h1, h2, h3, decide_true, decide_false, Bool.true_and, if_false]
        congr 1; omega

/-- A read of BUF after a write to BUF (R51). -/
theorem readWord_writeWord (epoch : Nat) (m : Memory) (w : Nat) (v : Word) (u : Nat) :
    (m.writeWord w v).readWord epoch u = if w = u then v else m.readWord epoch u := by
  unfold Memory.readWord Memory.writeWord Memory.readWordAt
  simp only [readByte_writeWordAt, bufAddr]
  by_cases h : w = u
  · subst h
    rw [if_pos rfl, if_pos rfl, if_neg (by omega), if_pos rfl, if_neg (by omega), if_neg (by omega), if_pos rfl,
      if_neg (by omega), if_neg (by omega), if_neg (by omega), if_pos rfl]
    exact word_of_bytes v
  · rw [if_neg h]
    repeat rw [if_neg (by omega)]

/-- A write to BUF leaves every byte outside its four alone. -/
theorem readByte_writeWord_other (epoch : Nat) (m : Memory) (w : Nat) (v : Word) {c : Nat}
    (h : c < bufAddr w ∨ bufAddr w + 4 ≤ c) : (m.writeWord w v).readByte epoch c = m.readByte epoch c := by
  unfold Memory.writeWord
  rw [readByte_writeWordAt]
  repeat rw [if_neg (by omega)]

/-- Memory after reset lists nothing, in canonical form. -/
theorem reset_wf : State.reset.buf.wf = true := rfl

theorem wf_writeWord {m : Memory} (h : m.wf = true) (w : Nat) (v : Word) : (m.writeWord w v).wf = true :=
  wf_set (wf_set (wf_set (wf_set h _ _) _ _) _ _) _ _

/-- What a word write lists: the four bytes of the word, beside what was listed. -/
theorem mem_writeWord {m : Memory} {w : Nat} {v : Word} {e : Host.Cell} (h : e ∈ m.writeWord w v) :
    (bufAddr w ≤ e.1 ∧ e.1 < bufAddr w + 4) ∨ e ∈ m := by
  unfold Memory.writeWord Memory.writeWordAt at h
  rcases mem_set h with h | h
  · left; subst h; simp only; omega
  rcases mem_set h with h | h
  · left; subst h; simp only; omega
  rcases mem_set h with h | h
  · left; subst h; simp only; omega
  rcases mem_set h with h | h
  · left; subst h; simp only; omega
  exact .inr h

/-! ### The same for the state -/

theorem bufWord_setBufWord (s : State) (w : Nat) (v : Word) (u : Nat) :
    (s.setBufWord w v).bufWord u = if w = u then v else s.bufWord u :=
  readWord_writeWord s.bufEpoch s.buf w v u

theorem readByte_setBufWord_other (s : State) (w : Nat) (v : Word) {c : Nat} (h : c < bufAddr w ∨ bufAddr w + 4 ≤ c) :
    (s.setBufWord w v).readByte c = s.readByte c :=
  readByte_writeWord_other s.bufEpoch s.buf w v h

end Sys2Proof.Laws
end

