-- ==== Sys2Proof/Laws/Datapath.lean ====
section
/-! SUPPORT. What a body of assignments can do: runs compose, only the words assigned change, the operation count advances by
the body's own count, the canonical form is kept, and a body that sets its temporaries before it reads them gives the
same result whatever they held. -/

namespace Sys2Proof.Laws

open Sys2Proof.Machine

section Runs

variable (epoch base : Nat) (T : Nat → Word)

/-! ### One assignment -/

@[simp] theorem temp_setTemp (p : Datapath) (v : Word) (k j : Temp) :
    (p.setTemp v k).temp j = if j = k then v else p.temp j := by
  cases k <;> cases j <;> rfl

@[simp] theorem setTemp_mem (p : Datapath) (v : Word) (k : Temp) : (p.setTemp v k).mem = p.mem := by cases k <;> rfl

@[simp] theorem assign_setX_X (p : Datapath) (i : Nat) (e : Rhs) (j : Nat) :
    (p.assign epoch base T (.setX i e)).X epoch base j =
      if j = i then p.value epoch base T e else p.X epoch base j := by
  unfold Datapath.X Datapath.assign
  rw [readWord_writeWord]
  by_cases h : j = i
  · rw [if_pos h, if_pos (by omega)]
  · rw [if_neg h, if_neg (by omega)]

@[simp] theorem assign_setX_temp (p : Datapath) (i : Nat) (e : Rhs) (k : Temp) :
    (p.assign epoch base T (.setX i e)).temp k = p.temp k := by cases k <;> rfl

@[simp] theorem assign_setX_draws (p : Datapath) (i : Nat) (e : Rhs) :
    (p.assign epoch base T (.setX i e)).draws = p.draws + e.ops := rfl

@[simp] theorem assign_setR_X (p : Datapath) (k : Temp) (e : Rhs) (j : Nat) :
    (p.assign epoch base T (.setR k e)).X epoch base j = p.X epoch base j := by
  unfold Datapath.X Datapath.assign; cases k <;> rfl

@[simp] theorem assign_setR_temp (p : Datapath) (k : Temp) (e : Rhs) (j : Temp) :
    (p.assign epoch base T (.setR k e)).temp j = if j = k then p.value epoch base T e else p.temp j := by
  cases k <;> cases j <;> rfl

@[simp] theorem assign_setR_draws (p : Datapath) (k : Temp) (e : Rhs) :
    (p.assign epoch base T (.setR k e)).draws = p.draws + e.ops := rfl

/-! ### Runs compose -/

@[simp] theorem run_nil (p : Datapath) : p.run epoch base T [] = p := rfl

theorem run_cons (p : Datapath) (b : Assign) (bs : List Assign) :
    p.run epoch base T (b :: bs) = (p.assign epoch base T b).run epoch base T bs := rfl

theorem run_append (p : Datapath) (b c : List Assign) :
    p.run epoch base T (b ++ c) = (p.run epoch base T b).run epoch base T c := by
  induction b generalizing p with
  | nil => rfl
  | cons a b ih => exact ih _

theorem forLoop_zero (body : Nat → List Assign) : forLoop 0 body = [] := rfl

theorem forLoop_succ (q : Nat) (body : Nat → List Assign) : forLoop (q + 1) body = forLoop q body ++ body q := by
  unfold forLoop
  rw [List.range_succ, List.flatMap_append]
  simp

theorem mem_forLoop {q : Nat} {body : Nat → List Assign} {a : Assign} :
    a ∈ forLoop q body ↔ ∃ m, m < q ∧ a ∈ body m := by
  unfold forLoop
  simp [List.mem_flatMap]

/-! ### The operation count -/

theorem bodyOps_append (b c : List Assign) : bodyOps (b ++ c) = bodyOps b + bodyOps c := by
  induction b with
  | nil => simp [bodyOps]
  | cons a b ih => cases a <;> simp [bodyOps, ih] <;> omega

theorem bodyOps_forLoop {q c : Nat} {body : Nat → List Assign} (h : ∀ m, m < q → bodyOps (body m) = c) :
    bodyOps (forLoop q body) = q * c := by
  induction q with
  | zero => simp [forLoop_zero, bodyOps]
  | succ q ih =>
    rw [forLoop_succ, bodyOps_append, ih fun m hm => h m (by omega), h q (by omega)]
    ring

theorem run_draws (p : Datapath) (b : List Assign) : (p.run epoch base T b).draws = p.draws + bodyOps b := by
  induction b generalizing p with
  | nil => rfl
  | cons a b ih =>
    rw [run_cons, ih]
    cases a <;> simp [bodyOps] <;> omega

/-! ### What a body assigns -/

/-- The assignment writes no window word outside lo .. hi − 1. -/
def writesWithin (lo hi : Nat) : Assign → Prop
  | .setX i _ => lo ≤ i ∧ i < hi
  | .setR _ _ => True

theorem writesWithin_mono {lo hi lo' hi' : Nat} (h1 : lo' ≤ lo) (h2 : hi ≤ hi') {a : Assign}
    (h : writesWithin lo hi a) : writesWithin lo' hi' a := by
  cases a with
  | setX i e => exact ⟨Nat.le_trans h1 h.1, Nat.lt_of_lt_of_le h.2 h2⟩
  | setR k e => trivial

/-- A word no assignment of the body writes keeps its value. -/
theorem run_X_of_not_written {p : Datapath} {b : List Assign} {j : Nat} (h : ∀ i e, Assign.setX i e ∈ b → i ≠ j) :
    (p.run epoch base T b).X epoch base j = p.X epoch base j := by
  induction b generalizing p with
  | nil => rfl
  | cons a b ih =>
    rw [run_cons, ih fun i e he => h i e (List.mem_cons_of_mem _ he)]
    cases a with
    | setX i e => rw [assign_setX_X, if_neg (h i e List.mem_cons_self).symm]
    | setR k e => rw [assign_setR_X]

theorem run_X_outside {p : Datapath} {b : List Assign} {lo hi j : Nat} (h : ∀ a ∈ b, writesWithin lo hi a)
    (hj : j < lo ∨ hi ≤ j) : (p.run epoch base T b).X epoch base j = p.X epoch base j :=
  run_X_of_not_written epoch base T fun i e he => by
    have := h _ he
    simp only [writesWithin] at this
    omega

/-- Every byte outside the words a body may write reads as before (R55). -/
theorem run_readByte_outside {p : Datapath} {b : List Assign} {lo hi c : Nat} (h : ∀ a ∈ b, writesWithin lo hi a)
    (hc : c < bufAddr (base + lo) ∨ bufAddr (base + hi) ≤ c) :
    (p.run epoch base T b).mem.readByte epoch c = p.mem.readByte epoch c := by
  induction b generalizing p with
  | nil => rfl
  | cons a b ih =>
    rw [run_cons, ih fun a ha => h a (List.mem_cons_of_mem _ ha)]
    have ha := h a List.mem_cons_self
    cases a with
    | setX i e =>
      apply readByte_writeWord_other
      simp only [writesWithin] at ha
      simp only [bufAddr] at hc ⊢
      omega
    | setR k e => simp only [Datapath.assign, setTemp_mem]

theorem run_wf {p : Datapath} {b : List Assign} (h : p.mem.wf = true) : (p.run epoch base T b).mem.wf = true := by
  induction b generalizing p with
  | nil => exact h
  | cons a b ih =>
    rw [run_cons]
    apply ih
    cases a with
    | setX i e => exact wf_writeWord h _ _
    | setR k e => simpa only [Datapath.assign, setTemp_mem] using h

/-- What a body lists in memory: bytes of the words it writes, beside what was listed. -/
theorem mem_run {p : Datapath} {b : List Assign} {lo hi : Nat} (h : ∀ a ∈ b, writesWithin lo hi a) {e : Host.Cell}
    (he : e ∈ (p.run epoch base T b).mem) :
    (bufAddr (base + lo) ≤ e.1 ∧ e.1 < bufAddr (base + hi)) ∨ e ∈ p.mem := by
  induction b generalizing p with
  | nil => exact .inr he
  | cons a b ih =>
    rw [run_cons] at he
    rcases ih (fun a ha => h a (List.mem_cons_of_mem _ ha)) he with h1 | h1
    · exact .inl h1
    have ha := h a List.mem_cons_self
    cases a with
    | setX i e' =>
      rcases mem_writeWord h1 with h2 | h2
      · left
        simp only [writesWithin] at ha
        simp only [bufAddr] at h2 ⊢
        omega
      · exact .inr h2
    | setR k e' => exact .inr (by simpa only [Datapath.assign, setTemp_mem] using h1)

/-! ### What a body reads -/

/-- Every window word the expression reads satisfies `S`, every temporary it reads is in `D`. -/
def readsWithin (S : Nat → Prop) (D : List Temp) : Rhs → Prop
  | .x i => S i
  | .r k => k ∈ D
  | .t _ => True
  | .c _ => True
  | .neg e => readsWithin S D e
  | .add e f => readsWithin S D e ∧ readsWithin S D f
  | .sub e f => readsWithin S D e ∧ readsWithin S D f
  | .mul e f => readsWithin S D e ∧ readsWithin S D f

/-- Every assignment reads only words of `S` or words assigned before it, and only temporaries of `D` or temporaries set
before it. -/
def bodyReadsWithin (S : Nat → Prop) (D : List Temp) : List Assign → Prop
  | [] => True
  | .setX i e :: b => readsWithin S D e ∧ bodyReadsWithin (fun j => j = i ∨ S j) D b
  | .setR k e :: b => readsWithin S D e ∧ bodyReadsWithin S (k :: D) b

/-- Two running bodies hold the same words where `S` says, the same temporaries of `D`, and the same count. -/
def Agree (epoch epoch' base base' : Nat) (S : Nat → Prop) (D : List Temp) (p p' : Datapath) : Prop :=
  (∀ i, S i → p.X epoch base i = p'.X epoch' base' i) ∧ (∀ k ∈ D, p.temp k = p'.temp k) ∧ p.draws = p'.draws

theorem eval_agree {S : Nat → Prop} {D : List Temp} {X X' : Nat → Word} {R R' : Temp → Word}
    (hX : ∀ i, S i → X i = X' i) (hR : ∀ k ∈ D, R k = R' k) {e : Rhs} (he : readsWithin S D e) (d : Nat) :
    e.eval X R T d = e.eval X' R' T d := by
  induction e generalizing d with
  | x i => exact hX i he
  | r k => exact hR k he
  | t k => rfl
  | c w => rfl
  | neg e ih => simp only [Rhs.eval, ih he]
  | add e f ihe ihf => simp only [Rhs.eval, ihe he.1, ihf he.2]
  | sub e f ihe ihf => simp only [Rhs.eval, ihe he.1, ihf he.2]
  | mul e f ihe ihf => simp only [Rhs.eval, ihe he.1, ihf he.2]

/-- Bodies that read only where two datapaths agree keep them agreeing, on every word they assign as well. -/
theorem run_agree {epoch' base' : Nat} {S : Nat → Prop} {D : List Temp} {p p' : Datapath} {b : List Assign}
    (h : Agree epoch epoch' base base' S D p p') (hb : bodyReadsWithin S D b) :
    Agree epoch epoch' base base' (fun j => S j ∨ ∃ e, Assign.setX j e ∈ b) D (p.run epoch base T b)
      (p'.run epoch' base' T b) := by
  induction b generalizing p p' S D with
  | nil => exact ⟨fun i hi => h.1 i (hi.resolve_right (by simp)), h.2⟩
  | cons a b ih =>
    obtain ⟨hX, hR, hd⟩ := h
    cases a with
    | setX i e =>
      have hv : p.value epoch base T e = p'.value epoch' base' T e := by
        unfold Datapath.value
        rw [hd]
        exact eval_agree T hX hR hb.1 _
      have := ih (S := fun j => j = i ∨ S j) (D := D) (p := p.assign epoch base T (.setX i e))
        (p' := p'.assign epoch' base' T (.setX i e)) ⟨?_, ?_, ?_⟩ hb.2
      · obtain ⟨h1, h2, h3⟩ := this
        refine ⟨fun j hj => h1 j ?_, h2, h3⟩
        rcases hj with hj | ⟨f, hf⟩
        · exact .inl (.inr hj)
        · rcases List.mem_cons.1 hf with hf | hf
          · injection hf with hf _
            exact .inl (.inl hf)
          · exact .inr ⟨f, hf⟩
      · intro j hj
        rw [assign_setX_X, assign_setX_X]
        split
        · exact hv
        · exact hX j (hj.resolve_left ‹_›)
      · intro k hk
        rw [assign_setX_temp, assign_setX_temp]
        exact hR k hk
      · simp [hd]
    | setR k e =>
      have hv : p.value epoch base T e = p'.value epoch' base' T e := by
        unfold Datapath.value
        rw [hd]
        exact eval_agree T hX hR hb.1 _
      have := ih (S := S) (D := k :: D) (p := p.assign epoch base T (.setR k e))
        (p' := p'.assign epoch' base' T (.setR k e)) ⟨?_, ?_, ?_⟩ hb.2
      · obtain ⟨h1, h2, h3⟩ := this
        refine ⟨fun j hj => h1 j ?_, fun j hj => h2 j (List.mem_cons_of_mem _ hj), h3⟩
        rcases hj with hj | ⟨f, hf⟩
        · exact .inl hj
        · rcases List.mem_cons.1 hf with hf | hf
          · cases hf
          · exact .inr ⟨f, hf⟩
      · intro j hj
        rw [assign_setR_X, assign_setR_X]
        exact hX j hj
      · intro j hj
        rw [assign_setR_temp, assign_setR_temp]
        split
        · exact hv
        · exact hR j ((List.mem_cons.1 hj).resolve_left ‹_›)
      · simp [hd]

/-- A body that sets its temporaries before it reads them leaves the same memory and count whatever they held before:
nothing passes from one command to the next (R20). -/
theorem run_forgets_temps {p p' : Datapath} {D : List Temp} {S : Nat → Prop} {b : List Assign} (hm : p.mem = p'.mem)
    (hd : p.draws = p'.draws) (hR : ∀ k ∈ D, p.temp k = p'.temp k) (hb : bodyReadsWithin S D b) :
    (p.run epoch base T b).mem = (p'.run epoch base T b).mem ∧
      (p.run epoch base T b).draws = (p'.run epoch base T b).draws := by
  have hX : p.X epoch base = p'.X epoch base := by funext i; simp only [Datapath.X, hm]
  induction b generalizing p p' S D with
  | nil => exact ⟨hm, hd⟩
  | cons a b ih =>
    have hv : ∀ e, readsWithin S D e → p.value epoch base T e = p'.value epoch base T e := fun e he => by
      unfold Datapath.value
      rw [hd]
      exact eval_agree T (fun i _ => congrFun hX i) hR he _
    cases a with
    | setX i e =>
      have hm' : (p.assign epoch base T (.setX i e)).mem = (p'.assign epoch base T (.setX i e)).mem := by
        simp only [Datapath.assign, hm, hv e hb.1]
      exact ih hm' (by simp [hd]) (by simpa using hR) hb.2 (by funext j; simp only [Datapath.X, hm'])
    | setR k e =>
      have hm' : (p.assign epoch base T (.setR k e)).mem = (p'.assign epoch base T (.setR k e)).mem := by
        simp only [Datapath.assign, setTemp_mem, hm]
      refine ih hm' (by simp [hd]) ?_ hb.2 (by funext j; simp only [Datapath.X, hm'])
      intro j hj
      rw [assign_setR_temp, assign_setR_temp]
      split
      · exact hv e hb.1
      · exact hR j ((List.mem_cons.1 hj).resolve_left ‹_›)

theorem bodyReadsWithin_mono {S S' : Nat → Prop} {D D' : List Temp} {b : List Assign} (hS : ∀ i, S i → S' i)
    (hD : ∀ k ∈ D, k ∈ D') (h : bodyReadsWithin S D b) : bodyReadsWithin S' D' b := by
  have hr : ∀ {S S' : Nat → Prop} {D D' : List Temp}, (∀ i, S i → S' i) → (∀ k ∈ D, k ∈ D') → ∀ e,
      readsWithin S D e → readsWithin S' D' e := fun hS hD e he => by
    induction e with
    | x i => exact hS i he
    | r k => exact hD k he
    | t k => trivial
    | c w => trivial
    | neg e ih => exact ih he
    | add e f ihe ihf => exact ⟨ihe he.1, ihf he.2⟩
    | sub e f ihe ihf => exact ⟨ihe he.1, ihf he.2⟩
    | mul e f ihe ihf => exact ⟨ihe he.1, ihf he.2⟩
  induction b generalizing S S' D D' with
  | nil => trivial
  | cons a b ih =>
    cases a with
    | setX i e => exact ⟨hr hS hD e h.1, ih (fun j hj => hj.imp id (hS j)) hD h.2⟩
    | setR k e =>
      refine ⟨hr hS hD e h.1, ih hS (fun j hj => ?_) h.2⟩
      rcases List.mem_cons.1 hj with hj | hj
      · exact hj ▸ List.mem_cons_self
      · exact List.mem_cons_of_mem _ (hD j hj)

/-- Two bodies in a row: the second may also read what the first assigned. -/
theorem bodyReadsWithin_append {S : Nat → Prop} {D : List Temp} {b c : List Assign} (hb : bodyReadsWithin S D b)
    (hc : bodyReadsWithin (fun j => S j ∨ ∃ e, Assign.setX j e ∈ b) D c) : bodyReadsWithin S D (b ++ c) := by
  induction b generalizing S D with
  | nil => exact bodyReadsWithin_mono (fun i hi => hi.resolve_right (by simp)) (fun _ h => h) hc
  | cons a b ih =>
    cases a with
    | setX i e =>
      refine ⟨hb.1, ih hb.2 (bodyReadsWithin_mono (fun j hj => ?_) (fun _ h => h) hc)⟩
      rcases hj with hj | ⟨f, hf⟩
      · exact .inl (.inr hj)
      · rcases List.mem_cons.1 hf with hf | hf
        · injection hf with hf _
          exact .inl (.inl hf)
        · exact .inr ⟨f, hf⟩
    | setR k e =>
      refine ⟨hb.1, ih hb.2 (bodyReadsWithin_mono (fun j hj => ?_) (fun _ h => List.mem_cons_of_mem _ h) hc)⟩
      rcases hj with hj | ⟨f, hf⟩
      · exact .inl hj
      · rcases List.mem_cons.1 hf with hf | hf
        · cases hf
        · exact .inr ⟨f, hf⟩

theorem bodyReadsWithin_forLoop {S : Nat → Prop} {D : List Temp} {q : Nat} {body : Nat → List Assign}
    (h : ∀ m, m < q → bodyReadsWithin S D (body m)) : bodyReadsWithin S D (forLoop q body) := by
  induction q with
  | zero => trivial
  | succ q ih =>
    rw [forLoop_succ]
    exact bodyReadsWithin_append (ih fun m hm => h m (by omega))
      (bodyReadsWithin_mono (fun _ hi => .inl hi) (fun _ h => h) (h q (by omega)))

end Runs

end Sys2Proof.Laws
end

