-- ==== Sys2Proof/Laws/Bodies.lean ====
section
/-! SUPPORT. Which window words each command's body writes and which it reads (R102 to R108, R123 to R126). -/

namespace Sys2Proof.Laws

open Sys2Proof.Machine

/-- A legal block size is a multiple of 64 (R5). -/
theorem blockSize_eq {l : Nat} (h : 6 ≤ l) : ∃ c, 1 ≤ c ∧ 2 ^ l = 64 * c := by
  refine ⟨2 ^ (l - 6), Nat.one_le_two_pow, ?_⟩
  have : l = 6 + (l - 6) := by omega
  conv_lhs => rw [this, pow_add]
  norm_num

/-! ### Kernels -/

theorem k8Body_writes (o : Nat) : ∀ a ∈ k8Body o, writesWithin o (o + 8) a := by
  simp only [k8Body, List.forall_mem_cons, writesWithin]
  simp

theorem k16Head_writes (o : Nat) : ∀ a ∈ k16Head o, writesWithin o (o + 16) a := by
  simp only [k16Head, List.forall_mem_cons, writesWithin]
  simp

theorem k16Body_writes (o : Nat) : ∀ a ∈ k16Body o, writesWithin o (o + 16) a := by
  simp only [k16Body, List.forall_mem_append]
  exact ⟨⟨k16Head_writes o, fun a ha => writesWithin_mono (by omega) (by omega) (k8Body_writes o a ha)⟩,
    fun a ha => writesWithin_mono (by omega) (by omega) (k8Body_writes (o + 8) a ha)⟩

theorem k32Head_writes (o : Nat) : ∀ a ∈ k32Head o, writesWithin o (o + 32) a := by
  simp only [k32Head, List.forall_mem_cons, writesWithin]
  simp

theorem k32Body_writes (o : Nat) : ∀ a ∈ k32Body o, writesWithin o (o + 32) a := by
  simp only [k32Body, List.forall_mem_append]
  exact ⟨⟨k32Head_writes o, fun a ha => writesWithin_mono (by omega) (by omega) (k16Body_writes o a ha)⟩,
    fun a ha => writesWithin_mono (by omega) (by omega) (k16Body_writes (o + 16) a ha)⟩

/-! ### Stages -/

theorem rotInBody_writes {l : Nat} (h : 6 ≤ l) : ∀ a ∈ rotInBody l, writesWithin (2 ^ l / 2) (2 ^ l) a := by
  obtain ⟨c, hc, hn⟩ := blockSize_eq h
  simp only [rotInBody, List.forall_mem_append, mem_forLoop, hn]
  constructor
  · rintro a ⟨m, hm, ha⟩
    revert a
    simp only [rotInA, List.forall_mem_cons, writesWithin]
    simp
    omega
  · rintro a ⟨m, hm, ha⟩
    revert a
    simp only [rotInB, List.forall_mem_cons, writesWithin]
    simp
    omega

theorem groupBody_writes {g p d : Nat} (h : 16 ∣ p) : ∀ a ∈ groupBody g p d, writesWithin g (g + p) a := by
  obtain ⟨c, rfl⟩ := h
  simp only [groupBody, mem_forLoop]
  rintro a ⟨m, hm, ha⟩
  revert a
  simp only [groupStep, pairBody, List.forall_mem_append, List.forall_mem_cons, writesWithin]
  simp
  omega

theorem bflyFirstBody_writes {l : Nat} (h : 6 ≤ l) : ∀ a ∈ bflyFirstBody l, writesWithin (2 ^ l / 2) (2 ^ l) a := by
  obtain ⟨c, hc, hn⟩ := blockSize_eq h
  intro a ha
  exact writesWithin_mono (by omega) (by omega) (groupBody_writes (by omega) a ha)

/-- The groups of stage a (R105): 2^a groups of p words, p a multiple of 16, fill the upper half. -/
theorem groupSize_eq {l a : Nat} (h : 6 ≤ l) (ha : a ≤ l - 5) :
    ∃ p, 2 ^ l / 2 / 2 ^ a = 16 * p ∧ 16 * p * 2 ^ a = 2 ^ l / 2 := by
  refine ⟨2 ^ (l - 5 - a), ?_, ?_⟩
  · have : l = 1 + (a + (4 + (l - 5 - a))) := by omega
    conv_lhs => rw [this, pow_add, pow_add, pow_add, pow_one]
    rw [Nat.mul_div_right _ (by norm_num), Nat.mul_div_right _ (by positivity)]
    norm_num
  · have : l = 1 + (4 + (l - 5 - a) + a) := by omega
    conv_rhs => rw [this, pow_add, pow_add, pow_add, pow_one]
    rw [Nat.mul_div_right _ (by norm_num)]
    norm_num

theorem bflyGenBody_writes {l a b : Nat} (h : 6 ≤ l) (ha : a ≤ l - 5) :
    ∀ x ∈ bflyGenBody a b l,
      writesWithin (2 ^ l / 2 + 2 ^ l / 2 / 2 ^ a * b) (2 ^ l / 2 + 2 ^ l / 2 / 2 ^ a * (b + 1)) x := by
  obtain ⟨p, hp, hq⟩ := groupSize_eq h ha
  intro x hx
  refine writesWithin_mono (Nat.le_refl _) ?_ (groupBody_writes ?_ x hx)
  · rw [Nat.mul_succ]; omega
  · rw [hp]; exact Nat.dvd_mul_right _ _

theorem bflyGenBody_writes_upper {l a b : Nat} (h : 6 ≤ l) (ha : a ≤ l - 5) (hb : b < 2 ^ a) :
    ∀ x ∈ bflyGenBody a b l, writesWithin (2 ^ l / 2) (2 ^ l) x := by
  obtain ⟨p, hp, hq⟩ := groupSize_eq h ha
  obtain ⟨c, hc, hn⟩ := blockSize_eq h
  intro x hx
  refine writesWithin_mono (Nat.le_add_right _ _) ?_ (bflyGenBody_writes h ha x hx)
  rw [hp]
  have : 16 * p * (b + 1) ≤ 16 * p * 2 ^ a := Nat.mul_le_mul_left _ hb
  omega

theorem bflyAllBody_writes {l : Nat} (h : 6 ≤ l) : ∀ a ∈ bflyAllBody l, writesWithin (2 ^ l / 2) (2 ^ l) a := by
  obtain ⟨c, hc, hn⟩ := blockSize_eq h
  simp only [bflyAllBody, List.forall_mem_append, mem_forLoop]
  refine ⟨⟨?_, ?_⟩, ?_⟩
  · split
    · exact bflyFirstBody_writes h
    · simp
  · rintro a ⟨i, hi, ha⟩
    simp only [genericStage, mem_forLoop] at ha
    obtain ⟨j, hj, ha⟩ := ha
    exact bflyGenBody_writes_upper h (by omega) hj a ha
  · rintro a ⟨j, hj, ha⟩
    exact writesWithin_mono (by omega) (by omega) (k32Body_writes _ a ha)

theorem bitrevBody_writes {l : Nat} (h : 6 ≤ l) : ∀ a ∈ bitrevBody l, writesWithin 0 (2 ^ l / 2) a := by
  obtain ⟨c, hc, hn⟩ := blockSize_eq h
  simp only [bitrevBody, mem_forLoop]
  rintro a ⟨m, hm, ha⟩
  revert a
  simp only [bitrevStep, bitrevPair, List.forall_mem_append, List.forall_mem_cons, writesWithin]
  simp
  omega

theorem rotOutBody_writes {l : Nat} (h : 6 ≤ l) : ∀ a ∈ rotOutBody l, writesWithin 0 (2 ^ l) a := by
  obtain ⟨c, hc, hn⟩ := blockSize_eq h
  simp only [rotOutBody, List.forall_mem_append, mem_forLoop, hn]
  refine ⟨⟨?_, ?_⟩, ?_⟩
  · rintro a ⟨m, hm, ha⟩
    revert a
    simp only [rotOutA, List.forall_mem_cons, writesWithin]
    simp
    omega
  · rintro a ⟨m, hm, ha⟩
    revert a
    simp only [rotOutB, List.forall_mem_cons, writesWithin]
    simp
    omega
  · rintro a ⟨m, hm, ha⟩
    revert a
    simp only [rotOutC, List.forall_mem_cons, writesWithin]
    simp
    omega

theorem backwardBody_writes {l : Nat} (h : 6 ≤ l) : ∀ a ∈ backwardBody l, writesWithin 0 (2 ^ l) a := by
  have hl : 2 ^ l / 2 ≤ 2 ^ l := Nat.div_le_self _ _
  simp only [backwardBody, List.forall_mem_append]
  exact ⟨⟨⟨fun a ha => writesWithin_mono (Nat.zero_le _) (Nat.le_refl _) (rotInBody_writes h a ha),
    fun a ha => writesWithin_mono (Nat.zero_le _) (Nat.le_refl _) (bflyAllBody_writes h a ha)⟩,
    fun a ha => writesWithin_mono (Nat.zero_le _) hl (bitrevBody_writes h a ha)⟩, rotOutBody_writes h⟩

/-! ### Reads -/

theorem k8Body_reads (o : Nat) : bodyReadsWithin (fun j => o ≤ j ∧ j < o + 8) [] (k8Body o) := by
  simp [k8Body, bodyReadsWithin, readsWithin]

theorem k16Body_reads (o : Nat) : bodyReadsWithin (fun j => o ≤ j ∧ j < o + 16) [] (k16Body o) := by
  have hh : bodyReadsWithin (fun j => o ≤ j ∧ j < o + 16) [] (k16Head o) := by
    simp [k16Head, bodyReadsWithin, readsWithin]
  have h1 := k8Body_reads o
  have h2 := k8Body_reads (o + 8)
  refine bodyReadsWithin_append (bodyReadsWithin_append hh (bodyReadsWithin_mono (fun j hj => ?_) (fun _ h => h) h1))
    (bodyReadsWithin_mono (fun j hj => ?_) (fun _ h => h) h2)
  · left; omega
  · left; omega

theorem k32Body_reads (o : Nat) : bodyReadsWithin (fun j => o ≤ j ∧ j < o + 32) [] (k32Body o) := by
  have hh : bodyReadsWithin (fun j => o ≤ j ∧ j < o + 32) [] (k32Head o) := by
    simp [k32Head, bodyReadsWithin, readsWithin]
  have h1 := k16Body_reads o
  have h2 := k16Body_reads (o + 16)
  refine bodyReadsWithin_append (bodyReadsWithin_append hh (bodyReadsWithin_mono (fun j hj => ?_) (fun _ h => h) h1))
    (bodyReadsWithin_mono (fun j hj => ?_) (fun _ h => h) h2)
  · left; omega
  · left; omega

/-- ROT_IN reads the lower half only (R102, R113). -/
theorem rotInBody_reads {l : Nat} (h : 6 ≤ l) : bodyReadsWithin (fun j => j < 2 ^ l / 2) [] (rotInBody l) := by
  obtain ⟨c, hc, hn⟩ := blockSize_eq h
  simp only [rotInBody, hn]
  refine bodyReadsWithin_append (bodyReadsWithin_forLoop fun m hm => ?_) (bodyReadsWithin_forLoop fun m hm => ?_)
  · simp only [rotInA, bodyReadsWithin, readsWithin]
    refine ⟨?_, ?_, ?_, ?_, trivial⟩ <;> simp only [and_true] <;> omega
  · simp only [rotInB, bodyReadsWithin, readsWithin]
    refine ⟨?_, ?_, ?_, ?_, trivial⟩ <;> simp only [and_true] <;> omega

theorem pairBody_reads {S : Nat → Prop} {a b ta tb : Nat} (ha : S a) (ha' : S (a + 1)) (hb : S b) (hb' : S (b + 1)) :
    bodyReadsWithin S [] (pairBody a b ta tb) := by
  simp [pairBody, bodyReadsWithin, readsWithin, ha, ha', hb, hb']

/-- A GROUP reads its own p words only (R103). -/
theorem groupBody_reads {g p d : Nat} (h : 16 ∣ p) :
    bodyReadsWithin (fun j => g ≤ j ∧ j < g + p) [] (groupBody g p d) := by
  obtain ⟨c, rfl⟩ := h
  refine bodyReadsWithin_forLoop fun m hm => ?_
  simp only [groupStep]
  refine bodyReadsWithin_append (bodyReadsWithin_append (bodyReadsWithin_append ?_ ?_) ?_) ?_
  · apply pairBody_reads <;> omega
  · apply pairBody_reads <;> left <;> omega
  · apply pairBody_reads <;> left <;> omega
  · apply pairBody_reads <;> left <;> omega

theorem bflyGenBody_reads {l a b : Nat} (h : 6 ≤ l) (ha : a ≤ l - 5) (hb : b < 2 ^ a) :
    bodyReadsWithin (fun j => 2 ^ l / 2 ≤ j ∧ j < 2 ^ l) [] (bflyGenBody a b l) := by
  obtain ⟨p, hp, hq⟩ := groupSize_eq h ha
  obtain ⟨c, hc, hn⟩ := blockSize_eq h
  refine bodyReadsWithin_mono (fun j hj => ?_) (fun _ h => h) (groupBody_reads (d := 4 * 2 ^ a) ?_)
  · rw [hp] at hj
    have h1 : 16 * p * (b + 1) ≤ 16 * p * 2 ^ a := Nat.mul_le_mul_left _ hb
    rw [Nat.mul_succ] at h1
    have h2 : 2 ^ l / 2 ≤ 2 ^ l / 2 + 16 * p * b := Nat.le_add_right _ _
    omega
  · rw [hp]; exact Nat.dvd_mul_right _ _

/-- The butterfly stages read the upper half only (R106). -/
theorem bflyAllBody_reads {l : Nat} (h : 6 ≤ l) :
    bodyReadsWithin (fun j => 2 ^ l / 2 ≤ j ∧ j < 2 ^ l) [] (bflyAllBody l) := by
  obtain ⟨c, hc, hn⟩ := blockSize_eq h
  simp only [bflyAllBody]
  refine bodyReadsWithin_append (bodyReadsWithin_append ?_ (bodyReadsWithin_forLoop fun i hi => ?_))
    (bodyReadsWithin_forLoop fun j hj => ?_)
  · split
    · refine bodyReadsWithin_mono (fun j hj => ?_) (fun _ h => h) (groupBody_reads (by omega))
      omega
    · trivial
  · refine bodyReadsWithin_mono (fun j hj => .inl hj) (fun _ h => h) (bodyReadsWithin_forLoop fun j hj => ?_)
    exact bflyGenBody_reads h (by omega) hj
  · refine bodyReadsWithin_mono (fun i hi => .inl ?_) (fun _ h => h) (k32Body_reads _)
    omega

theorem revBits_lt (w : Nat) : ∀ i, revBits i w < 2 ^ w := by
  induction w with
  | zero => intro i; simp [revBits]
  | succ w ih =>
    intro i
    have := ih (i / 2)
    simp only [revBits, pow_succ]
    rcases Nat.mod_two_eq_zero_or_one i with h | h <;> rw [h] <;> omega

/-- The high bits of an index below 2^(w−2) are zero, so its reversal is a multiple of 4 (R84). -/
theorem four_dvd_revBits {w i : Nat} (hi : i < 2 ^ w) : 4 ∣ revBits i (w + 2) := by
  induction w generalizing i with
  | zero =>
    obtain rfl : i = 0 := by simpa using hi
    simp [revBits]
  | succ w ih =>
    have h2 := ih (i := i / 2) (by rw [pow_succ] at hi; omega)
    have h3 : revBits i (w + 1 + 2) = i % 2 * (2 ^ w * 4) + revBits (i / 2) (w + 2) := by
      rw [show 2 ^ w * 4 = 2 ^ (w + 2) by rw [pow_add]; norm_num]; rfl
    rw [h3]
    exact Nat.dvd_add (Dvd.dvd.mul_left (Dvd.intro_left _ rfl) _) h2

/-- Every entry of the bit-reversal table is even and at most n/2 − 2 (R84). -/
theorem bitrevEntry_bound {l : Nat} (h : 6 ≤ l) (k : Nat) : bitrevEntry l k ≤ 2 ^ l / 2 - 2 ∧ 2 ∣ bitrevEntry l k := by
  obtain ⟨c, hc, hn⟩ := blockSize_eq h
  unfold bitrevEntry
  split
  · rename_i hk
    have h3 : 2 ^ l = 8 * 2 ^ (l - 3) := by
      conv_lhs => rw [show l = 3 + (l - 3) by omega, pow_add]
      norm_num
    have h4 : 4 ∣ revBits (k / 2) (l - 1) := by
      rw [show l - 1 = (l - 3) + 2 by omega]
      exact four_dvd_revBits (by omega)
    have h5 : revBits (k / 2) (l - 1) < 2 ^ (l - 1) := revBits_lt _ _
    have h6 : 2 ^ l = 2 * 2 ^ (l - 1) := by
      conv_lhs => rw [show l = 1 + (l - 1) by omega, pow_add]
      norm_num
    split <;> omega
  · omega

theorem bitrevPair_reads {S : Nat → Prop} {i0 i1 k lo hi : Nat} (h0 : S i0) (h0' : S (i0 + 1)) (h1 : S i1)
    (h1' : S (i1 + 1)) : bodyReadsWithin S [] (bitrevPair i0 i1 k lo hi) := by
  simp [bitrevPair, bodyReadsWithin, readsWithin, h0, h0', h1, h1']

/-- BITREV reads the upper half only (R107). -/
theorem bitrevBody_reads {l : Nat} (h : 6 ≤ l) :
    bodyReadsWithin (fun j => 2 ^ l / 2 ≤ j ∧ j < 2 ^ l) [] (bitrevBody l) := by
  obtain ⟨c, hc, hn⟩ := blockSize_eq h
  refine bodyReadsWithin_forLoop fun m hm => ?_
  have hb := fun k => (bitrevEntry_bound h k).1
  simp only [bitrevStep]
  have h0 := hb (4 * m)
  have h1 := hb (4 * m + 1)
  have h2 := hb (4 * m + 2)
  have h3 := hb (4 * m + 3)
  refine bodyReadsWithin_append ?_ ?_
  · apply bitrevPair_reads <;> omega
  · apply bitrevPair_reads <;> left <;> omega

/-- Loop A of ROT_OUT writes every word of the upper half (R108). -/
theorem rotOutA_covers {c j : Nat} (h : 32 * c ≤ j ∧ j < 64 * c) :
    ∃ e, Assign.setX j e ∈ forLoop (4 * c) (rotOutA (32 * c) (16 * c)) := by
  simp only [mem_forLoop]
  by_cases hj : j < 48 * c
  · have hm : (48 * c - 1 - j) / 4 < 4 * c := by omega
    have h4 : (j - 32 * c) % 4 < 4 := Nat.mod_lt _ (by norm_num)
    generalize hmm : (48 * c - 1 - j) / 4 = m at hm
    have : j = 32 * c + 16 * c - 4 - 4 * m + 0 ∨ j = 32 * c + 16 * c - 4 - 4 * m + 1 ∨
        j = 32 * c + 16 * c - 4 - 4 * m + 2 ∨ j = 32 * c + 16 * c - 4 - 4 * m + 3 := by omega
    suffices he : ∃ e, Assign.setX j e ∈ rotOutA (32 * c) (16 * c) m from he.elim fun e he => ⟨e, m, hm, he⟩
    rcases this with h | h | h | h <;> rw [h]
    · exact ⟨_, .tail _ (.tail _ (.tail _ (.tail _ (.tail _ (.tail _ (.head _))))))⟩
    · exact ⟨_, .tail _ (.tail _ (.tail _ (.tail _ (.head _))))⟩
    · exact ⟨_, .tail _ (.tail _ (.head _))⟩
    · exact ⟨_, .head _⟩
  · have hm : (j - 48 * c) / 4 < 4 * c := by omega
    generalize hmm : (j - 48 * c) / 4 = m at hm
    have : j = 32 * c + 16 * c + 4 * m + 0 ∨ j = 32 * c + 16 * c + 4 * m + 1 ∨
        j = 32 * c + 16 * c + 4 * m + 2 ∨ j = 32 * c + 16 * c + 4 * m + 3 := by omega
    suffices he : ∃ e, Assign.setX j e ∈ rotOutA (32 * c) (16 * c) m from he.elim fun e he => ⟨e, m, hm, he⟩
    rcases this with h | h | h | h <;> rw [h]
    · exact ⟨_, .tail _ (.head _)⟩
    · exact ⟨_, .tail _ (.tail _ (.tail _ (.head _)))⟩
    · exact ⟨_, .tail _ (.tail _ (.tail _ (.tail _ (.tail _ (.head _)))))⟩
    · exact ⟨_, .tail _ (.tail _ (.tail _ (.tail _ (.tail _ (.tail _ (.tail _ (.head _)))))))⟩

/-- ROT_OUT reads the lower half, and the upper half only after it has written it (R108, R113). -/
theorem rotOutBody_reads {l : Nat} (h : 6 ≤ l) : bodyReadsWithin (fun j => j < 2 ^ l / 2) [] (rotOutBody l) := by
  obtain ⟨c, hc, hn⟩ := blockSize_eq h
  have hA : ∀ j, 32 * c ≤ j ∧ j < 64 * c → ∃ e, Assign.setX j e ∈ forLoop (4 * c) (rotOutA (32 * c) (16 * c)) :=
    fun j hj => rotOutA_covers hj
  simp only [rotOutBody, hn]
  rw [show 64 * c / 16 = 4 * c by omega, show 64 * c / 2 = 32 * c by omega, show 64 * c / 4 = 16 * c by omega]
  refine bodyReadsWithin_append (bodyReadsWithin_append (bodyReadsWithin_forLoop fun m hm => ?_)
    (bodyReadsWithin_forLoop fun m hm => ?_)) (bodyReadsWithin_forLoop fun m hm => ?_)
  · simp only [rotOutA, bodyReadsWithin, readsWithin]
    refine ⟨?_, ?_, ?_, ?_, ?_, ?_, ?_, ?_, trivial⟩ <;> simp only [and_true] <;> omega
  · refine bodyReadsWithin_mono (S := fun j => 32 * c ≤ j ∧ j < 64 * c) (fun j hj => .inr (hA j hj)) (fun _ h => h) ?_
    simp only [rotOutB, bodyReadsWithin, readsWithin]
    refine ⟨?_, ?_, ?_, ?_, ?_, ?_, ?_, ?_, trivial⟩ <;> omega
  · refine bodyReadsWithin_mono (S := fun j => 32 * c ≤ j ∧ j < 64 * c) (fun j hj => ?_) (fun _ h => h) ?_
    · obtain ⟨e, he⟩ := hA j hj
      exact .inr ⟨e, List.mem_append_left _ he⟩
    simp only [rotOutC, bodyReadsWithin, readsWithin]
    refine ⟨?_, ?_, ?_, ?_, trivial⟩ <;> omega

end Sys2Proof.Laws
end

