-- ==== Sys2Proof/Laws/Decode.lean ====
section
/-! SUPPORT. The fields of a packed word, and the low half of a word under a mask that has no bit above it. -/

namespace Sys2Proof.Laws

section Pack

variable {op l hi : Nat} (s : SlotId) (hop : op < 256) (hl : l < 16) (hhi : hi < 65536)

include hop hl hhi

theorem packWord_toNat : (packWord op s l hi).toNat = op + s.val * 2 ^ 8 + l * 2 ^ 12 + hi * 2 ^ 16 := by
  have hs := s.isLt
  unfold packWord
  rw [BitVec.toNat_ofNat]
  exact Nat.mod_eq_of_lt (by omega)

theorem fieldOp_packWord : fieldOp (packWord op s l hi) = op := by
  have hs := s.isLt
  unfold fieldOp
  rw [packWord_toNat s hop hl hhi]
  omega

theorem fieldS_packWord : fieldS (packWord op s l hi) = s := by
  have hs := s.isLt
  unfold fieldS
  rw [packWord_toNat s hop hl hhi]
  apply Fin.ext
  rw [Fin.val_ofNat]
  omega

theorem fieldL_packWord : fieldL (packWord op s l hi) = l := by
  have hs := s.isLt
  unfold fieldL
  rw [packWord_toNat s hop hl hhi]
  omega

theorem fieldOfs_packWord : fieldOfs (packWord op s l hi) = hi := by
  have hs := s.isLt
  unfold fieldOfs
  rw [packWord_toNat s hop hl hhi]
  omega

theorem fieldA_packWord : fieldA (packWord op s l hi) = hi % 2 ^ 8 := by
  have hs := s.isLt
  unfold fieldA
  rw [packWord_toNat s hop hl hhi]
  omega

theorem fieldB_packWord : fieldB (packWord op s l hi) = hi / 2 ^ 8 := by
  have hs := s.isLt
  unfold fieldB
  rw [packWord_toNat s hop hl hhi]
  omega

/-- A mask with no bit above the low half sees the low half only, where OFS, or A and B, have no bits (R62). -/
theorem packWord_and_low (m : Word) (hm : m &&& 0x0000FFFF#32 = m) :
    packWord op s l hi &&& m = packWord op s l 0 &&& m := by
  have key : packWord op s l hi &&& 0x0000FFFF#32 = packWord op s l 0 &&& 0x0000FFFF#32 := by
    have hs := s.isLt
    apply BitVec.eq_of_toNat_eq
    rw [BitVec.toNat_and, BitVec.toNat_and, packWord_toNat s hop hl hhi, packWord_toNat s hop hl (by norm_num)]
    rw [show (0x0000FFFF#32).toNat = 2 ^ 16 - 1 from rfl, Nat.and_two_pow_sub_one_eq_mod, Nat.and_two_pow_sub_one_eq_mod]
    omega
  rw [← hm, BitVec.and_comm m, ← BitVec.and_assoc, key, BitVec.and_assoc]

end Pack

end Sys2Proof.Laws
end

