-- ==== Sys2Proof/Laws/Float.lean ====
section
/-! SUPPORT. The small lemmas of binary32 arithmetic: the bounds of the fields, the pattern a NaN takes, an operation's result
as one of its allowed results, and the rounding function's shape. -/

namespace Sys2Proof.Laws

open Sys2Proof.Machine

/-! ### Fields -/

theorem expField_lt (w : Word) : expField w < 256 := Nat.mod_lt _ (by norm_num)

theorem fracField_lt (w : Word) : fracField w < 2 ^ 23 := Nat.mod_lt _ (by norm_num)

/-- A word is its sign, its exponent and its fraction (R46). -/
theorem toNat_fields (w : Word) :
    w.toNat = (signBit w).toNat * 2 ^ 31 + expField w * 2 ^ 23 + fracField w := by
  have h := w.isLt
  unfold signBit expField fracField
  by_cases hs : 2 ^ 31 ≤ w.toNat <;> simp only [hs, decide_true, decide_false, Bool.toNat_true, Bool.toNat_false] <;>
    omega

theorem signed_toNat (neg : Bool) {b : Nat} (h : b < 2 ^ 31) : (signed neg b).toNat = neg.toNat * 2 ^ 31 + b := by
  unfold signed
  rw [BitVec.toNat_ofNat]
  cases neg <;> simp only [Bool.toNat_true, Bool.toNat_false] <;> omega

@[simp] theorem signBit_signed (neg : Bool) {b : Nat} (h : b < 2 ^ 31) : signBit (signed neg b) = neg := by
  unfold signBit
  rw [signed_toNat neg h]
  cases neg <;> simp only [Bool.toNat_true, Bool.toNat_false, decide_eq_true_eq, decide_eq_false_iff_not] <;> omega

theorem expField_signed (neg : Bool) {b : Nat} (h : b < 2 ^ 31) : expField (signed neg b) = b / 2 ^ 23 := by
  unfold expField
  rw [signed_toNat neg h]
  cases neg <;> simp only [Bool.toNat_true, Bool.toNat_false] <;> omega

theorem fracField_signed (neg : Bool) {b : Nat} (h : b < 2 ^ 31) : fracField (signed neg b) = b % 2 ^ 23 := by
  unfold fracField
  rw [signed_toNat neg h]
  cases neg <;> simp only [Bool.toNat_true, Bool.toNat_false] <;> omega

theorem roundBits_le (m s : Nat) : roundBits m s ≤ infBits := Nat.min_le_right _ _

theorem roundBits_lt (m s : Nat) : roundBits m s < 2 ^ 31 :=
  Nat.lt_of_le_of_lt (roundBits_le m s) (by norm_num [infBits])

/-- A rounded word is never a NaN. -/
theorem isNaN_signed (neg : Bool) {b : Nat} (h : b ≤ infBits) : isNaN (signed neg b) = false := by
  have hb : b < 2 ^ 31 := Nat.lt_of_le_of_lt h (by norm_num [infBits])
  unfold isNaN
  rw [expField_signed neg hb, fracField_signed neg hb]
  unfold infBits at h
  rw [Bool.and_eq_false_iff, beq_eq_false_iff_ne, bne_eq_false_iff_eq]
  omega

/-! ### NaN results (U1) -/

/-- The pattern of a NaN result is a NaN, whatever the raw bits were. -/
theorem isNaN_nanOf (w : Word) : isNaN (nanOf w) = true := by
  have key : ∀ v : Word, v ||| 0x7F800000#32 = v → expField v = 255 := fun v hv => by
    have hbit : ∀ i, i < 8 → v.getLsbD (23 + i) = true := fun i hi => by
      rw [← hv]
      rw [BitVec.getLsbD_or]
      have : (0x7F800000#32).getLsbD (23 + i) = true := by
        interval_cases i <;> decide
      rw [this, Bool.or_true]
    unfold expField
    apply Nat.eq_of_testBit_eq
    intro i
    by_cases hi : i < 8
    · have h1 := hbit i hi
      rw [BitVec.getLsbD] at h1
      rw [Nat.testBit_mod_two_pow, Nat.testBit_div_two_pow, show i + 23 = 23 + i by omega, h1]
      interval_cases i <;> decide
    · rw [Nat.testBit_mod_two_pow]
      simp only [hi, decide_false, Bool.false_and]
      symm
      apply Nat.testBit_lt_two_pow
      calc 255 < 2 ^ 8 := by norm_num
        _ ≤ 2 ^ i := Nat.pow_le_pow_right (by norm_num) (by omega)
  have hor : ∀ v : Word, (v ||| 0x7F800000#32) ||| 0x7F800000#32 = v ||| 0x7F800000#32 := fun v => by
    rw [BitVec.or_assoc, BitVec.or_self]
  unfold nanOf
  simp only
  split
  · have h1 : expField ((w ||| 0x7F800000#32) ||| 1#32) = 255 := key _ (by
      rw [BitVec.or_assoc, BitVec.or_comm 1#32, ← BitVec.or_assoc, hor])
    have h2 : fracField ((w ||| 0x7F800000#32) ||| 1#32) ≠ 0 := by
      unfold fracField
      intro h0
      have h3 : ((w ||| 0x7F800000#32) ||| 1#32).toNat.testBit 0 = true := by
        have : ((w ||| 0x7F800000#32) ||| 1#32).getLsbD 0 = true := by
          rw [BitVec.getLsbD_or]; simp
        exact this
      rw [Nat.testBit_zero, decide_eq_true_eq] at h3
      omega
    simp [isNaN, h1, h2]
  · have h1 : expField (w ||| 0x7F800000#32) = 255 := key _ (hor w)
    simp [isNaN, *]

/-- The word of an operation is one of its allowed results. -/
theorem isResult_orNaN (d : Nat) (o : Option Word) : IsResult o (orNaN d o) := by
  cases o with
  | none => exact isNaN_nanOf _
  | some w => rfl

theorem sumOf_fadd (d : Nat) (a b : Word) : SumOf a b (fadd d a b) := isResult_orNaN _ _

theorem diffOf_fsub (d : Nat) (a b : Word) : DiffOf a b (fsub d a b) := isResult_orNaN _ _

theorem prodOf_fmul (d : Nat) (a b : Word) : ProdOf a b (fmul d a b) := isResult_orNaN _ _

/-- The result of an operation whose exact result is no NaN does not depend on the free value. -/
theorem orNaN_some (d : Nat) (w : Word) : orNaN d (some w) = w := rfl

@[simp] theorem fneg_fneg (a : Word) : fneg (fneg a) = a := by
  unfold fneg
  rw [BitVec.xor_assoc, BitVec.xor_self, BitVec.xor_zero]

/-- Addition is commutative, apart from the pattern of a NaN (R123). -/
theorem addResult_comm (a b : Word) : addResult a b = addResult b a ∨
    (isInf a = true ∧ isInf b = true ∧ addResult a b = some a ∧ addResult b a = some b) := by
  unfold addResult
  rw [Bool.or_comm (isNaN b)]
  by_cases hn : (isNaN a || isNaN b) = true
  · simp [hn]
  · simp only [hn]
    by_cases ha : isInf a = true <;> by_cases hb : isInf b = true <;>
      simp only [ha, hb, if_true, Bool.true_and, Bool.false_eq_true, if_false]
    · by_cases hs : signBit a = signBit b
      · right; simp [hs]
      · left; simp [hs, Ne.symm hs]
    · left; trivial
    · left; trivial
    · left
      rw [Int.add_comm (scaledValue b), Bool.and_comm (signBit b)]

end Sys2Proof.Laws
end

