-- ==== Sys2Proof/Laws/State.lean ====
section
/-! SUPPORT. One lemma per field per named update of State, each true by computation, so that no later proof unfolds a record
update. -/

namespace Sys2Proof.Laws

open Sys2Proof.Machine

section Updates

variable (s : State) (c : ErrCode) (w v : Word) (k : SlotId) (x : Slot) (base : Nat) (T : Nat → Word) (b : List Assign)


/-! ### `raiseError` -/

@[simp] theorem raiseError_errv : (s.raiseError c w).errv = true := rfl
@[simp] theorem raiseError_drop : (s.raiseError c w).drop = s.drop := rfl
@[simp] theorem raiseError_errcode : (s.raiseError c w).errcode = c := rfl
@[simp] theorem raiseError_errcmd : (s.raiseError c w).errcmd = w := rfl
@[simp] theorem raiseError_baseIdx : (s.raiseError c w).baseIdx = s.baseIdx := rfl
@[simp] theorem raiseError_slot0 : (s.raiseError c w).slot0 = s.slot0 := rfl
@[simp] theorem raiseError_slot1 : (s.raiseError c w).slot1 = s.slot1 := rfl
@[simp] theorem raiseError_buf : (s.raiseError c w).buf = s.buf := rfl
@[simp] theorem raiseError_bufSize : (s.raiseError c w).bufSize = s.bufSize := rfl
@[simp] theorem raiseError_bufEpoch : (s.raiseError c w).bufEpoch = s.bufEpoch := rfl
@[simp] theorem raiseError_nanDraws : (s.raiseError c w).nanDraws = s.nanDraws := rfl
@[simp] theorem raiseError_pending : (s.raiseError c w).pending = s.pending := rfl
@[simp] theorem raiseError_replies : (s.raiseError c w).replies = s.replies := rfl

/-! ### `clearError` -/

@[simp] theorem clearError_errv : (s.clearError).errv = false := rfl
@[simp] theorem clearError_drop : (s.clearError).drop = s.drop := rfl
@[simp] theorem clearError_errcode : (s.clearError).errcode = .noError := rfl
@[simp] theorem clearError_errcmd : (s.clearError).errcmd = 0#32 := rfl
@[simp] theorem clearError_baseIdx : (s.clearError).baseIdx = s.baseIdx := rfl
@[simp] theorem clearError_slot0 : (s.clearError).slot0 = s.slot0 := rfl
@[simp] theorem clearError_slot1 : (s.clearError).slot1 = s.slot1 := rfl
@[simp] theorem clearError_buf : (s.clearError).buf = s.buf := rfl
@[simp] theorem clearError_bufSize : (s.clearError).bufSize = s.bufSize := rfl
@[simp] theorem clearError_bufEpoch : (s.clearError).bufEpoch = s.bufEpoch := rfl
@[simp] theorem clearError_nanDraws : (s.clearError).nanDraws = s.nanDraws := rfl
@[simp] theorem clearError_pending : (s.clearError).pending = s.pending := rfl
@[simp] theorem clearError_replies : (s.clearError).replies = s.replies := rfl

/-! ### `writeBase` -/

@[simp] theorem writeBase_errv : (s.writeBase v).errv = s.errv := rfl
@[simp] theorem writeBase_drop : (s.writeBase v).drop = s.drop := rfl
@[simp] theorem writeBase_errcode : (s.writeBase v).errcode = s.errcode := rfl
@[simp] theorem writeBase_errcmd : (s.writeBase v).errcmd = s.errcmd := rfl
@[simp] theorem writeBase_baseIdx : (s.writeBase v).baseIdx = v.setWidth 20 := rfl
@[simp] theorem writeBase_slot0 : (s.writeBase v).slot0 = s.slot0 := rfl
@[simp] theorem writeBase_slot1 : (s.writeBase v).slot1 = s.slot1 := rfl
@[simp] theorem writeBase_buf : (s.writeBase v).buf = s.buf := rfl
@[simp] theorem writeBase_bufSize : (s.writeBase v).bufSize = s.bufSize := rfl
@[simp] theorem writeBase_bufEpoch : (s.writeBase v).bufEpoch = s.bufEpoch := rfl
@[simp] theorem writeBase_nanDraws : (s.writeBase v).nanDraws = s.nanDraws := rfl
@[simp] theorem writeBase_pending : (s.writeBase v).pending = s.pending := rfl
@[simp] theorem writeBase_replies : (s.writeBase v).replies = s.replies := rfl

/-! ### `setBufWord` -/

@[simp] theorem setBufWord_errv (n : Nat) : (s.setBufWord n w).errv = s.errv := rfl
@[simp] theorem setBufWord_drop (n : Nat) : (s.setBufWord n w).drop = s.drop := rfl
@[simp] theorem setBufWord_errcode (n : Nat) : (s.setBufWord n w).errcode = s.errcode := rfl
@[simp] theorem setBufWord_errcmd (n : Nat) : (s.setBufWord n w).errcmd = s.errcmd := rfl
@[simp] theorem setBufWord_baseIdx (n : Nat) : (s.setBufWord n w).baseIdx = s.baseIdx := rfl
@[simp] theorem setBufWord_slot0 (n : Nat) : (s.setBufWord n w).slot0 = s.slot0 := rfl
@[simp] theorem setBufWord_slot1 (n : Nat) : (s.setBufWord n w).slot1 = s.slot1 := rfl
@[simp] theorem setBufWord_buf (n : Nat) : (s.setBufWord n w).buf = s.buf.writeWord n w := rfl
@[simp] theorem setBufWord_bufSize (n : Nat) : (s.setBufWord n w).bufSize = s.bufSize := rfl
@[simp] theorem setBufWord_bufEpoch (n : Nat) : (s.setBufWord n w).bufEpoch = s.bufEpoch := rfl
@[simp] theorem setBufWord_nanDraws (n : Nat) : (s.setBufWord n w).nanDraws = s.nanDraws := rfl
@[simp] theorem setBufWord_pending (n : Nat) : (s.setBufWord n w).pending = s.pending := rfl
@[simp] theorem setBufWord_replies (n : Nat) : (s.setBufWord n w).replies = s.replies := rfl

/-! ### `runBody` -/

@[simp] theorem runBody_errv : (s.runBody base T b).errv = s.errv := rfl
@[simp] theorem runBody_drop : (s.runBody base T b).drop = s.drop := rfl
@[simp] theorem runBody_errcode : (s.runBody base T b).errcode = s.errcode := rfl
@[simp] theorem runBody_errcmd : (s.runBody base T b).errcmd = s.errcmd := rfl
@[simp] theorem runBody_baseIdx : (s.runBody base T b).baseIdx = s.baseIdx := rfl
@[simp] theorem runBody_slot0 : (s.runBody base T b).slot0 = s.slot0 := rfl
@[simp] theorem runBody_slot1 : (s.runBody base T b).slot1 = s.slot1 := rfl
@[simp] theorem runBody_buf : (s.runBody base T b).buf = (s.datapath.run s.bufEpoch base T b).mem := rfl
@[simp] theorem runBody_bufSize : (s.runBody base T b).bufSize = s.bufSize := rfl
@[simp] theorem runBody_bufEpoch : (s.runBody base T b).bufEpoch = s.bufEpoch := rfl
@[simp] theorem runBody_nanDraws : (s.runBody base T b).nanDraws = (s.datapath.run s.bufEpoch base T b).draws := rfl
@[simp] theorem runBody_pending : (s.runBody base T b).pending = s.pending := rfl
@[simp] theorem runBody_replies : (s.runBody base T b).replies = s.replies := rfl

/-! ### `hardReset` -/

@[simp] theorem hardReset_errv : (s.hardReset).errv = false := rfl
@[simp] theorem hardReset_drop : (s.hardReset).drop = false := rfl
@[simp] theorem hardReset_errcode : (s.hardReset).errcode = .noError := rfl
@[simp] theorem hardReset_errcmd : (s.hardReset).errcmd = 0#32 := rfl
@[simp] theorem hardReset_baseIdx : (s.hardReset).baseIdx = 0#20 := rfl
@[simp] theorem hardReset_slot0 : (s.hardReset).slot0 = none := rfl
@[simp] theorem hardReset_slot1 : (s.hardReset).slot1 = none := rfl
@[simp] theorem hardReset_buf : (s.hardReset).buf = [] := rfl
@[simp] theorem hardReset_bufSize : (s.hardReset).bufSize = s.bufSize := rfl
@[simp] theorem hardReset_bufEpoch : (s.hardReset).bufEpoch = s.bufEpoch + 1 := rfl
@[simp] theorem hardReset_nanDraws : (s.hardReset).nanDraws = s.nanDraws := rfl
@[simp] theorem hardReset_pending : (s.hardReset).pending = s.pending := rfl
@[simp] theorem hardReset_replies : (s.hardReset).replies = s.replies := rfl

/-! ### `discard` -/

@[simp] theorem discard_errv : (s.discard w).errv = s.errv := by unfold State.discard; split <;> simp_all
@[simp] theorem discard_drop : (s.discard w).drop = (s.drop || decide (w ≠ 0#32)) := by unfold State.discard; split <;> simp_all
@[simp] theorem discard_errcode : (s.discard w).errcode = s.errcode := by unfold State.discard; split <;> simp_all
@[simp] theorem discard_errcmd : (s.discard w).errcmd = s.errcmd := by unfold State.discard; split <;> simp_all
@[simp] theorem discard_baseIdx : (s.discard w).baseIdx = s.baseIdx := by unfold State.discard; split <;> simp_all
@[simp] theorem discard_slot0 : (s.discard w).slot0 = s.slot0 := by unfold State.discard; split <;> simp_all
@[simp] theorem discard_slot1 : (s.discard w).slot1 = s.slot1 := by unfold State.discard; split <;> simp_all
@[simp] theorem discard_buf : (s.discard w).buf = s.buf := by unfold State.discard; split <;> simp_all
@[simp] theorem discard_bufSize : (s.discard w).bufSize = s.bufSize := by unfold State.discard; split <;> simp_all
@[simp] theorem discard_bufEpoch : (s.discard w).bufEpoch = s.bufEpoch := by unfold State.discard; split <;> simp_all
@[simp] theorem discard_nanDraws : (s.discard w).nanDraws = s.nanDraws := by unfold State.discard; split <;> simp_all
@[simp] theorem discard_pending : (s.discard w).pending = s.pending := by unfold State.discard; split <;> simp_all
@[simp] theorem discard_replies : (s.discard w).replies = s.replies := by unfold State.discard; split <;> simp_all

/-! ### `setSlot` -/

@[simp] theorem setSlot_errv : (s.setSlot k x).errv = s.errv := by unfold State.setSlot; split <;> rfl
@[simp] theorem setSlot_drop : (s.setSlot k x).drop = s.drop := by unfold State.setSlot; split <;> rfl
@[simp] theorem setSlot_errcode : (s.setSlot k x).errcode = s.errcode := by unfold State.setSlot; split <;> rfl
@[simp] theorem setSlot_errcmd : (s.setSlot k x).errcmd = s.errcmd := by unfold State.setSlot; split <;> rfl
@[simp] theorem setSlot_baseIdx : (s.setSlot k x).baseIdx = s.baseIdx := by unfold State.setSlot; split <;> rfl
@[simp] theorem setSlot_slot0 : (s.setSlot k x).slot0 = if k = 0 then x else s.slot0 := by unfold State.setSlot; split <;> rfl
@[simp] theorem setSlot_slot1 : (s.setSlot k x).slot1 = if k = 0 then s.slot1 else x := by unfold State.setSlot; split <;> rfl
@[simp] theorem setSlot_buf : (s.setSlot k x).buf = s.buf := by unfold State.setSlot; split <;> rfl
@[simp] theorem setSlot_bufSize : (s.setSlot k x).bufSize = s.bufSize := by unfold State.setSlot; split <;> rfl
@[simp] theorem setSlot_bufEpoch : (s.setSlot k x).bufEpoch = s.bufEpoch := by unfold State.setSlot; split <;> rfl
@[simp] theorem setSlot_nanDraws : (s.setSlot k x).nanDraws = s.nanDraws := by unfold State.setSlot; split <;> rfl
@[simp] theorem setSlot_pending : (s.setSlot k x).pending = s.pending := by unfold State.setSlot; split <;> rfl
@[simp] theorem setSlot_replies : (s.setSlot k x).replies = s.replies := by unfold State.setSlot; split <;> rfl

@[simp] theorem setSlot_slot_self : (s.setSlot k x).slot k = x := by
  unfold State.slot; rcases Decidable.em (k = 0) with h | h <;> simp [h]

theorem setSlot_slot_other {j : SlotId} (h : j ≠ k) : (s.setSlot k x).slot j = s.slot j := by
  unfold State.slot; fin_cases j <;> fin_cases k <;> simp_all


/-! ### `writeStatus` (R25) -/

@[simp] theorem writeStatus_errv : (s.writeStatus v).errv = (s.errv && !v.getLsbD 0) := by
  unfold State.writeStatus; split <;> split <;> simp_all
@[simp] theorem writeStatus_drop : (s.writeStatus v).drop = (s.drop && !v.getLsbD 1) := by
  unfold State.writeStatus; split <;> split <;> simp_all
@[simp] theorem writeStatus_errcode : (s.writeStatus v).errcode = if v.getLsbD 0 then .noError else s.errcode := by
  unfold State.writeStatus; split <;> split <;> simp_all
@[simp] theorem writeStatus_errcmd : (s.writeStatus v).errcmd = if v.getLsbD 0 then 0#32 else s.errcmd := by
  unfold State.writeStatus; split <;> split <;> simp_all
@[simp] theorem writeStatus_baseIdx : (s.writeStatus v).baseIdx = s.baseIdx := by
  unfold State.writeStatus; split <;> split <;> simp_all
@[simp] theorem writeStatus_slot0 : (s.writeStatus v).slot0 = s.slot0 := by
  unfold State.writeStatus; split <;> split <;> simp_all
@[simp] theorem writeStatus_slot1 : (s.writeStatus v).slot1 = s.slot1 := by
  unfold State.writeStatus; split <;> split <;> simp_all
@[simp] theorem writeStatus_buf : (s.writeStatus v).buf = s.buf := by
  unfold State.writeStatus; split <;> split <;> simp_all
@[simp] theorem writeStatus_bufSize : (s.writeStatus v).bufSize = s.bufSize := by
  unfold State.writeStatus; split <;> split <;> simp_all
@[simp] theorem writeStatus_bufEpoch : (s.writeStatus v).bufEpoch = s.bufEpoch := by
  unfold State.writeStatus; split <;> split <;> simp_all
@[simp] theorem writeStatus_nanDraws : (s.writeStatus v).nanDraws = s.nanDraws := by
  unfold State.writeStatus; split <;> split <;> simp_all
@[simp] theorem writeStatus_pending : (s.writeStatus v).pending = s.pending := by
  unfold State.writeStatus; split <;> split <;> simp_all
@[simp] theorem writeStatus_replies : (s.writeStatus v).replies = s.replies := by
  unfold State.writeStatus; split <;> split <;> simp_all

end Updates

end Sys2Proof.Laws
end

