-- ==== Sys2Proof/Laws/Exec.lean ====
section
/-! SUPPORT. What a command can do, said once: `exec_cases`. Then what a body does to the state, and what each check's answer
means. -/

namespace Sys2Proof.Laws

open Sys2Proof.Machine

/-! ### Slots -/

theorem slotL_range {v : Slot} (h : slotValid v = true) : 6 ≤ slotL v ∧ slotL v ≤ 13 := by
  cases v with
  | none => cases h
  | some k => simp only [slotL, Config.log2nMin]; omega

theorem slotL_invalid {v : Slot} (h : slotValid v = false) : slotL v = 0 := by
  cases v with
  | none => rfl
  | some k => cases h

theorem slotL_slotOf {l : Nat} (h6 : 6 ≤ l) (h13 : l ≤ 13) : slotL (slotOf l) = l := by
  simp only [slotOf, slotL, Config.log2nMin, Fin.val_ofNat]
  omega

@[simp] theorem slotValid_slotOf (l : Nat) : slotValid (slotOf l) = true := rfl

/-! ### Checks -/

theorem commonCheck_ready {s : State} {k : SlotId} : s.commonCheck k = none ↔ s.transformReady k := by
  unfold State.commonCheck State.transformReady
  by_cases hv : slotValid (s.slot k) = true <;> simp [hv]

theorem stageCheck_ready {s : State} {k : SlotId} {a b : Nat} :
    s.stageCheck k a b = none ↔ s.transformReady k ∧ s.stageReady k a b := by
  unfold State.stageCheck State.transformReady State.stageReady
  by_cases hv : slotValid (s.slot k) = true
  · by_cases hs : a > slotL (s.slot k) - 5 ∨ b ≥ 2 ^ a
    · simp only [hv, hs]
      simp
      omega
    · simp only [hv, hs]
      simp
      omega
  · simp [hv]

theorem kernelCheck_ready {s : State} {ofs size : Nat} : s.kernelCheck ofs size = none ↔ s.kernelReady ofs size := by
  simp [State.kernelCheck, State.kernelReady]

theorem sizeCheck_none {l : Nat} : sizeCheck l = none ↔ 6 ≤ l ∧ l ≤ 13 := by
  simp [sizeCheck, Config.log2nMin, Config.log2nMax]

/-- No check answers with the code that stands for no error. -/
theorem commonCheck_code {s : State} {k : SlotId} {c : ErrCode} (h : s.commonCheck k = some c) : c ≠ .noError := by
  unfold State.commonCheck at h
  split at h
  · cases h; decide
  · split at h <;> cases h
    decide

theorem stageCheck_code {s : State} {k : SlotId} {a b : Nat} {c : ErrCode} (h : s.stageCheck k a b = some c) :
    c ≠ .noError := by
  unfold State.stageCheck at h
  split at h
  · cases h; decide
  · split at h
    · cases h; decide
    · split at h <;> cases h
      decide

theorem kernelCheck_code {s : State} {ofs size : Nat} {c : ErrCode} (h : s.kernelCheck ofs size = some c) :
    c ≠ .noError := by
  unfold State.kernelCheck at h
  split at h <;> cases h
  decide

theorem sizeCheck_code {l : Nat} {c : ErrCode} (h : sizeCheck l = some c) : c ≠ .noError := by
  unfold sizeCheck at h
  split at h <;> cases h
  decide

/-- A checked command: its body when the check passes, else the error entry (R9, R142). -/
theorem checked_cases (s : State) (i : Instr) (c : Option ErrCode) (t : State) :
    (c = none ∧ s.checked i c t = .next t) ∨
      ∃ e, c = some e ∧ s.checked i c t = .next (s.raiseError e (encode i)) := by
  cases c with
  | none => exact .inl ⟨rfl, rfl⟩
  | some e => exact .inr ⟨e, rfl, rfl⟩

/-! ### Bodies on the state -/

@[simp] theorem runBody_base (s : State) (base : Nat) (T : Nat → Word) (b : List Assign) :
    (s.runBody base T b).base = s.base := rfl

@[simp] theorem runBody_slot (s : State) (base : Nat) (T : Nat → Word) (b : List Assign) (k : SlotId) :
    (s.runBody base T b).slot k = s.slot k := rfl

@[simp] theorem runBody_bufWords (s : State) (base : Nat) (T : Nat → Word) (b : List Assign) :
    (s.runBody base T b).bufWords = s.bufWords := rfl

theorem runBody_sameButBuf (s : State) (base : Nat) (T : Nat → Word) (b : List Assign) :
    SameButBuf s (s.runBody base T b) := ⟨rfl, rfl, rfl, rfl, rfl, rfl, rfl, rfl, rfl, rfl, rfl⟩

theorem runBody_bytesSameOutside {s : State} {base lo hi : Nat} {T : Nat → Word} {b : List Assign}
    (h : ∀ a ∈ b, writesWithin lo hi a) : BytesSameOutside s (s.runBody base T b) (base + lo) (base + hi) :=
  fun _ ha => run_readByte_outside s.bufEpoch base T h ha

theorem runBody_ops (s : State) (base : Nat) (T : Nat → Word) (b : List Assign) :
    (s.runBody base T b).nanDraws = s.nanDraws + bodyOps b := by
  rw [runBody_nanDraws, run_draws]
  rfl

/-- The words of the window after a body, in the terms of its run. -/
theorem runBody_bufWord (s : State) (base : Nat) (T : Nat → Word) (b : List Assign) (i : Nat) :
    (s.runBody base T b).bufWord (base + i) = (s.datapath.run s.bufEpoch base T b).X s.bufEpoch base i := rfl

theorem datapath_X (s : State) (base i : Nat) : s.datapath.X s.bufEpoch base i = s.bufWord (base + i) := rfl

/-- Two bodies in a row are one body, when the second sets its temporaries before it reads them (R20). -/
theorem runBody_append {s : State} {base : Nat} {T : Nat → Word} {b c : List Assign} {S : Nat → Prop}
    (hc : bodyReadsWithin S [] c) : s.runBody base T (b ++ c) = (s.runBody base T b).runBody base T c := by
  have h := run_forgets_temps s.bufEpoch base T (p := s.datapath.run s.bufEpoch base T b)
    (p' := (s.runBody base T b).datapath) (D := []) rfl rfl (by simp) hc
  unfold State.runBody at h ⊢
  rw [run_append]
  simp only [h.1, h.2]

/-! ### The one inversion -/

/-- Everything a command can do: enter an error with its own word, change nothing, replace one slot, or run a body that
writes only words of BUF. -/
theorem exec_cases (i : Instr) (s : State) :
    (∃ code, code ≠ .noError ∧ exec i s = .next (s.raiseError code (encode i))) ∨
    exec i s = .next s ∨
    (∃ k x, (i = .clear k ∨ ∃ l, i = .init k l) ∧ exec i s = .next (s.setSlot k x)) ∨
    ∃ T b lo hi, exec i s = .next (s.runBody s.base T b) ∧ (∀ a ∈ b, writesWithin lo hi a) ∧
      s.base + hi ≤ s.bufWords := by
  have slotCase : ∀ (i : Instr) (k : SlotId) (c : Option ErrCode) (body : Nat → List Assign),
      (∀ e, c = some e → e ≠ .noError) → (c = none → s.transformReady k) →
      (c = none → 6 ≤ slotL (s.slot k) → ∀ a ∈ body (slotL (s.slot k)), writesWithin 0 (2 ^ slotL (s.slot k)) a) →
      exec i s = s.checked i c (s.slotBody k body) →
      (∃ code, code ≠ .noError ∧ exec i s = .next (s.raiseError code (encode i))) ∨
      ∃ T b lo hi, exec i s = .next (s.runBody s.base T b) ∧ (∀ a ∈ b, writesWithin lo hi a) ∧
        s.base + hi ≤ s.bufWords := fun i k c body hc hr hw he => by
    rcases checked_cases s i c (s.slotBody k body) with ⟨h, h'⟩ | ⟨e, h, h'⟩
    · right
      refine ⟨_, _, 0, 2 ^ slotL (s.slot k), he.trans h', hw h (slotL_range (hr h).1).1, ?_⟩
      exact (hr h).2
    · exact .inl ⟨e, hc e h, he.trans h'⟩
  have kernelCase : ∀ (i : Instr) (ofs size : Nat) (b : List Assign),
      (∀ a ∈ b, writesWithin ofs (ofs + size) a) →
      exec i s = s.checked i (s.kernelCheck ofs size) (s.kernelBody b) →
      (∃ code, code ≠ .noError ∧ exec i s = .next (s.raiseError code (encode i))) ∨
      ∃ T b lo hi, exec i s = .next (s.runBody s.base T b) ∧ (∀ a ∈ b, writesWithin lo hi a) ∧
        s.base + hi ≤ s.bufWords := fun i ofs size b hw he => by
    rcases checked_cases s i (s.kernelCheck ofs size) (s.kernelBody b) with ⟨h, h'⟩ | ⟨e, h, h'⟩
    · right
      refine ⟨_, b, ofs, ofs + size, he.trans h', hw, ?_⟩
      have := kernelCheck_ready.1 h
      unfold State.kernelReady at this
      omega
    · exact .inl ⟨e, kernelCheck_code h, he.trans h'⟩
  have lower : ∀ l, 2 ^ l / 2 ≤ 2 ^ l := fun l => Nat.div_le_self _ _
  cases i with
  | nop => exact .inr (.inl rfl)
  | init k l =>
    rcases checked_cases s (.init k l) (sizeCheck l) (s.setSlot k (slotOf l)) with ⟨-, h⟩ | ⟨e, h, h'⟩
    · exact .inr (.inr (.inl ⟨k, _, .inr ⟨l, rfl⟩, h⟩))
    · exact .inl ⟨e, sizeCheck_code h, h'⟩
  | clear k => exact .inr (.inr (.inl ⟨k, none, .inl rfl, rfl⟩))
  | backward k =>
    exact (slotCase _ k _ backwardBody (fun e => commonCheck_code) commonCheck_ready.1
      (fun _ h => backwardBody_writes h) rfl).imp_right fun h => .inr (.inr h)
  | rotIn k =>
    exact (slotCase _ k _ rotInBody (fun e => commonCheck_code) commonCheck_ready.1
      (fun _ h a ha => writesWithin_mono (Nat.zero_le _) (Nat.le_refl _) (rotInBody_writes h a ha))
      rfl).imp_right fun h => .inr (.inr h)
  | bflyFirst k =>
    exact (slotCase _ k _ bflyFirstBody (fun e => commonCheck_code) commonCheck_ready.1
      (fun _ h a ha => writesWithin_mono (Nat.zero_le _) (Nat.le_refl _) (bflyFirstBody_writes h a ha))
      rfl).imp_right fun h => .inr (.inr h)
  | bflyGen k a b =>
    exact (slotCase _ k _ (bflyGenBody a b) (fun e => stageCheck_code) (fun h => (stageCheck_ready.1 h).1)
      (fun hc h x hx => writesWithin_mono (Nat.zero_le _) (Nat.le_refl _)
        (bflyGenBody_writes_upper h (stageCheck_ready.1 hc).2.1 (stageCheck_ready.1 hc).2.2 x hx))
      rfl).imp_right fun h => .inr (.inr h)
  | bflyAll k =>
    exact (slotCase _ k _ bflyAllBody (fun e => commonCheck_code) commonCheck_ready.1
      (fun _ h a ha => writesWithin_mono (Nat.zero_le _) (Nat.le_refl _) (bflyAllBody_writes h a ha))
      rfl).imp_right fun h => .inr (.inr h)
  | bitrev k =>
    exact (slotCase _ k _ bitrevBody (fun e => commonCheck_code) commonCheck_ready.1
      (fun _ h a ha => writesWithin_mono (Nat.zero_le _) (lower _) (bitrevBody_writes h a ha))
      rfl).imp_right fun h => .inr (.inr h)
  | rotOut k =>
    exact (slotCase _ k _ rotOutBody (fun e => commonCheck_code) commonCheck_ready.1
      (fun _ h => rotOutBody_writes h) rfl).imp_right fun h => .inr (.inr h)
  | ker32 ofs =>
    exact (kernelCase _ ofs 32 _ (k32Body_writes ofs) rfl).imp_right fun h => .inr (.inr h)
  | ker16 ofs =>
    exact (kernelCase _ ofs 16 _ (k16Body_writes ofs) rfl).imp_right fun h => .inr (.inr h)
  | ker8 ofs =>
    exact (kernelCase _ ofs 8 _ (k8Body_writes ofs) rfl).imp_right fun h => .inr (.inr h)

/-! ### The frame of every command -/

/-- A command leaves every BUF word outside its window alone, whether it runs or is rejected (R55, R142). -/
theorem exec_bufWord_outside {i : Instr} {s t : State} (h : exec i s = .next t) {w : Nat}
    (hw : w < (s.window i).1 ∨ (s.window i).2 ≤ w) : t.bufWord w = s.bufWord w := by
  have body : ∀ (b : List Assign) (T : Nat → Word) (lo hi : Nat), (∀ a ∈ b, writesWithin lo hi a) →
      w < s.base + lo ∨ s.base + hi ≤ w → (s.runBody s.base T b).bufWord w = s.bufWord w := fun b T lo hi hb hout => by
    have hr := runBody_bytesSameOutside (s := s) (base := s.base) (T := T) hb
    have hbyte : ∀ j, j < 4 → (s.runBody s.base T b).readByte (bufAddr w + j) = s.readByte (bufAddr w + j) :=
      fun j hj => hr _ (by unfold bufAddr; omega)
    have h0 := hbyte 0 (by omega)
    have h1 := hbyte 1 (by omega)
    have h2 := hbyte 2 (by omega)
    have h3 := hbyte 3 (by omega)
    unfold State.readByte at h0 h1 h2 h3
    unfold State.bufWord Memory.readWord Memory.readWordAt
    rw [Nat.add_zero] at h0
    rw [h0, h1, h2, h3]
  have check : ∀ (j : Instr) (c : Option ErrCode) (u : State), s.checked j c u = .next t →
      (c = none → u.bufWord w = s.bufWord w) → t.bufWord w = s.bufWord w := fun j c u hc hu => by
    rcases checked_cases s j c u with ⟨h0, h'⟩ | ⟨e, -, h'⟩ <;> rw [h'] at hc <;> cases hc
    · exact hu h0
    · rfl
  have slotBody : ∀ (k : SlotId) (b : Nat → List Assign), (∀ a ∈ b (slotL (s.slot k)),
      writesWithin 0 (2 ^ slotL (s.slot k)) a) → w < s.base ∨ s.base + s.blockSize k ≤ w →
      (s.slotBody k b).bufWord w = s.bufWord w := fun k b hb hout => body _ _ 0 _ hb hout
  have upper : ∀ {n : Nat} {b : List Assign}, (∀ a ∈ b, writesWithin (n / 2) n a) → ∀ a ∈ b, writesWithin 0 n a :=
    fun hb a ha => writesWithin_mono (Nat.zero_le _) (Nat.le_refl _) (hb a ha)
  have valid : ∀ {k : SlotId}, s.commonCheck k = none → 6 ≤ slotL (s.slot k) :=
    fun hc => (slotL_range (commonCheck_ready.1 hc).1).1
  cases i with
  | nop => cases h; rfl
  | init k l =>
    refine check _ _ _ h fun _ => ?_
    unfold State.setSlot; split <;> rfl
  | clear k =>
    cases h
    unfold State.setSlot; split <;> rfl
  | backward k => exact check _ _ _ h fun hc => slotBody k _ (backwardBody_writes (valid hc)) hw
  | rotIn k => exact check _ _ _ h fun hc => slotBody k _ (upper (rotInBody_writes (valid hc))) hw
  | bflyFirst k => exact check _ _ _ h fun hc => slotBody k _ (upper (bflyFirstBody_writes (valid hc))) hw
  | bflyGen k a b =>
    refine check _ _ _ h fun hc => slotBody k _ (upper ?_) hw
    obtain ⟨hr, ha, hb⟩ := stageCheck_ready.1 hc
    exact bflyGenBody_writes_upper (slotL_range hr.1).1 ha hb
  | bflyAll k => exact check _ _ _ h fun hc => slotBody k _ (upper (bflyAllBody_writes (valid hc))) hw
  | bitrev k =>
    exact check _ _ _ h fun hc => slotBody k _
      (fun a ha => writesWithin_mono (Nat.le_refl _) (Nat.div_le_self _ _) (bitrevBody_writes (valid hc) a ha)) hw
  | rotOut k => exact check _ _ _ h fun hc => slotBody k _ (rotOutBody_writes (valid hc)) hw
  | ker32 ofs =>
    exact check _ _ _ h fun _ => body _ _ ofs (ofs + 32) (k32Body_writes ofs) (by simp only [State.window] at hw; omega)
  | ker16 ofs =>
    exact check _ _ _ h fun _ => body _ _ ofs (ofs + 16) (k16Body_writes ofs) (by simp only [State.window] at hw; omega)
  | ker8 ofs =>
    exact check _ _ _ h fun _ => body _ _ ofs (ofs + 8) (k8Body_writes ofs) (by simp only [State.window] at hw; omega)

end Sys2Proof.Laws
end

