-- ==== Sys2Proof/Laws/PerInstr.lean ====
section
/-! SUPPORT. One law per command: its word matches the row of the printed opcode table that has its mnemonic (R64). -/

namespace Sys2Proof.Laws

/-- The word of a well-formed command is covered by a row of R64 with the command's mnemonic. -/
def TableRow.Statement (i : Instr) : Prop :=
  i.wellFormed = true → ∃ r ∈ opcodeTable, r.mnemonic = i.mnemonic ∧ r.covers (encode i) = true

theorem TableRow.nop : TableRow.Statement .nop := fun _ => by decide

theorem TableRow.init (s : SlotId) (l : Nat) : TableRow.Statement (.init s l) := fun h => by
  have hl : l < 16 := of_decide_eq_true h
  revert s
  interval_cases l <;> decide

theorem TableRow.clear (s : SlotId) : TableRow.Statement (.clear s) := fun _ => by revert s; decide

theorem TableRow.backward (s : SlotId) : TableRow.Statement (.backward s) := fun _ => by revert s; decide

theorem TableRow.rotIn (s : SlotId) : TableRow.Statement (.rotIn s) := fun _ => by revert s; decide

theorem TableRow.bflyFirst (s : SlotId) : TableRow.Statement (.bflyFirst s) := fun _ => by revert s; decide

theorem TableRow.bflyGen (s : SlotId) (a b : Nat) : TableRow.Statement (.bflyGen s a b) := fun h => by
  obtain ⟨ha, hb⟩ := Bool.and_eq_true_iff.1 h
  have ha : a < 256 := of_decide_eq_true ha
  have hb : b < 256 := of_decide_eq_true hb
  refine ⟨⟨"BFLY_GEN", 0x00000013#32, 0x0000FEFF#32⟩, by decide, rfl, ?_⟩
  rw [OpcodeRow.covers, encode, packWord_and_low s (by norm_num) (by norm_num) (by omega) _ (by decide)]
  clear h
  revert s
  decide

theorem TableRow.bflyAll (s : SlotId) : TableRow.Statement (.bflyAll s) := fun _ => by revert s; decide

theorem TableRow.bitrev (s : SlotId) : TableRow.Statement (.bitrev s) := fun _ => by revert s; decide

theorem TableRow.rotOut (s : SlotId) : TableRow.Statement (.rotOut s) := fun _ => by revert s; decide

theorem TableRow.ker32 (ofs : Nat) : TableRow.Statement (.ker32 ofs) := fun h => by
  have h : ofs < 65536 := of_decide_eq_true h
  refine ⟨⟨"KER32", 0x00000020#32, 0x0000FFFF#32⟩, by decide, rfl, ?_⟩
  rw [OpcodeRow.covers, encode, packWord_and_low 0 (by norm_num) (by norm_num) h _ (by decide)]
  decide

theorem TableRow.ker16 (ofs : Nat) : TableRow.Statement (.ker16 ofs) := fun h => by
  have h : ofs < 65536 := of_decide_eq_true h
  refine ⟨⟨"KER16", 0x00000021#32, 0x0000FFFF#32⟩, by decide, rfl, ?_⟩
  rw [OpcodeRow.covers, encode, packWord_and_low 0 (by norm_num) (by norm_num) h _ (by decide)]
  decide

theorem TableRow.ker8 (ofs : Nat) : TableRow.Statement (.ker8 ofs) := fun h => by
  have h : ofs < 65536 := of_decide_eq_true h
  refine ⟨⟨"KER8", 0x00000022#32, 0x0000FFFF#32⟩, by decide, rfl, ?_⟩
  rw [OpcodeRow.covers, encode, packWord_and_low 0 (by norm_num) (by norm_num) h _ (by decide)]
  decide

end Sys2Proof.Laws
end

