-- ==== Sys2Proof/Laws/Step.lean ====
section
/-! SUPPORT. One lemma for each kind of host transaction: what a step with that transaction first on the host's list is
(R41, R42, R161). -/

namespace Sys2Proof.Laws

open Sys2Proof.Machine

variable (s : State) (rest : List HostOp)

/-- BUF has between 2^13 and 2^20 words (R5). -/
theorem bufWords_range : 2 ^ 13 ≤ s.bufWords ∧ s.bufWords ≤ 2 ^ 20 := by
  unfold State.bufWords Config.log2BufMin
  exact ⟨Nat.pow_le_pow_right (by norm_num) (by omega), Nat.pow_le_pow_right (by norm_num) (by omega)⟩

/-- A write to CMD issues its word (R26, R66). -/
theorem step_cmdWrite (w : Word) :
    step { s with pending := .write 0x00000C#24 4 w :: rest } = State.issue { s with pending := rest } w := by
  simp only [step, State.hostStep, State.perform, contract, State.memWrite]
  simp [addrStatus, addrCmd]

/-- A write to STATUS is its W1C update (R25). -/
theorem step_statusWrite (v : Word) :
    step { s with pending := .write 0x000008#24 4 v :: rest } =
      .next (State.writeStatus { s with pending := rest } v) := by
  simp only [step, State.hostStep, State.perform, contract, State.memWrite]
  simp [addrStatus]

/-- A write to BASE (R27). -/
theorem step_baseWrite (v : Word) :
    step { s with pending := .write 0x000010#24 4 v :: rest } =
      .next (State.writeBase { s with pending := rest } v) := by
  simp only [step, State.hostStep, State.perform, contract, State.memWrite]
  simp [addrStatus, addrCmd, addrBase]

/-- A write to word w of BUF (R44). -/
theorem step_bufWrite {w : Nat} (hw : w < s.bufWords) (v : Word) :
    step { s with pending := .write (BitVec.ofNat 24 (0x400000 + 4 * w)) 4 v :: rest } =
      .next (State.setBufWord { s with pending := rest } w v) := by
  have hb := (bufWords_range s).2
  have ht : (BitVec.ofNat 24 (0x400000 + 4 * w)).toNat = 0x400000 + 4 * w := by
    rw [BitVec.toNat_ofNat]; omega
  simp only [step, State.hostStep, State.perform, contract, ht, State.memWrite, addrStatus, addrCmd, addrBase]
  rw [if_neg (by omega), if_neg (by omega)]
  simp only
  rw [if_neg (by omega), if_neg (by omega), if_neg (by omega),
    show (4194304 + 4 * w - 4194304) / 4 = w by omega, if_pos ⟨by omega, by omega, hw⟩]

/-- An aligned read returns the mapped word (R41). -/
theorem step_read {a : Nat} (ha : a < 2 ^ 24) (h4 : a % 4 = 0) :
    step { s with pending := .read (BitVec.ofNat 24 a) 4 :: rest } =
      .next { s with pending := rest, replies := s.memRead (BitVec.ofNat 24 a) :: s.replies } := by
  have ht : (BitVec.ofNat 24 a).toNat = a := by rw [BitVec.toNat_ofNat]; omega
  simp only [step, State.hostStep, State.perform, contract, ht, h4]
  simp
  rfl

/-- The reset (R160). -/
theorem step_reset :
    step { s with pending := .reset :: rest } = .next (State.hardReset { s with pending := rest }) := rfl

/-- What issuing a word can do (R66): discard it, record that it is no command, or execute it. -/
theorem issue_cases (w : Word) :
    (s.errv = true ∧ s.issue w = .next (s.discard w)) ∨
    (s.errv = false ∧ ∃ e, decode w = .error e ∧ s.issue w = .next (s.raiseError (decodeErrCode e) w)) ∨
    (s.errv = false ∧ ∃ i, decode w = .ok i ∧ s.issue w = exec i s) := by
  unfold State.issue
  cases hs : s.errv with
  | true => exact .inl ⟨rfl, rfl⟩
  | false =>
    cases hd : decode w with
    | error e => exact .inr (.inl ⟨rfl, e, rfl, rfl⟩)
    | ok i => exact .inr (.inr ⟨rfl, i, rfl, rfl⟩)

/-! ### Transactions that leave a word of BUF alone (R51, R55) -/

variable {s} in
/-- Every command answers a next state, which keeps the host's list and the size of BUF. -/
theorem exec_next (i : Instr) : ∃ t, exec i s = .next t ∧ t.pending = s.pending ∧ t.bufSize = s.bufSize := by
  rcases exec_cases i s with ⟨c, -, h⟩ | h | ⟨k, x, -, h⟩ | ⟨T, b, lo, hi, h, -⟩ <;>
    exact ⟨_, h, by simp, by simp⟩

/-- Issuing a word answers a next state, which keeps the host's list and the size of BUF, and every word of BUF that no
command of that word has in its window. -/
theorem issue_next (d : Word) : ∃ t, s.issue d = .next t ∧ t.pending = s.pending ∧ t.bufSize = s.bufSize ∧
    ∀ w, (s.errv = false → ∀ i, decode d = .ok i → w < (s.window i).1 ∨ (s.window i).2 ≤ w) →
      t.bufWord w = s.bufWord w := by
  rcases issue_cases s d with ⟨-, h⟩ | ⟨-, e, -, h⟩ | ⟨he, i, hi, h⟩
  · refine ⟨_, h, by simp, by simp, fun w _ => ?_⟩
    unfold State.discard
    split <;> rfl
  · exact ⟨_, h, rfl, rfl, fun w _ => rfl⟩
  · obtain ⟨t, ht, hp, hb⟩ := exec_next (s := s) i
    exact ⟨t, h.trans ht, hp, hb, fun w hw => exec_bufWord_outside ht (hw he i hi)⟩

/-- A transaction that leaves word w alone answers a next state with the same word w. -/
theorem perform_leavesWord {w : Nat} {op : HostOp} (hl : s.leavesWord w op) :
    ∃ t, s.perform op = .next t ∧ t.bufWord w = s.bufWord w ∧ t.pending = s.pending ∧ t.bufSize = s.bufSize := by
  cases op with
  | reset => exact hl.elim
  | read a b =>
    obtain ⟨rfl, h4⟩ := hl
    simp only [State.perform, contract, h4]
    exact ⟨_, rfl, rfl, rfl, rfl⟩
  | write a b d =>
    obtain ⟨rfl, h4, hne, hc⟩ := hl
    simp only [State.perform, contract, h4, ne_eq, not_true_eq_false, if_false, State.memWrite]
    split
    · refine ⟨_, rfl, ?_, by simp, by simp⟩
      unfold State.bufWord
      rw [writeStatus_buf]
      unfold State.writeStatus State.clearError
      split <;> split <;> rfl
    split
    · rename_i hcmd
      obtain ⟨t, ht, hp, hb, hw⟩ := issue_next s d
      exact ⟨t, ht, hw w (hc hcmd), hp, hb⟩
    split
    · exact ⟨_, rfl, rfl, rfl, rfl⟩
    split
    · rename_i hr
      refine ⟨_, rfl, ?_, rfl, rfl⟩
      rw [bufWord_setBufWord, if_neg]
      unfold bufAddr at hne
      omega
    · exact ⟨_, rfl, rfl, rfl, rfl⟩

end Sys2Proof.Laws
end

