-- ==== Sys2Proof/Tests/Slice0.lean ====
section
/-! SUPPORT. Tests with expected values from the spec (95_test_vectors.md, the rules' own examples, words written out by
hand), and for every statement with hypotheses a witness: a concrete state and operands that meet them together. -/

namespace Sys2Proof.Tests

open Sys2Proof Sys2Proof.Machine

/-! ### Small states -/

/-- Words written at BUF index `first` and after. -/
def put (first : Nat) : List Word → State → State
  | [], s => s
  | v :: vs, s => put (first + 1) vs (s.setBufWord first v)

/-- Slot 0 built for n = 64. -/
def ready : State := { State.reset with slot0 := slotOf 6 }

/-- Slot 0 built for n = 64, with a window that ends exactly at BUF_WORDS. -/
def edge : State := { ready with baseIdx := 8128#20 }

/-- A pending error (code 4 of 95_test_vectors.md section 6). -/
def failed : State := { State.reset with errv := true, errcode := .slotInvalid, errcmd := 0x00000010#32 }

/-- The BUF words a command leaves at some indices. -/
def after (o : Host.Outcome State Fault Refusal) (is : List Nat) : Option (List Word) :=
  match o with
  | .next t => some (is.map t.bufWord)
  | .fault _ => none
  | .refused _ => none

/-- The registers a step leaves: STATUS, ERRCMD, SLOT0, SLOT1. -/
def registersAfter (o : Host.Outcome State Fault Refusal) : Option (List Word) :=
  match o with
  | .next t => some [t.statusWord, t.errcmd, slotWord t.slot0, slotWord t.slot1]
  | .fault _ => none
  | .refused _ => none

/-- The words 1.0, 2.0, 3.0, … (the kernel vectors' input). -/
def ramp : List Word :=
  [0x3F800000#32, 0x40000000#32, 0x40400000#32, 0x40800000#32, 0x40A00000#32, 0x40C00000#32, 0x40E00000#32,
   0x41000000#32, 0x41100000#32, 0x41200000#32, 0x41300000#32, 0x41400000#32, 0x41500000#32, 0x41600000#32,
   0x41700000#32, 0x41800000#32] ++
  [0x41880000#32, 0x41900000#32, 0x41980000#32, 0x41A00000#32, 0x41A80000#32, 0x41B00000#32, 0x41B80000#32,
   0x41C00000#32, 0x41C80000#32, 0x41D00000#32, 0x41D80000#32, 0x41E00000#32, 0x41E80000#32, 0x41F00000#32,
   0x41F80000#32, 0x42000000#32]

/-- V-IMP0's lower half: X(0) = 1.0, the rest +0.0. -/
def impulse : List Word := 0x3F800000#32 :: List.replicate 31 0#32

/-! ### Ill-formed terms are refused (R67) -/

theorem test_wf_init_refuses_L16 : (Instr.init 0 16).wellFormed = false := by decide
theorem test_wf_bflyGen_refuses_A256 : (Instr.bflyGen 0 256 0).wellFormed = false := by decide
theorem test_wf_bflyGen_refuses_B256 : (Instr.bflyGen 0 0 256).wellFormed = false := by decide
theorem test_wf_ker32_refuses_ofs65536 : (Instr.ker32 65536).wellFormed = false := by decide
theorem test_wf_ker16_refuses_ofs65536 : (Instr.ker16 65536).wellFormed = false := by decide
theorem test_wf_ker8_refuses_ofs65536 : (Instr.ker8 65536).wellFormed = false := by decide

/-! ### Decoding: words written out from the layouts of R62 and the opcodes of R64 -/

theorem test_decode_nop : decode 0b00000000000000000000000000000000#32 = .ok .nop := by rfl
theorem test_decode_init : decode 0b00000000000000001011000100000001#32 = .ok (.init 1 11) := by rfl
theorem test_decode_clear : decode 0b00000000000000000000000100000010#32 = .ok (.clear 1) := by rfl
theorem test_decode_backward : decode 0b00000000000000000000000100010000#32 = .ok (.backward 1) := by rfl
theorem test_decode_rotIn : decode 0b00000000000000000000000000010001#32 = .ok (.rotIn 0) := by rfl
theorem test_decode_bflyFirst : decode 0b00000000000000000000000100010010#32 = .ok (.bflyFirst 1) := by rfl
theorem test_decode_bflyGen : decode 0b00000111000000110000000000010011#32 = .ok (.bflyGen 0 3 7) := by rfl
theorem test_decode_bflyAll : decode 0b00000000000000000000000100010100#32 = .ok (.bflyAll 1) := by rfl
theorem test_decode_bitrev : decode 0b00000000000000000000000000010101#32 = .ok (.bitrev 0) := by rfl
theorem test_decode_rotOut : decode 0b00000000000000000000000100010110#32 = .ok (.rotOut 1) := by rfl
theorem test_decode_ker32 : decode 0b00000000010000000000000000100000#32 = .ok (.ker32 64) := by rfl
theorem test_decode_ker16 : decode 0b10000000000000010000000000100001#32 = .ok (.ker16 32769) := by rfl
theorem test_decode_ker8 : decode 0b00000000000110000000000000100010#32 = .ok (.ker8 24) := by rfl

/-- R144's example: bit 9 of BACKWARD is RESERVED_FIELD. -/
theorem test_decode_reserved : decode 0x00000310#32 = .error .reservedField := by rfl
theorem test_decode_illegal : decode 0x00000080#32 = .error .illegalOpcode := by rfl

/-! ### Tables (95_test_vectors.md T1, T2, T3) -/

theorem test_trig_n64 :
    [0, 1, 2, 3, 16, 17, 31, 32, 63, 64, 79, 80].map (trigWord 6) =
      [0x3F800000#32, 0x80000000#32, 0x3F7B14BE#32, 0xBE47C5C2#32, 0x248D3132#32, 0xBF800000#32, 0xBE47C5C2#32,
       0x3F7FEC43#32, 0x3F3085BB#32, 0x3EFEC46D#32, 0xBEFEC46D#32, 0x00000000#32] := by decide +kernel

theorem test_trig_n8192 :
    [2048, 4096, 8192, 10239].map (trigWord 13) = [0x248D3132#32, 0x3F800000#32, 0x3EFFFFFB#32, 0xBEFFFFFB#32] := by
  decide +kernel

theorem test_bitrev_n64 :
    (List.range 17).map (bitrevEntry 6) = [30, 0, 14, 16, 22, 8, 6, 24, 26, 4, 10, 20, 18, 12, 2, 28, 0] := by decide

/-! ### Arithmetic corners (R8): a tie to even, a subnormal product, an overflow, a zero of negative sign -/

theorem test_add_tie_to_even : addResult 0x4B800000#32 0x3F800000#32 = some 0x4B800000#32 := by decide +kernel
theorem test_mul_subnormal : mulResult 0x00800000#32 0x3F000000#32 = some 0x00400000#32 := by decide +kernel
theorem test_mul_overflow : mulResult 0x7F7FFFFF#32 0x40000000#32 = some 0x7F800000#32 := by decide +kernel
theorem test_sub_zero_sign : subResult 0x80000000#32 0x00000000#32 = some 0x80000000#32 := by decide +kernel

/-! ### Commands: one step each -/

/-- T5, steps 3 and 1. -/
theorem test_nop : registersAfter (exec .nop ready) = some [0#32, 0#32, 0x00000106#32, 0#32] := by decide
theorem test_init : registersAfter (exec (.init 1 11) State.reset) = some [0#32, 0#32, 0#32, 0x0000010B#32] := by decide

/-- Section 6, code 3. -/
theorem test_init_bad_size :
    registersAfter (step (State.reset.withFetchWord 32 0x0000E001)) = some [0x00000301#32, 0x0000E001#32, 0#32, 0#32] := by
  decide

/-- R87's example. -/
theorem test_clear : registersAfter (exec (.clear 0) ready) = some [0#32, 0#32, 0#32, 0#32] := by decide

/-- V-IMP0 through ROT_IN (section 4). -/
theorem test_rotIn :
    after (exec (.rotIn 0) (put 0 impulse ready)) [0, 32, 46, 47, 48, 62, 63] =
      some [0x3F800000#32, 0#32, 0#32, 0x80000000#32, 0#32, 0#32, 0x3F800000#32] := by decide +kernel

/-- EX-R104, of whose input only the words 46 and 62 are not +0.0. -/
theorem test_bflyFirst :
    after (exec (.bflyFirst 0)
        (put 62 [0x40000000#32] (put 46 [0x3F800000#32] (put 32 (List.replicate 32 0#32) ready))))
      [32, 33, 34, 36, 38, 46, 47, 62, 63] =
      some [0x80000000#32, 0#32, 0x80000000#32, 0x80000000#32, 0#32, 0x3F800000#32, 0#32, 0x40400000#32, 0#32] := by
  decide +kernel

/-- EX-R105's last case: BFLY_GEN 0, 3, 7 at L = 8 on the LCG words 240 to 255. -/
theorem test_bflyGen :
    after (exec (.bflyGen 0 3 7)
        (put 240
          [0x3F2C0000#32, 0xBEA80000#32, 0x3E800000#32, 0xBF400000#32, 0xBE300000#32, 0x3ED00000#32, 0xBF180000#32,
           0xBC800000#32, 0x3F100000#32, 0xBEE00000#32, 0x3E100000#32, 0x3F380000#32, 0xBE900000#32, 0x3E980000#32,
           0xBF340000#32, 0xBE000000#32]
          { State.reset with slot0 := slotOf 8 })) [240, 241, 242, 243, 244, 245, 246, 247, 248, 249, 250, 251, 252, 253,
        254, 255] =
      some [0x3E1E6455#32, 0x00000000#32, 0xBFBC0000#32, 0xBDE00000#32, 0x00000000#32, 0xBE1E6455#32, 0xBDE00000#32,
        0xBDE00000#32, 0x3F9E0000#32, 0xBF440000#32, 0x3EC80000#32, 0xBD000000#32, 0xBEE80000#32, 0x3F340000#32,
        0xBFA60000#32, 0xBE100000#32] := by decide +kernel

/-- Section 4: BFLY_ALL after ROT_IN on V-IMP0. -/
theorem test_bflyAll :
    after (exec (.bflyAll 0) (put 63 [0x3F800000#32] (put 47 [0x80000000#32] (put 32 (List.replicate 32 0#32) ready))))
      [32, 33, 62, 63] = some [0#32, 0x3F800000#32, 0#32, 0x3F800000#32] := by decide +kernel

/-- Section 4: BITREV after BFLY_ALL on V-IMP0. -/
theorem test_bitrev :
    after (exec (.bitrev 0) (put 32 (List.replicate 16 [0#32, 0x3F800000#32]).flatten ready)) [0, 1, 15, 16, 17, 31] =
      some [0x3F800000#32, 0#32, 0#32, 0x3F800000#32, 0x80000000#32, 0x80000000#32] := by decide +kernel

/-- Section 4: ROT_OUT after BITREV on V-IMP0. -/
theorem test_rotOut :
    after (exec (.rotOut 0) (put 0 ((List.replicate 8 [0x3F800000#32, 0#32]).flatten ++
        (List.replicate 8 [0x3F800000#32, 0x80000000#32]).flatten) ready)) [0, 15, 16, 31, 32, 47, 48, 63] =
      some [0x3F3085BB#32, 0x3CC90AB0#32, 0xBCC90AB0#32, 0xBF3085BB#32, 0xBF396842#32, 0xBF7FEC43#32, 0xBF7FEC43#32,
        0xBF396842#32] := by decide +kernel

/-- Section 6, code 6. -/
theorem test_backward_range :
    registersAfter (exec (.backward 0) { ready with baseIdx := 8160#20 }) =
      some [0x00000601#32, 0x00000010#32, 0x00000106#32, 0#32] := by decide

/-- K32. -/
theorem test_ker32 :
    after (exec (.ker32 0) (put 0 ramp State.reset)) [0, 1, 6, 7, 8, 9, 16, 30, 31] =
      some [0x42C0DFF7#32, 0xC280DFF7#32, 0xC0FE4314#32, 0x421FC862#32, 0x421FC864#32, 0xC0FE431C#32, 0x425A827A#32,
        0x43800000#32, 0x43880000#32] := by decide +kernel

/-- K16. -/
theorem test_ker16 :
    after (exec (.ker16 0) (put 0 (ramp.take 16) State.reset)) (List.range 16) =
      some [0x41DA827A#32, 0xC13504F3#32, 0x4095F61A#32, 0x413504F3#32, 0x413504F3#32, 0x4095F61A#32, 0xC13504F3#32,
        0x41DA827A#32, 0x41800000#32, 0x00000000#32, 0x00000000#32, 0x41800000#32, 0x41000000#32, 0x41000000#32,
        0x42800000#32, 0x42900000#32] := by decide +kernel

/-- K8, at a window that ends exactly at 8192 (R126). -/
theorem test_ker8 :
    after (exec (.ker8 24) (put 8184 (ramp.take 8) { State.reset with baseIdx := 8160#20 }))
        [8184, 8185, 8186, 8187, 8188, 8189, 8190, 8191] =
      some [0x41000000#32, 0x00000000#32, 0x00000000#32, 0x41000000#32, 0x40800000#32, 0x40800000#32, 0x41800000#32,
        0x41A00000#32] := by decide +kernel

/-- Program P3: `KER8 25` at base 8160. -/
theorem test_ker8_range :
    registersAfter (exec (.ker8 25) { State.reset with baseIdx := 8160#20 }) =
      some [0x00000601#32, 0x00190022#32, 0#32, 0#32] := by decide

/-! ### The host port (sections 6 and 8, T5) -/

/-- Both slots valid: 0 at n = 8192, 1 at n = 64. -/
def both : State := { ready with slot0 := slotOf 13, slot1 := slotOf 6 }

/-- Reads at the edges of every region of R40's map. -/
theorem test_read_map_edges :
    [0x000000#24, 0x000004#24, 0x00000C#24, 0x000018#24, 0x00001C#24, 0x000020#24, 0x00FFFC#24, 0x010000#24,
     0x019FFC#24, 0x01A000#24, 0x01FFFC#24, 0x020000#24, 0x02013C#24, 0x020140#24, 0x029FFC#24, 0x02A000#24, 0x02FFFC#24,
     0x030000#24, 0x031FFC#24, 0x032000#24, 0x03203C#24, 0x033FFC#24, 0x034000#24, 0x3FFFFC#24, 0x408000#24, 0x7FFFFC#24,
     0x800000#24, 0xFFFFFC#24].map both.memRead =
      [0x4D444354#32, 0x10D20D06#32, 0#32, 0x0000010D#32, 0x00000106#32, 0#32, 0#32, 0x3F800000#32,
       0xBEFFFFFB#32, 0#32, 0#32, 0x3F800000#32, 0xBEFEC46D#32, 0#32, 0#32, 0#32, 0#32,
       4094#32, 4092#32, 30#32, 28#32, 0#32, 0#32, 0#32, 0#32, 0#32,
       0#32, 0#32] := by decide +kernel

/-- The first and the last word of BUF. -/
theorem test_read_buf_edges :
    [0x400000#24, 0x407FFC#24].map (put 8191 [7#32] (put 0 [5#32] State.reset)).memRead = [5#32, 7#32] := by
  decide +kernel

/-- Section 6: the discard of `INIT 0, 6` after code 4. -/
theorem test_discard : registersAfter (step { failed with pending := [.write 0x00000C#24 4 0x00006001#32] }) =
    some [0x00000403#32, 0x00000010#32, 0#32, 0#32] := by decide

/-- T5, step 8: RESERVED_FIELD wins over BAD_SIZE. -/
theorem test_priority : registersAfter (step (State.reset.withFetchWord 32 0x00000301)) =
    some [0x00000201#32, 0x00000301#32, 0#32, 0#32] := by decide

/-! ### Witnesses: encoding -/

theorem witness_DecodeOfEncodeIsTheCommand :
    (Instr.bflyGen 1 255 255).wellFormed = true ∧ (Instr.init 1 15).wellFormed = true ∧
      (Instr.ker8 65535).wellFormed = true := by decide

theorem witness_DecodedWordIsItsEncoding : decode 0xFFFF0113#32 = .ok (.bflyGen 1 255 255) := by rfl

theorem witness_OpcodeTableDecidesDecoding :
    (⟨"INIT", 0x00000001#32, 0xFFFF0EFF#32⟩ : OpcodeRow) ∈ opcodeTable ∧
      OpcodeRow.covers ⟨"INIT", 0x00000001#32, 0xFFFF0EFF#32⟩ 0x0000F101#32 = true ∧
      decode 0x0000F101#32 = .ok (.init 1 15) := ⟨by decide, by decide, rfl⟩

theorem witness_UndecodableWordsByCause :
    fieldOp 0x00000003#32 = 0x03 ∧ fieldOp 0x000000FF#32 = 0xFF ∧
      fieldOp 0x00000310#32 = 0x10 ∧ ∀ r ∈ opcodeTable, r.covers 0x00000310#32 = false := by decide

/-! ### Witnesses: the step and the host port -/

theorem witness_StepRunsDecodedCommand : State.reset.errv = false ∧ decode 0x00000110#32 = .ok (.backward 1) :=
  ⟨rfl, rfl⟩

theorem witness_StepWithoutTransactionHoldsState : both.pending = [] := rfl

/-- Each clause of the map at the first and the last address of its range; the ranges are disjoint. -/
theorem witness_HostReadReturnsMappedWord :
    (0x020 ≤ 0x020 ∧ 0x00FFFC < 0x010000) ∧
    (0x010000 = 0x010000 + 4 * 0 ∧ 0x019FFC = 0x010000 + 4 * 10239 ∧ 10239 < 10240) ∧
    (0x01A000 = 0x010000 + 4 * 10240 ∧ 0x01FFFC = 0x010000 + 4 * 16383 ∧ 16383 < 16384) ∧
    (0x020000 = 0x020000 + 4 * 0 ∧ 0x029FFC = 0x020000 + 4 * 10239) ∧
    (0x02A000 = 0x020000 + 4 * 10240 ∧ 0x02FFFC = 0x020000 + 4 * 16383) ∧
    (0x030000 = 0x030000 + 4 * 0 ∧ 0x031FFC = 0x030000 + 4 * 2047 ∧ 2047 < 2048) ∧
    (0x032000 = 0x032000 + 4 * 0 ∧ 0x033FFC = 0x032000 + 4 * 2047) ∧
    (0x034000 ≤ 0x034000 ∧ 0x3FFFFC < 0x400000) ∧
    (0x400000 = 0x400000 + 4 * 0 ∧ 0x407FFC = 0x400000 + 4 * 8191 ∧ 8191 < State.reset.bufWords) ∧
    (0x408000 = 0x400000 + 4 * 8192 ∧ State.reset.bufWords ≤ 8192 ∧ 0x7FFFFC = 0x400000 + 4 * (2 ^ 20 - 1)) ∧
    (0x800000 ≤ 0x800000 ∧ 0xFFFFFC < 2 ^ 24 ∧ 0xFFFFFC % 4 = 0) := by decide

theorem witness_HostWriteToBufStoresWord : 0 < State.reset.bufWords ∧ 8191 < State.reset.bufWords := by decide

theorem witness_HostWriteElsewhereIgnored :
    ∀ a ∈ [0x000, 0x014, 0x020, 0x010000, 0x3FFFFC, 0x408000, 0xFFFFFC],
      a < 2 ^ 24 ∧ a % 4 = 0 ∧ a ∉ [0x008, 0x00C, 0x010] ∧
        (a < 0x400000 ∨ 0x400000 + 4 * State.reset.bufWords ≤ a) := by decide

theorem witness_AccessOutsideContractRefused : (2 : Nat) ≠ 4 ∧ (0x000009#24).toNat % 4 ≠ 0 := by decide

theorem witness_StepStopsOnlyOutsideContract :
    ∀ t, step { State.reset with pending := [.read 0x000009#24 4] } ≠ .next t := by
  intro t h
  cases h

/-- Between the write and the read of word 8191 the host writes BASE and issues `KER8 0`. -/
theorem witness_HostReadsBackWhatItWrote :
    8191 < both.bufWords ∧
      Undisturbed 8191 [HostOp.write 0x000010#24 4 0#32, .write 0x00000C#24 4 0x00000022#32].length
        { both.setBufWord 8191 5#32 with
          pending := [HostOp.write 0x000010#24 4 0#32, .write 0x00000C#24 4 0x00000022#32] ++
            [.read (BitVec.ofNat 24 (0x400000 + 4 * 8191)) 4] } := by
  refine ⟨by decide, ⟨_, _, rfl, rfl, by decide, by decide, fun h => absurd h (by decide)⟩, fun t ht => ?_⟩
  cases ht
  refine ⟨⟨_, _, rfl, rfl, by decide, by decide, fun _ _ i hi => ?_⟩, fun t _ => trivial⟩
  cases hi
  exact .inr (by decide)

/-! ### Witnesses: registers, errors, reset, control -/

theorem witness_StatusReadsFlagsAndClearsByOne : failed.statusWord = 0x00000401#32 ∧ ((2 ≤ 2 ∧ 2 < 8) ∨ 12 ≤ 2) ∧
    ((2 ≤ 31 ∧ 31 < 8) ∨ 12 ≤ 31) := by decide

theorem witness_BaseHoldsTwentyBits :
    exec .nop edge = .next edge ∧
      (∃ t, step { State.reset with pending := [.write 0x000010#24 4 1#32] } = .next t ∧
        t.baseIdx ≠ State.reset.baseIdx) ∧
      ∃ t, step { edge with pending := [.reset] } = .next t ∧ t.baseIdx ≠ edge.baseIdx :=
  ⟨rfl, ⟨_, rfl, by decide⟩, ⟨_, rfl, by decide⟩⟩

theorem witness_ReadOnlyRegistersShowTheirFields :
    State.reset.bufWords = 8192 ∧ slotValid (slotOf 13) = true ∧ slotValid none = false ∧
      0x000018#24 ∈ [0x000000#24, 0x000004#24, 0x000018#24, 0x00001C#24] := by decide

theorem witness_ErrorEntryRecordsWordAndNothingElse :
    State.reset.errv = false ∧ State.reset.issue 0x00000010#32 = .next failed ∧ failed.errv = true := ⟨rfl, rfl, rfl⟩

theorem witness_UndecodableWordIsRecorded :
    State.reset.errv = false ∧ decode 0x00000003#32 = .error .illegalOpcode ∧
      decode 0x00000210#32 = .error .reservedField := ⟨rfl, rfl, rfl⟩

theorem witness_CommandsDiscardedWhileErrorPending :
    failed.errv = true ∧
      (∃ t, step { failed with errv := false, pending := [.read 0x000014#24 4] } = .next t) ∧
      (∃ t, step { failed with errv := false, pending := [.write 0x000010#24 4 1#32] } = .next t) ∧
      (∃ t, step { failed with errv := false, pending := [.write (BitVec.ofNat 24 (0x400000 + 4 * 8191)) 4 1#32] } =
        .next t) := ⟨rfl, ⟨_, rfl⟩, ⟨_, rfl⟩, ⟨_, rfl⟩⟩

theorem witness_ExecutionChecksInOrder_sizes : (5 < 6 ∨ 13 < 5) ∧ (14 < 6 ∨ 13 < 14) := by decide

theorem witness_ExecutionChecksInOrder_slots :
    slotValid (State.reset.slot 0) = false ∧ slotValid (ready.slot 0) = true ∧
      State.bufWords { ready with baseIdx := 8129#20 } <
        State.base { ready with baseIdx := 8129#20 } + 2 ^ slotL (ready.slot 0) := by decide

theorem witness_ExecutionChecksInOrder_stages :
    (slotL (ready.slot 0) - 5 < 2) ∧ (2 ^ 1 ≤ 2) ∧ (1 ≤ slotL (ready.slot 0) - 5 ∧ 1 < 2 ^ 1) := by decide

theorem witness_ExecutionChecksInOrder_kernels :
    State.reset.bufWords < State.reset.base + 8161 + 32 ∧ State.reset.bufWords < State.reset.base + 8177 + 16 ∧
      State.reset.bufWords < State.reset.base + 8185 + 8 := by decide

/-- The last clause: the window of `edge` ends exactly at BUF_WORDS, and so do the kernel windows. -/
theorem witness_transformReady : edge.errv = false ∧ edge.transformReady 0 := ⟨rfl, rfl, by decide⟩

theorem witness_stageReady : edge.stageReady 0 1 1 ∧ edge.stageReady 0 0 0 :=
  ⟨⟨by decide, by decide⟩, ⟨by decide, by decide⟩⟩

theorem witness_kernelReady :
    State.reset.kernelReady 8160 32 ∧ State.reset.kernelReady 8176 16 ∧ State.reset.kernelReady 8184 8 := by
  unfold State.kernelReady
  decide

theorem witness_FlagsChangeOnlyByCommandStatusOrReset :
    (∃ t, step (State.reset.withFetchWord 32 0x00000010) = .next t ∧ t.errv = true) ∧
    (∃ t, step { failed with pending := [.write 0x000008#24 4 1#32] } = .next t ∧ t.errv = false) ∧
    (∃ t, step { failed with pending := [.write 0x00000C#24 4 1#32] } = .next t ∧ t.drop = true) ∧
    (∃ t, step { failed with drop := true, pending := [.reset] } = .next t ∧ t.drop = false) :=
  ⟨⟨_, rfl, rfl⟩, ⟨_, rfl, rfl⟩, ⟨_, rfl, rfl⟩, ⟨_, rfl, rfl⟩⟩

theorem witness_NopChangesNothing : fieldOp 0x80000000#32 = 0 ∧ 0x80000000#32 ≠ 0#32 := by decide

theorem witness_InitBuildsTheLookup : 6 ≤ 6 ∧ 6 ≤ 13 ∧ 13 ≤ 13 ∧ (0 : SlotId) ≠ 1 := by decide

theorem witness_ClearDropsTheLookup : ready.slot 1 = none ∧ (0 : SlotId) ≠ 1 := by decide

theorem witness_TablesChangeOnlyByInitClearReset :
    ∃ t, step (State.reset.withFetchWord 32 0x00006001) = .next t ∧ t.slot 0 ≠ State.reset.slot 0 :=
  ⟨_, rfl, by decide⟩

/-- At L = 6: the first and last words of each region, and the two exceptions. -/
theorem witness_TrigTableNearestToExactValues :
    (0 < 2 ^ 6 / 4 ∧ 2 * 0 ≠ 2 ^ 6 / 4) ∧ (15 < 2 ^ 6 / 4 ∧ 2 * 15 ≠ 2 ^ 6 / 4 ∧ 0 < 15) ∧ 7 < 2 ^ 6 / 8 ∧
      2 ^ 6 + 2 ^ 6 / 4 ≤ 80 := by decide

theorem witness_BitReversalTableIsPermutation :
    4 < 5 ∧ 7 < 2 ^ 6 / 8 ∧ 30 % 2 = 0 ∧ 30 ≤ 2 ^ 6 / 2 - 2 ∧ 15 < 2 ^ 6 / 4 ∧ 2 ^ 6 / 4 ≤ 16 := by decide

/-! ### Witnesses: arithmetic -/

theorem witness_AdditionRoundsOnceToNearestEven :
    isFinite 0x3F800000#32 = true ∧ isFinite 0xBF800000#32 = true ∧
      toReal 0x3F800000#32 + toReal 0x3F800000#32 ≠ 0 ∧ toReal 0x3F800000#32 + toReal 0xBF800000#32 = 0 ∧
      toReal 0x3F800000#32 - toReal 0xBF800000#32 ≠ 0 ∧ toReal 0x3F800000#32 - toReal 0x3F800000#32 = 0 := by
  have h1 : scaledValue 0x3F800000#32 = 2 ^ 149 := by decide +kernel
  have h2 : scaledValue 0xBF800000#32 = -2 ^ 149 := by decide +kernel
  refine ⟨by decide, by decide, ?_, ?_, ?_, ?_⟩ <;> simp only [toReal, h1, h2] <;> norm_num

theorem witness_MultiplicationRoundsOnceToNearestEven :
    isFinite 0x00000001#32 = true ∧ isFinite 0xFF7FFFFF#32 = true := by decide

theorem witness_SpecialValuesFollowIEEE :
    isNaN 0x7F800001#32 = true ∧ isInf 0x7F800000#32 = true ∧ isInf 0xFF800000#32 = true ∧
      signBit 0x7F800000#32 ≠ signBit 0xFF800000#32 ∧ isFinite 0x80000000#32 = true ∧ isZero 0x80000000#32 = true ∧
      isNaN 0x00000001#32 = false ∧ isZero 0x00000001#32 = false := by decide +kernel

/-! ### Witnesses: transform and kernel commands -/

/-- Two states that differ in one word of BUF, whose index is given. -/
theorem differ_at_word (s : State) (w : Nat) (v : Word) :
    SameButBuf { s with bufEpoch := (s.setBufWord w v).bufEpoch } (s.setBufWord w v) ∧
      (s.setBufWord w v).nanDraws = s.nanDraws ∧ ∀ j, s.base + j ≠ w → s.X j = (s.setBufWord w v).X j :=
  ⟨⟨rfl, rfl, rfl, rfl, rfl, rfl, rfl, rfl, rfl, rfl, rfl⟩, rfl,
    fun j h => by
      unfold State.X
      rw [show (s.setBufWord w v).base = s.base from rfl, Laws.bufWord_setBufWord, if_neg (Ne.symm h)]⟩

/-- A word below the window of `edge` differs. -/
theorem witness_CommandsReadOnlyTheirWindow :
    edge.transformReady 0 ∧ (∀ j, j < edge.blockSize 0 → edge.X j = (edge.setBufWord 8127 1#32).X j) ∧
      edge.kernelReady 32 32 ∧ (∀ j, j < 32 → edge.X (32 + j) = (edge.setBufWord 8127 1#32).X (32 + j)) := by
  have hb : edge.base = 8128 := by decide
  refine ⟨⟨rfl, by decide⟩, fun j _ => (differ_at_word edge 8127 1#32).2.2 j (by omega), ?_,
    fun j _ => (differ_at_word edge 8127 1#32).2.2 (32 + j) (by omega)⟩
  unfold State.kernelReady
  decide

theorem witness_CommandsDoNotBranchOnContent :
    SameButBuf edge (edge.setBufWord 8128 0x7F800001#32) ∧
      (edge.setBufWord 8128 0x7F800001#32).nanDraws = edge.nanDraws :=
  ⟨⟨rfl, rfl, rfl, rfl, rfl, rfl, rfl, rfl, rfl, rfl, rfl⟩, rfl⟩

/-- A word of the half that is overwritten differs: the last of the window, or the first. -/
theorem witness_OverwrittenHalfHasNoInfluence :
    edge.transformReady 0 ∧ (∀ j, j < edge.blockSize 0 / 2 → edge.X j = (edge.setBufWord 8191 1#32).X j) ∧
      ∀ j, edge.blockSize 0 / 2 ≤ j → j < edge.blockSize 0 → edge.X j = (edge.setBufWord 8128 1#32).X j := by
  have hb : edge.base = 8128 := by decide
  have hn : edge.blockSize 0 = 64 := by decide
  exact ⟨⟨rfl, by decide⟩, fun j hj => (differ_at_word edge 8191 1#32).2.2 j (by omega),
    fun j hj _ => (differ_at_word edge 8128 1#32).2.2 j (by omega)⟩

/-- At n = 64 each loop has iterations, the last of them m = 3. -/
theorem witness_stage_indices : 3 < 2 ^ slotL (edge.slot 0) / 16 ∧ 15 < 2 ^ slotL (edge.slot 0) / 4 ∧
    0 < 2 ^ slotL (edge.slot 0) / 2 / 2 ^ 1 / 16 := by decide

theorem witness_BackwardOfZeroInput :
    State.transformReady (put 8128 (List.replicate 32 0#32) edge) 0 ∧
      slotL (State.slot (put 8128 (List.replicate 32 0#32) edge) 0) = 6 ∧
      ∀ j, j < 32 → State.X (put 8128 (List.replicate 32 0#32) edge) j = 0#32 := by
  unfold State.transformReady
  decide +kernel

theorem witness_OperationCountsPerStage :
    (6, 96, 176, 128, 96, 496) ∈ [(6, 96, 176, 128, 96, 496), (7, 192, 512, 256, 192, 1152),
        (8, 384, 1344, 512, 384, 2624), (9, 768, 3328, 1024, 768, 5888), (10, 1536, 7936, 2048, 1536, 13056),
        (11, 3072, 18432, 4096, 3072, 28672), (12, 6144, 41984, 8192, 6144, 62464),
        (13, 12288, 94208, 16384, 12288, 135168)] ∧
      edge.transformReady 0 ∧ slotL (edge.slot 0) = 6 := ⟨by decide, ⟨rfl, by decide⟩, rfl⟩

theorem witness_ReadsRightAfterReset :
    (0x008 ≤ 0x008 ∧ 0x3FFFFC < 0x400000) ∧ (0x407FFC = 0x400000 + 4 * 8191 ∧ 8191 < 8192) ∧ 0x408000 ≤ 0x408000 ∧
      0xFFFFFC < 2 ^ 24 ∧ 0xFFFFFC % 4 = 0 := by decide

/-- A NaN in the last coefficient of `edge`'s window. -/
theorem witness_NanCoefficientSpreadsToEveryOutput :
    State.transformReady (put 8159 [0x7F800001#32] edge) 0 ∧ slotL (State.slot (put 8159 [0x7F800001#32] edge) 0) = 6 ∧
      State.errv (put 8159 [0x7F800001#32] edge) = false ∧
      isNaN (State.X (put 8159 [0x7F800001#32] edge) 31) = true := by
  unfold State.transformReady
  decide +kernel

theorem witness_KernelsOfZerosGiveZeros :
    State.kernelReady (put 8160 (List.replicate 32 0#32) State.reset) 8160 32 ∧
      ∀ j, j < 32 → State.X (put 8160 (List.replicate 32 0#32) State.reset) (8160 + j) = 0#32 := by
  unfold State.kernelReady
  decide +kernel

/-! ### Witness: the invariant -/

theorem witness_EveryStepKeepsInvariant :
    State.Inv { failed with pending := [.write 0x000008#24 4 3#32] } ∧
      ∃ t, step { failed with pending := [.write 0x000008#24 4 3#32] } = .next t :=
  ⟨{ canonical := rfl
     insideBuf := by intro e h; cases h
     wholeWords := by intro a h; cases h
     recordEmpty := by intro h; cases h
     recordCoded := by intro _ h; cases h }, _, rfl⟩

end Sys2Proof.Tests
end

section
/-! PROOFS. Rounding to nearest, ties to even, as a fact about the grid of binary32 magnitudes (R8): bits 30:0 stand for
a magnitude, the magnitudes rise strictly, and rounding is decided by the midpoints to the neighbours. -/

namespace Sys2Proof.Proofs

open Sys2Proof.Machine Sys2Proof.Laws

/-! ### The grid of magnitudes -/

/-- Bits 30:0 of a word. -/
def lowBits (w : Word) : Nat := w.toNat % 2 ^ 31

/-- The magnitude that bits 30:0 stand for, in units of 2^-149 (`magnitude_eq`). It goes on past the finite words, so
that `infBits` stands for 2^128, the value that would follow the largest finite one. -/
def gridValue (n : Nat) : Nat :=
  if n / 2 ^ 23 = 0 then n % 2 ^ 23 else (2 ^ 23 + n % 2 ^ 23) * 2 ^ (n / 2 ^ 23 - 1)

theorem lowBits_div (w : Word) : lowBits w / 2 ^ 23 = expField w := by
  unfold lowBits expField; omega

theorem lowBits_mod (w : Word) : lowBits w % 2 ^ 23 = fracField w := by
  unfold lowBits fracField; omega

theorem magnitude_eq (w : Word) : magnitude w = gridValue (lowBits w) := by
  unfold magnitude gridValue
  rw [lowBits_div, lowBits_mod]

theorem isFinite_iff (w : Word) : isFinite w = true ↔ lowBits w < infBits := by
  have h := lowBits_div w
  have hlt : lowBits w < 2 ^ 31 := Nat.mod_lt _ (by norm_num)
  unfold isFinite infBits
  rw [bne_iff_ne]
  omega

/-- The step of the grid after a magnitude is its unit. -/
theorem gridValue_succ (n : Nat) : gridValue (n + 1) = gridValue n + 2 ^ (n / 2 ^ 23 - 1) := by
  unfold gridValue
  by_cases hf : n % 2 ^ 23 = 2 ^ 23 - 1
  · have hd : (n + 1) / 2 ^ 23 = n / 2 ^ 23 + 1 := by omega
    have hm : (n + 1) % 2 ^ 23 = 0 := by omega
    rw [hd, hm, hf, if_neg (Nat.succ_ne_zero _)]
    cases n / 2 ^ 23 with
    | zero => norm_num
    | succ e =>
      rw [if_neg (Nat.succ_ne_zero _), Nat.add_sub_cancel, Nat.add_sub_cancel, pow_succ]
      ring
  · have hd : (n + 1) / 2 ^ 23 = n / 2 ^ 23 := by omega
    have hm : (n + 1) % 2 ^ 23 = n % 2 ^ 23 + 1 := by omega
    rw [hd, hm]
    split
    · next h0 => rw [h0, Nat.zero_sub, pow_zero]
    · ring

theorem gridValue_strictMono : StrictMono gridValue :=
  strictMono_nat_of_lt_succ fun n => by
    rw [gridValue_succ]
    exact Nat.lt_add_of_pos_right (by positivity)

/-- An exponent and at most 24 bits add up to the bits of their magnitude, a carry out of the fraction included. -/
theorem gridValue_exp_add {e q : Nat} (hq : q ≤ 2 ^ 24) (he : e = 0 ∨ 2 ^ 23 ≤ q) :
    gridValue (e * 2 ^ 23 + q) = q * 2 ^ e := by
  unfold gridValue
  obtain hq0 | hq1 | rfl : q < 2 ^ 23 ∨ (2 ^ 23 ≤ q ∧ q < 2 ^ 24) ∨ q = 2 ^ 24 := by omega
  · obtain rfl : e = 0 := by omega
    rw [if_pos (by omega)]
    omega
  · have hd : (e * 2 ^ 23 + q) / 2 ^ 23 = e + 1 := by omega
    have hm : 2 ^ 23 + (e * 2 ^ 23 + q) % 2 ^ 23 = q := by omega
    rw [hd, hm, if_neg (Nat.succ_ne_zero _), Nat.add_sub_cancel]
  · have hd : (e * 2 ^ 23 + 2 ^ 24) / 2 ^ 23 = e + 1 + 1 := by omega
    have hm : (e * 2 ^ 23 + 2 ^ 24) % 2 ^ 23 = 0 := by omega
    rw [hd, hm, if_neg (Nat.succ_ne_zero _), Nat.add_sub_cancel, pow_succ]
    ring

/-! ### A word as a sign and bits 30:0 -/

/-- The factor a sign bit stands for. -/
def signFactor (neg : Bool) : ℝ := if neg then -1 else 1

theorem signFactor_true : signFactor true = -1 := if_pos rfl

theorem signFactor_false : signFactor false = 1 := if_neg Bool.false_ne_true

theorem signFactor_bne (p q : Bool) : signFactor (p != q) = signFactor p * signFactor q := by
  cases p <;> cases q <;> norm_num [signFactor]

theorem signFactor_mul_self (p : Bool) : signFactor p * signFactor p = 1 := by
  cases p <;> norm_num [signFactor]

theorem signFactor_mul_cases (p : Bool) (x : ℝ) : signFactor p * x = x ∨ signFactor p * x = -x := by
  cases p <;> norm_num [signFactor]

theorem eq_true_of_signFactor_mul_neg {p : Bool} {x : ℝ} (hx : 0 ≤ x) (h : signFactor p * x < 0) : p = true := by
  cases p with
  | true => rfl
  | false => exact absurd hx (not_le.mpr (by rwa [signFactor_false, one_mul] at h))

theorem eq_false_of_signFactor_mul_pos {p : Bool} {x : ℝ} (hx : 0 ≤ x) (h : 0 < signFactor p * x) : p = false := by
  cases p with
  | false => rfl
  | true => exact absurd hx (not_le.mpr (by rwa [signFactor_true, neg_one_mul, neg_pos] at h))

theorem signFactor_not (p : Bool) : signFactor (!p) = -signFactor p := by
  cases p <;> norm_num [signFactor]

theorem abs_signFactor_mul (p : Bool) (x : ℝ) : |signFactor p * x| = |x| := by
  cases p <;> norm_num [signFactor]

theorem scaledValue_eq (w : Word) : (scaledValue w : ℝ) = signFactor (signBit w) * magnitude w := by
  unfold scaledValue signFactor
  split <;> push_cast <;> ring

/-- The real number of a word, from its sign and its magnitude. -/
theorem toReal_eq (w : Word) : toReal w = signFactor (signBit w) * (gridValue (lowBits w) / 2 ^ 149) := by
  unfold toReal
  rw [scaledValue_eq, magnitude_eq, mul_div_assoc]

theorem lowBits_signed (neg : Bool) {b : Nat} (h : b < 2 ^ 31) : lowBits (signed neg b) = b := by
  unfold lowBits
  rw [signed_toNat neg h]
  omega

theorem isInf_signed_infBits (neg : Bool) : isInf (signed neg infBits) = true := by
  cases neg <;> decide

theorem getLsbD_zero_signed (neg : Bool) {b : Nat} (h : b < 2 ^ 31) (heven : b % 2 = 0) :
    (signed neg b).getLsbD 0 = false := by
  rw [BitVec.getLsbD, Nat.testBit_zero, signed_toNat neg h, decide_eq_false_iff_not]
  omega

/-! ### Rounding on the grid -/

/-- Bits `b` are the rounding of `x` units of 2^-149 to nearest, ties to even, `infBits` standing for every overflow:
`x` lies between the midpoints to every smaller and to every larger magnitude, and on one of them only if `b` is
even. -/
structure RoundsTo (x : ℝ) (b : Nat) : Prop where
  le_inf : b ≤ infBits
  below : ∀ c, c < b →
    (gridValue c + gridValue b : ℝ) ≤ 2 * x ∧ ((gridValue c + gridValue b : ℝ) = 2 * x → b % 2 = 0)
  above : ∀ c, b < c → c ≤ infBits →
    2 * x ≤ (gridValue b + gridValue c : ℝ) ∧ (2 * x = (gridValue b + gridValue c : ℝ) → b % 2 = 0)

/-- The midpoints to the two neighbours decide the rounding. Bits above `infBits` are cut to it: an overflow. -/
theorem roundsTo_min_of_neighbours {x : ℝ} {b : Nat}
    (hbelow : ∀ c, c + 1 = b →
      (gridValue c + gridValue b : ℝ) ≤ 2 * x ∧ ((gridValue c + gridValue b : ℝ) = 2 * x → b % 2 = 0))
    (habove : 2 * x ≤ (gridValue b + gridValue (b + 1) : ℝ) ∧
      (2 * x = (gridValue b + gridValue (b + 1) : ℝ) → b % 2 = 0)) :
    RoundsTo x (min b infBits) := by
  have mono : ∀ {c d : Nat}, c < d → (gridValue c : ℝ) < gridValue d := fun h =>
    Nat.cast_lt.mpr (gridValue_strictMono h)
  have below : ∀ c, c < b →
      (gridValue c + gridValue b : ℝ) ≤ 2 * x ∧ ((gridValue c + gridValue b : ℝ) = 2 * x → b % 2 = 0) := by
    intro c hc
    obtain rfl | hlt : c + 1 = b ∨ c < b - 1 := by omega
    · exact hbelow c rfl
    · have hn := (hbelow (b - 1) (by omega)).1
      have := mono hlt
      exact ⟨by linarith, fun h => by linarith⟩
  obtain hb | hb := Nat.le_total b infBits
  · rw [Nat.min_eq_left hb]
    refine ⟨hb, below, fun c hc _ => ?_⟩
    obtain rfl | hlt : c = b + 1 ∨ b + 1 < c := by omega
    · exact habove
    · have := mono hlt
      exact ⟨by linarith [habove.1], fun h => by linarith [habove.1]⟩
  · rw [Nat.min_eq_right hb]
    refine ⟨le_rfl, fun c hc => ?_, fun c hc hc' => absurd hc (by omega)⟩
    have hx := (below c (by omega)).1
    have hle : (gridValue infBits : ℝ) ≤ gridValue b := Nat.cast_le.mpr (gridValue_strictMono.monotone hb)
    exact ⟨by linarith, fun _ => rfl⟩

/-- No other magnitude is nearer than the rounded one, and one that is as near leaves it even. -/
theorem RoundsTo.nearest {x : ℝ} {b c : Nat} (h : RoundsTo x b) (hc : c ≤ infBits) :
    |(gridValue b : ℝ) - x| ≤ |(gridValue c : ℝ) - x| ∧
      (|(gridValue b : ℝ) - x| = |(gridValue c : ℝ) - x| → c ≠ b → b % 2 = 0) := by
  obtain hlt | rfl | hgt := Nat.lt_trichotomy c b
  · obtain ⟨hle, heq⟩ := h.below c hlt
    have hv : (gridValue c : ℝ) < gridValue b := Nat.cast_lt.mpr (gridValue_strictMono hlt)
    rw [abs_of_nonpos (by linarith : (gridValue c : ℝ) - x ≤ 0)]
    refine ⟨abs_le.mpr ⟨by linarith, by linarith⟩, fun he _ => heq ?_⟩
    obtain h1 | h1 := abs_choice ((gridValue b : ℝ) - x) <;> linarith
  · exact ⟨le_rfl, fun _ hne => absurd rfl hne⟩
  · obtain ⟨hle, heq⟩ := h.above c hgt hc
    have hv : (gridValue b : ℝ) < gridValue c := Nat.cast_lt.mpr (gridValue_strictMono hgt)
    rw [abs_of_nonneg (by linarith : 0 ≤ (gridValue c : ℝ) - x)]
    refine ⟨abs_le.mpr ⟨by linarith, by linarith⟩, fun he _ => heq ?_⟩
    obtain h1 | h1 := abs_choice ((gridValue b : ℝ) - x) <;> linarith

/-- The largest finite bits and `infBits`: their midpoint is the overflow bound. -/
theorem gridValue_overflow :
    (gridValue (infBits - 1) + gridValue infBits : ℝ) = 2 * (overflowBound * 2 ^ 149) := by
  rw [show infBits - 1 = 253 * 2 ^ 23 + (2 ^ 24 - 1) from rfl, show infBits = 253 * 2 ^ 23 + 2 ^ 24 from rfl,
    gridValue_exp_add (by norm_num) (by norm_num), gridValue_exp_add (by norm_num) (by norm_num)]
  norm_num [overflowBound]

/-- Rounding gives `infBits` exactly from the overflow bound on. -/
theorem RoundsTo.eq_infBits_iff {x : ℝ} {b : Nat} (h : RoundsTo x b) : b = infBits ↔ overflowBound * 2 ^ 149 ≤ x := by
  constructor
  · rintro rfl
    have := (h.below (infBits - 1) (by norm_num [infBits])).1
    linarith [gridValue_overflow]
  · intro hx
    by_contra hne
    have hlt : b < infBits := lt_of_le_of_ne h.le_inf hne
    obtain ⟨hle, heq⟩ := h.above infBits hlt le_rfl
    have hb : (gridValue b : ℝ) ≤ gridValue (infBits - 1) :=
      Nat.cast_le.mpr (gridValue_strictMono.monotone (by omega))
    have heven := heq (by linarith [gridValue_overflow])
    have hlast : b = infBits - 1 := gridValue_strictMono.injective (by
      exact_mod_cast (show (gridValue b : ℝ) = gridValue (infBits - 1) by linarith [gridValue_overflow]))
    rw [hlast] at heven
    norm_num [infBits] at heven

/-- No magnitude of either sign is nearer to a number than its rounding, and one that is as near leaves the rounding
even or is the same number. -/
theorem RoundsTo.nearest_signed {x t : ℝ} {b c : Nat} (h : RoundsTo x b) (hx : 0 ≤ x) (hc : c ≤ infBits)
    (ht : t = gridValue c ∨ t = -gridValue c) :
    |(gridValue b : ℝ) - x| ≤ |t - x| ∧ (|(gridValue b : ℝ) - x| = |t - x| → t ≠ gridValue b → b % 2 = 0) := by
  obtain rfl | rfl := ht
  · obtain ⟨hle, heq⟩ := h.nearest hc
    exact ⟨hle, fun he hne => heq he fun hcb => hne (by rw [hcb])⟩
  · obtain ⟨hle, heq⟩ := h.nearest (Nat.zero_le infBits)
    have h0 : (gridValue 0 : ℝ) = 0 := by norm_num [gridValue]
    have hc0 : (0 : ℝ) ≤ gridValue c := Nat.cast_nonneg _
    rw [h0, zero_sub, abs_neg, abs_of_nonneg hx] at hle heq
    rw [abs_of_nonpos (by linarith : -(gridValue c : ℝ) - x ≤ 0)]
    refine ⟨by linarith, fun he hne => heq (by linarith) fun hb => hne ?_⟩
    rw [← hb, h0]
    linarith

/-- The distance of a word from a number, with the number's sign taken off both. -/
theorem abs_toReal_sub (w : Word) (neg : Bool) (x : ℝ) :
    |toReal w - signFactor neg * (x / 2 ^ 149)| =
      |signFactor (neg != signBit w) * gridValue (lowBits w) - x| / 2 ^ 149 := by
  have h : toReal w - signFactor neg * (x / 2 ^ 149) =
      signFactor neg * ((signFactor (neg != signBit w) * gridValue (lowBits w) - x) / 2 ^ 149) := by
    rw [toReal_eq, signFactor_bne]
    cases neg <;> simp only [signFactor_true, signFactor_false] <;> ring
  rw [h, abs_signFactor_mul, abs_div, abs_of_pos (by positivity : (0 : ℝ) < 2 ^ 149)]

/-- A sign and the rounding of a magnitude are `rnd32` of the number they make (R8). -/
theorem isRnd32_signed {r x : ℝ} {neg : Bool} {b : Nat} (hx : 0 ≤ x) (hr : r = signFactor neg * (x / 2 ^ 149))
    (h : RoundsTo x b) : IsRnd32 r (signed neg b) := by
  have hU : (0 : ℝ) < 2 ^ 149 := by positivity
  have hxU : 0 ≤ x / 2 ^ 149 := by positivity
  have hb : b < 2 ^ 31 := lt_of_le_of_lt h.le_inf (by norm_num [infBits])
  have hsign : signBit (signed neg b) = neg := signBit_signed neg hb
  have hbits : lowBits (signed neg b) = b := lowBits_signed neg hb
  have habs : |r| = x / 2 ^ 149 := by rw [hr, abs_signFactor_mul, abs_of_nonneg hxU]
  have hself : |toReal (signed neg b) - r| = |(gridValue b : ℝ) - x| / 2 ^ 149 := by
    rw [hr, abs_toReal_sub, hsign, hbits, bne_self_eq_false, signFactor_false, one_mul]
  refine ⟨isNaN_signed neg h.le_inf, fun hneg => ?_, fun hpos => ?_, fun hov => ?_, fun hfin => ⟨?_, fun v hv => ?_⟩⟩
  · exact hsign.trans (eq_true_of_signFactor_mul_neg hxU (hr ▸ hneg))
  · exact hsign.trans (eq_false_of_signFactor_mul_pos hxU (hr ▸ hpos))
  · rw [habs, le_div_iff₀ hU] at hov
    rw [h.eq_infBits_iff.mpr hov]
    exact isInf_signed_infBits neg
  · rw [habs, div_lt_iff₀ hU] at hfin
    rw [isFinite_iff, hbits]
    exact lt_of_le_of_ne h.le_inf fun hi => absurd (h.eq_infBits_iff.mp hi) (not_le.mpr hfin)
  · obtain ⟨hle, heq⟩ := h.nearest_signed hx ((isFinite_iff v).mp hv).le (signFactor_mul_cases (neg != signBit v) _)
    rw [hself, hr, abs_toReal_sub v, div_le_div_iff_of_pos_right hU, div_left_inj' hU.ne']
    refine ⟨hle, fun he hne => getLsbD_zero_signed neg hb (heq he fun hv => hne ?_)⟩
    rw [toReal_eq, toReal_eq (signed neg b), hsign, hbits, ← hv, signFactor_bne, mul_assoc,
      mul_div_assoc (signFactor neg), ← mul_assoc, signFactor_mul_self, one_mul, mul_div_assoc]

/-- A number strictly between the midpoints to the neighbours of a magnitude, given a sign, is rounded to it. -/
theorem isRnd32_of_between_midpoints {r y : ℝ} {neg : Bool} {c : Nat} (hr : r = signFactor neg * y)
    (hc : c + 1 ≤ infBits) (hlo : (gridValue c + gridValue (c + 1) : ℝ) / 2 ^ 150 < y)
    (hhi : y < (gridValue (c + 1) + gridValue (c + 2) : ℝ) / 2 ^ 150) : IsRnd32 r (signed neg (c + 1)) := by
  have hy : 0 ≤ y := le_trans (by positivity) hlo.le
  rw [div_lt_iff₀ (by positivity), pow_succ' _ 149] at hlo
  rw [lt_div_iff₀ (by positivity), pow_succ' _ 149] at hhi
  refine isRnd32_signed (x := y * 2 ^ 149) (by positivity) ?_ ?_
  · rw [hr, mul_div_cancel_right₀ _ (by positivity)]
  · rw [← Nat.min_eq_left hc]
    refine roundsTo_min_of_neighbours (fun d hd => ?_) ⟨by linarith, fun h => by linarith⟩
    obtain rfl : d = c := Nat.succ_injective hd
    exact ⟨by linarith, fun h => by linarith⟩

/-! ### `roundBits` rounds to nearest, ties to even -/

/-- 24 bits and a remainder of less than a unit round up exactly when the remainder is more than half the unit, or half
of it after an odd last bit. -/
theorem roundsTo_of_remainder {e q : Nat} {f : ℝ} {up : Bool} (hq : q < 2 ^ 24) (he : e = 0 ∨ 2 ^ 23 ≤ q)
    (hf0 : 0 ≤ f) (hf1 : f < 1) (hup : up = true ↔ 1 < 2 * f ∨ 2 * f = 1 ∧ q % 2 = 1) :
    RoundsTo ((q + f) * 2 ^ e) (min (e * 2 ^ 23 + q + up.toNat) infBits) := by
  have hU : (0 : ℝ) < 2 ^ e := by positivity
  have hlow : (gridValue (e * 2 ^ 23 + q) : ℝ) = q * 2 ^ e := by
    exact_mod_cast gridValue_exp_add hq.le he
  have hhigh : (gridValue (e * 2 ^ 23 + q + 1) : ℝ) = (q + 1) * 2 ^ e := by
    have h := gridValue_exp_add (e := e) (q := q + 1) (by omega) (by omega)
    rw [← Nat.add_assoc] at h
    exact_mod_cast h
  have mono : ∀ n, (gridValue n : ℝ) < gridValue (n + 1) := fun n =>
    Nat.cast_lt.mpr (gridValue_strictMono (Nat.lt_succ_self n))
  cases up with
  | true =>
    have hhalf : 1 < 2 * f ∨ 2 * f = 1 ∧ q % 2 = 1 := hup.mp rfl
    have hf : 1 ≤ 2 * f := hhalf.elim le_of_lt fun h => h.1.ge
    refine roundsTo_min_of_neighbours (fun c hc => ?_) ?_
    · obtain rfl : c = e * 2 ^ 23 + q := Nat.succ_injective hc
      rw [Bool.toNat_true, hlow, hhigh]
      refine ⟨by nlinarith, fun h => ?_⟩
      have hfe : 2 * f = 1 := by nlinarith
      obtain hgt | ⟨-, hodd⟩ := hhalf
      · linarith
      · omega
    · have := mono (e * 2 ^ 23 + q + 1)
      rw [Bool.toNat_true]
      have hlt : 2 * ((q + f) * 2 ^ e) <
          (gridValue (e * 2 ^ 23 + q + 1) + gridValue (e * 2 ^ 23 + q + 1 + 1) : ℝ) := by nlinarith
      exact ⟨hlt.le, fun h => absurd h hlt.ne⟩
  | false =>
    have hhalf : ¬(1 < 2 * f ∨ 2 * f = 1 ∧ q % 2 = 1) := fun h => Bool.false_ne_true (hup.mpr h)
    have hf : 2 * f ≤ 1 := not_lt.mp fun h => hhalf (.inl h)
    refine roundsTo_min_of_neighbours (fun c hc => ?_) ?_
    · have := mono c
      rw [hc, Bool.toNat_false, Nat.add_zero, hlow] at *
      have hlt : (gridValue c + q * 2 ^ e : ℝ) < 2 * ((q + f) * 2 ^ e) := by nlinarith
      exact ⟨hlt.le, fun h => absurd h hlt.ne⟩
    · rw [Bool.toNat_false, Nat.add_zero, hlow, hhigh]
      refine ⟨by nlinarith, fun h => ?_⟩
      have hfe : 2 * f = 1 := by nlinarith
      have : ¬q % 2 = 1 := fun hodd => hhalf (.inr ⟨hfe, hodd⟩)
      omega

/-- The bits `roundBits` keeps: at most 24, and exactly 24 when it drops more than it must. -/
theorem keptBits_range {m s drop : Nat} (hdrop : drop = max s (m.log2 + 1 - 24)) :
    m / 2 ^ drop < 2 ^ 24 ∧ (drop - s = 0 ∨ 2 ^ 23 ≤ m / 2 ^ drop) := by
  constructor
  · rw [Nat.div_lt_iff_lt_mul (by positivity), ← pow_add]
    exact Nat.lt_log2_self.trans_le (Nat.pow_le_pow_right (by norm_num) (by omega))
  · by_cases h : drop - s = 0
    · exact .inl h
    · right
      have hm : m ≠ 0 := by
        rintro rfl
        rw [Nat.log2_zero] at hdrop
        omega
      rw [Nat.le_div_iff_mul_le (by positivity), ← pow_add]
      exact (Nat.pow_le_pow_right (by norm_num) (by omega)).trans (Nat.log2_self_le hm)

/-- `roundBits m s` is the rounding of m · 2^-(149+s) (R8). -/
theorem roundsTo_roundBits (m s : Nat) : RoundsTo (m / 2 ^ s) (roundBits m s) := by
  unfold roundBits
  dsimp only
  generalize hdrop : max s (m.log2 + 1 - 24) = drop
  obtain ⟨hq, he⟩ := keptBits_range hdrop.symm
  obtain ⟨e, rfl⟩ : ∃ e, drop = s + e := ⟨drop - s, by omega⟩
  rw [Nat.add_sub_cancel_left] at *
  have hD : (0 : ℝ) < 2 ^ (s + e) := by positivity
  have hrest : m % 2 ^ (s + e) < 2 ^ (s + e) := Nat.mod_lt _ (by positivity)
  have hx : (m / 2 ^ s : ℝ) = ((m / 2 ^ (s + e) : Nat) + (m % 2 ^ (s + e) : Nat) / 2 ^ (s + e)) * 2 ^ e := by
    have hm : (m : ℝ) = 2 ^ (s + e) * (m / 2 ^ (s + e) : Nat) + (m % 2 ^ (s + e) : Nat) := by
      exact_mod_cast (Nat.div_add_mod m (2 ^ (s + e))).symm
    rw [hm]
    rw [pow_add] at *
    field_simp
  rw [hx]
  refine roundsTo_of_remainder hq he (by positivity) ?_ ?_
  · rw [div_lt_one hD]
    exact_mod_cast hrest
  · rw [← mul_div_assoc, one_lt_div hD, div_eq_one_iff_eq hD.ne', Bool.or_eq_true, Bool.and_eq_true,
      decide_eq_true_eq, decide_eq_true_eq, beq_iff_eq]
    norm_cast

/-- A sign and the rounded bits of a magnitude are `rnd32` of the number they make. -/
theorem isRnd32_roundBits {r : ℝ} {neg : Bool} {m s : Nat} (hr : r = signFactor neg * (m / 2 ^ s / 2 ^ 149)) :
    IsRnd32 r (signed neg (roundBits m s)) :=
  isRnd32_signed (by positivity) hr (roundsTo_roundBits m s)

end Sys2Proof.Proofs
end

section
/-! PROOFS. binary32 arithmetic (R8): the fields of a negated word, the classes of words, and what each operation
answers on each class of operands. -/

namespace Sys2Proof.Proofs

open Sys2Proof.Machine Sys2Proof.Laws

/-! ### `fneg` -/

theorem signBit_eq_msb (w : Word) : signBit w = w.msb := by
  rw [BitVec.msb_eq_decide]
  rfl

@[simp] theorem signBit_fneg (w : Word) : signBit (fneg w) = !signBit w := by
  rw [signBit_eq_msb, signBit_eq_msb, fneg, BitVec.msb_xor]
  exact Bool.xor_true _

@[simp] theorem lowBits_fneg (w : Word) : lowBits (fneg w) = lowBits w := by
  unfold lowBits fneg
  rw [BitVec.toNat_xor, Nat.xor_mod_two_pow]
  exact Nat.xor_zero _

@[simp] theorem expField_fneg (w : Word) : expField (fneg w) = expField w := by
  rw [← lowBits_div, lowBits_fneg, lowBits_div]

@[simp] theorem fracField_fneg (w : Word) : fracField (fneg w) = fracField w := by
  rw [← lowBits_mod, lowBits_fneg, lowBits_mod]

@[simp] theorem isNaN_fneg (w : Word) : isNaN (fneg w) = isNaN w := by simp [isNaN]

@[simp] theorem isInf_fneg (w : Word) : isInf (fneg w) = isInf w := by simp [isInf]

@[simp] theorem isFinite_fneg (w : Word) : isFinite (fneg w) = isFinite w := by simp [isFinite]

theorem toReal_fneg (w : Word) : toReal (fneg w) = -toReal w := by
  rw [toReal_eq, toReal_eq, signBit_fneg, signFactor_not, lowBits_fneg]
  ring

/-! ### The classes of words -/

theorem isNaN_of_isFinite {w : Word} (h : isFinite w = true) : isNaN w = false := by
  unfold isFinite at h
  unfold isNaN
  rw [bne_iff_ne] at h
  rw [beq_false_of_ne h, Bool.false_and]

theorem isInf_of_isFinite {w : Word} (h : isFinite w = true) : isInf w = false := by
  unfold isFinite at h
  unfold isInf
  rw [bne_iff_ne] at h
  rw [beq_false_of_ne h, Bool.false_and]

theorem isNaN_of_isInf {w : Word} (h : isInf w = true) : isNaN w = false := by
  unfold isInf at h
  unfold isNaN
  rw [Bool.and_eq_true, beq_iff_eq, beq_iff_eq] at h
  rw [h.2, bne_self_eq_false, Bool.and_false]

/-! ### Sums and differences of finite words -/

theorem addResult_of_finite {a b : Word} (ha : isFinite a = true) (hb : isFinite b = true) :
    addResult a b =
      if scaledValue a + scaledValue b = 0 then some (signed (signBit a && signBit b) 0)
      else some (signed (decide (scaledValue a + scaledValue b < 0))
        (roundBits (scaledValue a + scaledValue b).natAbs 0)) := by
  simp [addResult, isNaN_of_isFinite ha, isNaN_of_isFinite hb, isInf_of_isFinite ha, isInf_of_isFinite hb]

/-- The exact sum of two finite words is a whole multiple of 2^-149. -/
theorem toReal_add (a b : Word) : toReal a + toReal b = ((scaledValue a + scaledValue b : Int) : ℝ) / 2 ^ 149 := by
  unfold toReal
  push_cast
  ring

theorem scaledValue_add_eq_zero_iff (a b : Word) : scaledValue a + scaledValue b = 0 ↔ toReal a + toReal b = 0 := by
  rw [toReal_add, div_eq_zero_iff, Int.cast_eq_zero]
  exact (or_iff_left (by positivity)).symm

/-- A whole number is its sign times its absolute value. -/
theorem intCast_eq_signFactor_mul (z : Int) : (z : ℝ) = signFactor (decide (z < 0)) * z.natAbs := by
  rw [Nat.cast_natAbs, Int.cast_abs]
  unfold signFactor
  by_cases h : z < 0
  · rw [if_pos (decide_eq_true h), abs_of_neg (Int.cast_lt_zero.mpr h)]
    ring
  · rw [if_neg (by simpa using h), abs_of_nonneg (Int.cast_nonneg (not_lt.mp h))]
    ring

/-- A nonzero sum of finite words is rounded once. -/
theorem isRnd32_fadd (d : Nat) {a b : Word} (ha : isFinite a = true) (hb : isFinite b = true)
    (h : toReal a + toReal b ≠ 0) : IsRnd32 (toReal a + toReal b) (fadd d a b) := by
  rw [fadd, addResult_of_finite ha hb, if_neg (mt (scaledValue_add_eq_zero_iff a b).mp h), orNaN_some]
  apply isRnd32_roundBits
  rw [toReal_add, intCast_eq_signFactor_mul, pow_zero, div_one, mul_div_assoc]

/-- A zero sum of finite words is −0.0 only if both are negative. -/
theorem fadd_eq_zero (d : Nat) {a b : Word} (ha : isFinite a = true) (hb : isFinite b = true)
    (h : toReal a + toReal b = 0) : fadd d a b = if signBit a && signBit b then 0x80000000#32 else 0#32 := by
  rw [fadd, addResult_of_finite ha hb, if_pos ((scaledValue_add_eq_zero_iff a b).mpr h), orNaN_some]
  cases signBit a && signBit b <;> rfl

/-- A difference is the sum with the second operand negated (R8). -/
theorem fsub_eq_fadd_fneg (d : Nat) (a b : Word) : fsub d a b = fadd d a (fneg b) := rfl

theorem toReal_sub (a b : Word) : toReal a - toReal b = toReal a + toReal (fneg b) := by
  rw [toReal_fneg, sub_eq_add_neg]

/-- Settles O32: a sum of finite words is a whole multiple of 2^-149, which `roundBits` rounds once; a difference is the
sum with the second sign inverted. -/
theorem additionRoundsOnceToNearestEven : Obligations.AdditionRoundsOnceToNearestEven := by
  intro d a b ha hb
  have hb' : isFinite (fneg b) = true := by rw [isFinite_fneg, hb]
  rw [toReal_sub, fsub_eq_fadd_fneg, ← signBit_fneg b]
  exact ⟨isRnd32_fadd d ha hb, fadd_eq_zero d ha hb, isRnd32_fadd d ha hb', fadd_eq_zero d ha hb'⟩

/-! ### Products of finite words -/

theorem fmul_of_finite (d : Nat) {a b : Word} (ha : isFinite a = true) (hb : isFinite b = true) :
    fmul d a b = signed (signBit a != signBit b) (roundBits (magnitude a * magnitude b) 149) := by
  simp [fmul, mulResult, isNaN_of_isFinite ha, isNaN_of_isFinite hb, isInf_of_isFinite ha, isInf_of_isFinite hb,
    orNaN_some]

/-- The exact product of two finite words is a whole multiple of 2^-298. -/
theorem toReal_mul (a b : Word) :
    toReal a * toReal b =
      signFactor (signBit a != signBit b) * ((magnitude a * magnitude b : Nat) / 2 ^ 149 / 2 ^ 149) := by
  unfold toReal
  rw [scaledValue_eq, scaledValue_eq, signFactor_bne]
  push_cast
  ring

/-- Settles O33: the product of the magnitudes is a whole multiple of 2^-298, which `roundBits` rounds once under the
product's sign. -/
theorem multiplicationRoundsOnceToNearestEven : Obligations.MultiplicationRoundsOnceToNearestEven := by
  intro d a b ha hb
  rw [fmul_of_finite d ha hb]
  exact ⟨isRnd32_roundBits (toReal_mul a b), signBit_signed _ (roundBits_lt _ _)⟩

/-! ### NaN, infinity and zero operands (R8, R145) -/

section Special

variable (d : Nat) {a b : Word}

theorem fadd_of_nan (h : isNaN a = true ∨ isNaN b = true) : isNaN (fadd d a b) = true := by
  rw [fadd, addResult, if_pos (Bool.or_eq_true_iff.mpr h)]
  exact isNaN_nanOf _

theorem fmul_of_nan (h : isNaN a = true ∨ isNaN b = true) : isNaN (fmul d a b) = true := by
  rw [fmul, mulResult, if_pos (Bool.or_eq_true_iff.mpr h)]
  exact isNaN_nanOf _

theorem addResult_of_inf (ha : isInf a = true) (hb : isNaN b = false) :
    addResult a b = if isInf b && signBit a != signBit b then none else some a := by
  simp [addResult, isNaN_of_isInf ha, hb, ha]

/-- Infinities of unlike signs have no sum. -/
theorem fadd_of_infs_of_ne (ha : isInf a = true) (hb : isInf b = true) (h : signBit a ≠ signBit b) :
    isNaN (fadd d a b) = true := by
  rw [fadd, addResult_of_inf ha (isNaN_of_isInf hb), if_pos (by simp [hb, h])]
  exact isNaN_nanOf _

theorem fadd_of_infs_of_eq (ha : isInf a = true) (hb : isInf b = true) (h : signBit a = signBit b) :
    fadd d a b = a := by
  rw [fadd, addResult_of_inf ha (isNaN_of_isInf hb), if_neg (by simp [h]), orNaN_some]

theorem fadd_of_inf_of_finite (ha : isInf a = true) (hb : isFinite b = true) : fadd d a b = a := by
  rw [fadd, addResult_of_inf ha (isNaN_of_isFinite hb), if_neg (by simp [isInf_of_isFinite hb]), orNaN_some]

theorem fadd_of_finite_of_inf (ha : isFinite a = true) (hb : isInf b = true) : fadd d a b = b := by
  simp [fadd, addResult, isNaN_of_isFinite ha, isNaN_of_isInf hb, isInf_of_isFinite ha, hb, orNaN_some]

/-- An infinity and a zero have no product, in either order. -/
theorem fmul_of_inf_of_zero (h : isInf a = true ∧ isZero b = true ∨ isZero a = true ∧ isInf b = true) :
    isNaN (fmul d a b) = true := by
  have hinf : (isInf a || isInf b) = true := by rcases h with h | h <;> simp [h]
  have hzero : (isZero a || isZero b) = true := by rcases h with h | h <;> simp [h]
  by_cases hn : isNaN a = true ∨ isNaN b = true
  · exact fmul_of_nan d hn
  · rw [fmul, mulResult, if_neg (by rwa [Bool.or_eq_true_iff]), if_pos hinf, if_pos hzero]
    exact isNaN_nanOf _

/-- An infinity times anything but a NaN or a zero is an infinity, in either order. -/
theorem fmul_of_inf (hn : isNaN a = false ∧ isNaN b = false) (hz : isZero a = false ∧ isZero b = false)
    (hinf : isInf a = true ∨ isInf b = true) : fmul d a b = signed (signBit a != signBit b) infBits := by
  rw [fmul, mulResult, if_neg (by simp [hn]), if_pos (Bool.or_eq_true_iff.mpr hinf), if_neg (by simp [hz]),
    orNaN_some]

end Special

theorem isZero_of_isInf {w : Word} (h : isInf w = true) : isZero w = false := by
  unfold isZero
  cases hf : isFinite w with
  | false => rfl
  | true => exact absurd h (by rw [isInf_of_isFinite hf]; exact Bool.false_ne_true)

theorem getLsbD_fneg (a : Word) {b : Nat} (hb : b < 32) :
    (fneg a).getLsbD b = if b = 31 then !a.getLsbD b else a.getLsbD b := by
  have hmask : (0x80000000#32).getLsbD b = decide (b = 31) := by
    interval_cases b <;> rfl
  rw [fneg, BitVec.getLsbD_xor, hmask]
  by_cases h : b = 31 <;> simp [h]

/-- Settles O34: each clause is one class of operands of `addResult` and `mulResult`; a difference is the sum with the
second operand negated, which is in the same class with the other sign. -/
theorem specialValuesFollowIEEE : Obligations.SpecialValuesFollowIEEE := by
  refine ⟨fun d a b h => ?_, fun d a b ha hb => ?_, fun d a b ha hb => ?_, fun d a b ha hn hz => ?_,
    fun a b hb => getLsbD_fneg a hb⟩
  · exact ⟨fadd_of_nan d h, fadd_of_nan d (by rwa [isNaN_fneg]), fmul_of_nan d h⟩
  · have hb' : isInf (fneg b) = true := by rwa [isInf_fneg]
    refine ⟨fadd_of_infs_of_ne d ha hb, fadd_of_infs_of_eq d ha hb, fun h => ?_, fun h => ?_⟩
    · exact fadd_of_infs_of_ne d ha hb' (by simp [h])
    · exact fadd_of_infs_of_eq d ha hb' (by simpa using Bool.eq_not_of_ne h)
  · exact ⟨fadd_of_inf_of_finite d ha hb, fadd_of_finite_of_inf d hb ha,
      fadd_of_inf_of_finite d ha (by rwa [isFinite_fneg]), fadd_of_finite_of_inf d hb (by rwa [isInf_fneg]),
      fun hz => ⟨fmul_of_inf_of_zero d (.inl ⟨ha, hz⟩), fmul_of_inf_of_zero d (.inr ⟨hz, ha⟩)⟩⟩
  · have han := isNaN_of_isInf ha
    have haz := isZero_of_isInf ha
    have hlt : infBits < 2 ^ 31 := by norm_num [infBits]
    rw [fmul_of_inf d ⟨han, hn⟩ ⟨haz, hz⟩ (.inl ha), fmul_of_inf d ⟨hn, han⟩ ⟨hz, haz⟩ (.inr ha),
      signBit_signed _ hlt, signBit_signed _ hlt]
    exact ⟨isInf_signed_infBits _, isInf_signed_infBits _, rfl, bne_comm⟩

end Sys2Proof.Proofs
end

section
/-! PROOFS. The kernel constants (R8): each cosine lies strictly between the midpoints to the neighbours of its
constant. -/

namespace Sys2Proof.Proofs

open Sys2Proof.Machine

theorem sqrt_two_bounds : 1.41421356237 < √2 ∧ √2 < (1.41421356238 : ℝ) :=
  ⟨(Real.lt_sqrt (by norm_num)).mpr (by norm_num), (Real.sqrt_lt' (by norm_num)).mpr (by norm_num)⟩

theorem cos_pi_div_eight_bounds : 0.9238795325 < Real.cos (Real.pi / 8) ∧ Real.cos (Real.pi / 8) < 0.9238795326 := by
  obtain ⟨hlo, hhi⟩ := sqrt_two_bounds
  rw [Real.cos_pi_div_eight, lt_div_iff₀ two_pos, div_lt_iff₀ two_pos, Real.lt_sqrt (by norm_num),
    Real.sqrt_lt' (by norm_num)]
  constructor <;> linarith

theorem cos_two_pi_div_eight_bounds :
    0.7071067811 < Real.cos (2 * Real.pi / 8) ∧ Real.cos (2 * Real.pi / 8) < 0.7071067812 := by
  obtain ⟨hlo, hhi⟩ := sqrt_two_bounds
  rw [show 2 * Real.pi / 8 = Real.pi / 4 by ring, Real.cos_pi_div_four]
  constructor <;> linarith

theorem cos_three_pi_div_eight_bounds :
    0.3826834323 < Real.cos (3 * Real.pi / 8) ∧ Real.cos (3 * Real.pi / 8) < 0.3826834324 := by
  obtain ⟨hlo, hhi⟩ := sqrt_two_bounds
  rw [show 3 * Real.pi / 8 = Real.pi / 2 - Real.pi / 8 by ring, Real.cos_pi_div_two_sub, Real.sin_pi_div_eight,
    lt_div_iff₀ two_pos, div_lt_iff₀ two_pos, Real.lt_sqrt (by norm_num), Real.sqrt_lt' (by norm_num)]
  constructor <;> linarith

theorem isRnd32_C1 : IsRnd32 (Real.cos (Real.pi / 8)) C1 :=
  isRnd32_of_between_midpoints (neg := false) (c := 0x3F6C835D) (by simp [signFactor]) (by norm_num [infBits])
    (lt_trans (by norm_num [gridValue]) cos_pi_div_eight_bounds.1)
    (cos_pi_div_eight_bounds.2.trans (by norm_num [gridValue]))

theorem isRnd32_C2 : IsRnd32 (Real.cos (2 * Real.pi / 8)) C2 :=
  isRnd32_of_between_midpoints (neg := false) (c := 0x3F3504F2) (by simp [signFactor]) (by norm_num [infBits])
    (lt_trans (by norm_num [gridValue]) cos_two_pi_div_eight_bounds.1)
    (cos_two_pi_div_eight_bounds.2.trans (by norm_num [gridValue]))

theorem isRnd32_C3 : IsRnd32 (Real.cos (3 * Real.pi / 8)) C3 :=
  isRnd32_of_between_midpoints (neg := false) (c := 0x3EC3EF14) (by simp [signFactor]) (by norm_num [infBits])
    (lt_trans (by norm_num [gridValue]) cos_three_pi_div_eight_bounds.1)
    (cos_three_pi_div_eight_bounds.2.trans (by norm_num [gridValue]))

theorem toReal_HALF : toReal HALF = 1 / 2 := by
  have h : scaledValue HALF = 2 ^ 148 := rfl
  norm_num [toReal, h]

/-- Settles O35: the cosines are closed forms by square roots; ten digits of them decide the midpoints. -/
theorem kernelConstantsNearestToCosines : Obligations.KernelConstantsNearestToCosines :=
  ⟨isRnd32_C1, isRnd32_C2, isRnd32_C3, toReal_HALF⟩

end Sys2Proof.Proofs
end

section
/-! PROOFS. The step on a command write and without a transaction (R14, R66, R156). -/

namespace Sys2Proof.Proofs

open Sys2Proof.Machine Sys2Proof.Laws

/-- Settles O6: a write to CMD issues its word, and with no error pending a decodable word is executed. -/
theorem stepRunsDecodedCommand : Obligations.StepRunsDecodedCommand := by
  intro s rest w i herr hdec
  rw [step_cmdWrite]
  obtain ⟨h, -⟩ | ⟨-, e, he, -⟩ | ⟨-, j, hj, hissue⟩ := issue_cases { s with pending := rest } w
  · exact absurd h (by simp [herr])
  · exact absurd (hdec.symm.trans he) (by simp)
  · obtain rfl : i = j := by simpa using hdec.symm.trans hj
    exact hissue

/-- Settles O7: with nothing pending the host's step is the state itself. -/
theorem stepWithoutTransactionHoldsState : Obligations.StepWithoutTransactionHoldsState := by
  intro s h
  rw [step, State.hostStep, h]

end Sys2Proof.Proofs
end

section
/-! PROOFS. What one step of the machine can do, said once (R14, R41, R42, R161). -/

namespace Sys2Proof.Proofs

open Sys2Proof.Machine Sys2Proof.Laws

/-- The state a step leaves, one constructor for each kind of event at the host port. -/
inductive StepResult (s : State) : State → Prop where
  /-- No transaction waits (R156). -/
  | idle (hp : s.pending = []) : StepResult s s
  /-- The hardware reset (R161). -/
  | reset {rest : List HostOp} (hp : s.pending = .reset :: rest) :
      StepResult s (State.hardReset { s with pending := rest })
  /-- A read, which only tells the host a word (R41). -/
  | read {rest : List HostOp} {a : BitVec 24} (hp : s.pending = .read a 4 :: rest) :
      StepResult s { s with pending := rest, replies := s.memRead a :: s.replies }
  /-- A write to STATUS (R25). -/
  | writeStatus {rest : List HostOp} {v : Word} (hp : s.pending = .write 0x000008#24 4 v :: rest) :
      StepResult s (State.writeStatus { s with pending := rest } v)
  /-- A write to CMD, whose word is issued (R26, R66). -/
  | writeCmd {rest : List HostOp} {w : Word} {t : State} (hp : s.pending = .write 0x00000C#24 4 w :: rest)
      (hissue : State.issue { s with pending := rest } w = .next t) : StepResult s t
  /-- A write to BASE (R27). -/
  | writeBase {rest : List HostOp} {v : Word} (hp : s.pending = .write 0x000010#24 4 v :: rest) :
      StepResult s (State.writeBase { s with pending := rest } v)
  /-- A write to a word of BUF (R44). -/
  | writeBuf {rest : List HostOp} {a : BitVec 24} {w : Nat} {v : Word} (hp : s.pending = .write a 4 v :: rest)
      (ha : a.toNat = bufAddr w) (hw : w < s.bufWords) : StepResult s (State.setBufWord { s with pending := rest } w v)
  /-- A write anywhere else, which is ignored (R43). -/
  | ignored {rest : List HostOp} {a : BitVec 24} {v : Word} (hp : s.pending = .write a 4 v :: rest) :
      StepResult s { s with pending := rest }

theorem contract_eq_none {a : BitVec 24} {bytes : Nat} : contract a bytes = none ↔ bytes = 4 ∧ a.toNat % 4 = 0 := by
  unfold contract
  split
  · simp_all
  · split <;> simp_all

theorem step_of_pending {s : State} {op : HostOp} {rest : List HostOp} (hp : s.pending = op :: rest) :
    step s = State.perform { s with pending := rest } op := by
  rw [step, State.hostStep, hp]

/-- A transaction performed was inside the contract (R47). -/
theorem perform_read_next {s t : State} {a : BitVec 24} {bytes : Nat} (h : s.perform (.read a bytes) = .next t) :
    bytes = 4 ∧ t = { s with replies := s.memRead a :: s.replies } := by
  unfold State.perform at h
  cases hc : contract a bytes with
  | some r => simp [hc] at h
  | none => exact ⟨(contract_eq_none.1 hc).1, by simpa [hc, eq_comm] using h⟩

theorem perform_write_next {s t : State} {a : BitVec 24} {bytes : Nat} {v : Word}
    (h : s.perform (.write a bytes v) = .next t) :
    bytes = 4 ∧ a.toNat % 4 = 0 ∧ s.memWrite a v = .next t := by
  unfold State.perform at h
  cases hc : contract a bytes with
  | some r => simp [hc] at h
  | none =>
    obtain ⟨h4, ha⟩ := contract_eq_none.1 hc
    exact ⟨h4, ha, by simpa [hc] using h⟩

/-- The one inversion of the step. -/
theorem stepResult_of_step {s t : State} (h : step s = .next t) : StepResult s t := by
  cases hp : s.pending with
  | nil =>
    rw [step, State.hostStep, hp] at h
    cases h
    exact .idle hp
  | cons op rest =>
    rw [step_of_pending hp] at h
    cases op with
    | reset =>
      cases h
      exact .reset hp
    | read a bytes =>
      obtain ⟨rfl, rfl⟩ := perform_read_next h
      exact .read hp
    | write a bytes v =>
      obtain ⟨rfl, ha, hw⟩ := perform_write_next h
      simp only [State.memWrite] at hw
      split at hw
      · rename_i hst
        obtain rfl : a = 0x000008#24 := BitVec.eq_of_toNat_eq hst
        cases hw
        exact .writeStatus hp
      split at hw
      · rename_i hcmd
        obtain rfl : a = 0x00000C#24 := BitVec.eq_of_toNat_eq hcmd
        exact .writeCmd hp hw
      split at hw
      · rename_i hbase
        obtain rfl : a = 0x000010#24 := BitVec.eq_of_toNat_eq hbase
        cases hw
        exact .writeBase hp
      split at hw
      · rename_i hbuf
        cases hw
        exact .writeBuf hp (by unfold bufAddr; omega) hbuf.2.2
      · cases hw
        exact .ignored hp

end Sys2Proof.Proofs
end

section
/-! PROOFS. The invariant of the machine (R25, R28, R31, R48): the memory's half, the error record's half, and every step
keeps both. -/

namespace Sys2Proof.Proofs

open Sys2Proof.Machine Sys2Proof.Laws

/-! ### BUF holds whole words of its own, in canonical form -/

/-- The memory's half of `State.Inv`, for a BUF of `words` words. -/
structure HoldsWords (words : Nat) (m : Memory) : Prop where
  canonical : m.wf = true
  inside : ∀ e ∈ m, bufAddr 0 ≤ e.1 ∧ e.1 < bufAddr words
  whole : ∀ a, (m.get? a).isSome = true → ∀ j, j < 4 → (m.get? (a / 4 * 4 + j)).isSome = true

theorem holdsWords_nil (words : Nat) : HoldsWords words [] where
  canonical := rfl
  inside := by simp
  whole := by simp [Memory.get?]

/-- The bytes listed after a word write. -/
theorem isSome_get?_writeWord {m : Memory} {w : Nat} {v : Word} {a : Nat} :
    ((m.writeWord w v).get? a).isSome = true ↔
      (bufAddr w ≤ a ∧ a < bufAddr w + 4) ∨ (m.get? a).isSome = true := by
  simp only [Memory.writeWord, Memory.writeWordAt, get?_set]
  by_cases h : bufAddr w ≤ a ∧ a < bufAddr w + 4
  · obtain h' | h' | h' | h' : a = bufAddr w ∨ a = bufAddr w + 1 ∨ a = bufAddr w + 2 ∨ a = bufAddr w + 3 := by omega
    all_goals simp [h']
  · rw [if_neg (by omega), if_neg (by omega), if_neg (by omega), if_neg (by omega)]
    simp [h]

theorem HoldsWords.writeWord {words w : Nat} {m : Memory} (h : HoldsWords words m) (hw : w < words) (v : Word) :
    HoldsWords words (m.writeWord w v) where
  canonical := wf_writeWord h.canonical w v
  inside e he := by
    rcases mem_writeWord he with hnew | hold
    · unfold bufAddr at hnew ⊢
      omega
    · exact h.inside e hold
  whole a ha j hj := by
    rw [isSome_get?_writeWord] at ha ⊢
    rcases ha with hnew | hold
    · left
      unfold bufAddr at hnew ⊢
      omega
    · exact .inr (h.whole a hold j hj)

theorem HoldsWords.run {words base lo hi : Nat} {b : List Assign} (epoch : Nat) (T : Nat → Word)
    (hb : ∀ a ∈ b, writesWithin lo hi a) (hhi : base + hi ≤ words) {p : Datapath} (h : HoldsWords words p.mem) :
    HoldsWords words (p.run epoch base T b).mem := by
  induction b generalizing p with
  | nil => exact h
  | cons a b ih =>
    rw [run_cons]
    have ha := hb a List.mem_cons_self
    refine ih (fun a ha => hb a (List.mem_cons_of_mem _ ha)) ?_
    cases a with
    | setX i e => exact h.writeWord (by simp only [writesWithin] at ha; omega) _
    | setR k e => simpa only [Datapath.assign, setTemp_mem] using h

/-! ### The error record -/

/-- The error record's half of `State.Inv`: empty exactly when no error is pending. -/
structure RecordMatches (errv : Bool) (code : ErrCode) (cmd : Word) : Prop where
  empty : errv = false → code = .noError ∧ cmd = 0#32
  coded : errv = true → code ≠ .noError

theorem recordMatches_empty : RecordMatches false .noError 0#32 where
  empty _ := ⟨rfl, rfl⟩
  coded h := absurd h (by decide)

theorem recordMatches_raised {code : ErrCode} (h : code ≠ .noError) (cmd : Word) : RecordMatches true code cmd where
  empty h := absurd h (by decide)
  coded _ := h

theorem decodeErrCode_ne_noError (e : DecodeError) : decodeErrCode e ≠ .noError := by
  cases e <;> decide

/-! ### The two halves together -/

theorem inv_iff {s : State} :
    s.Inv ↔ HoldsWords s.bufWords s.buf ∧ RecordMatches s.errv s.errcode s.errcmd :=
  ⟨fun h => ⟨⟨h.canonical, h.insideBuf, h.wholeWords⟩, ⟨h.recordEmpty, h.recordCoded⟩⟩,
    fun ⟨⟨hc, hi, hw⟩, ⟨he, hd⟩⟩ => ⟨hc, hi, hw, he, hd⟩⟩

theorem inv_raiseError {s : State} (h : s.Inv) {code : ErrCode} (hc : code ≠ .noError) (w : Word) :
    (s.raiseError code w).Inv :=
  inv_iff.2 ⟨(inv_iff.1 h).1, recordMatches_raised hc w⟩

theorem inv_clearError {s : State} (h : s.Inv) : s.clearError.Inv :=
  inv_iff.2 ⟨(inv_iff.1 h).1, recordMatches_empty⟩

/-- The invariant says nothing of DROP. -/
theorem inv_withDrop {s : State} (h : s.Inv) (drop : Bool) : State.Inv { s with drop } :=
  inv_iff.2 ⟨(inv_iff.1 h).1, (inv_iff.1 h).2⟩

theorem inv_writeStatus {s : State} (h : s.Inv) (v : Word) : (s.writeStatus v).Inv := by
  have hbit0 : State.Inv (if v.getLsbD 0 then s.clearError else s) := by
    split
    · exact inv_clearError h
    · exact h
  simp only [State.writeStatus]
  split
  · exact inv_withDrop hbit0 false
  · exact hbit0

theorem inv_discard {s : State} (h : s.Inv) (w : Word) : (s.discard w).Inv := by
  unfold State.discard
  split
  · exact inv_withDrop h true
  · exact h

theorem inv_setSlot {s : State} (h : s.Inv) (k : SlotId) (x : Slot) : (s.setSlot k x).Inv := by
  rw [inv_iff] at h ⊢
  simpa [State.bufWords] using h

theorem inv_setBufWord {s : State} (h : s.Inv) {w : Nat} (hw : w < s.bufWords) (v : Word) : (s.setBufWord w v).Inv :=
  inv_iff.2 ⟨(inv_iff.1 h).1.writeWord hw v, (inv_iff.1 h).2⟩

theorem inv_runBody {s : State} (h : s.Inv) {base lo hi : Nat} (T : Nat → Word) {b : List Assign}
    (hb : ∀ a ∈ b, writesWithin lo hi a) (hhi : base + hi ≤ s.bufWords) : (s.runBody base T b).Inv :=
  inv_iff.2 ⟨HoldsWords.run s.bufEpoch T hb hhi (p := s.datapath) (inv_iff.1 h).1, (inv_iff.1 h).2⟩

theorem inv_hardReset (s : State) : s.hardReset.Inv :=
  inv_iff.2 ⟨holdsWords_nil _, recordMatches_empty⟩

theorem inv_exec {i : Instr} {s t : State} (h : s.Inv) (he : exec i s = .next t) : t.Inv := by
  rcases exec_cases i s with ⟨code, hc, heq⟩ | heq | ⟨k, x, -, heq⟩ | ⟨T, b, lo, hi, heq, hb, hhi⟩ <;>
    obtain rfl := Host.Outcome.next.inj (heq.symm.trans he)
  · exact inv_raiseError h hc _
  · exact h
  · exact inv_setSlot h k x
  · exact inv_runBody h T hb hhi

theorem inv_issue {s t : State} (h : s.Inv) {w : Word} (hi : s.issue w = .next t) : t.Inv := by
  rcases issue_cases s w with ⟨-, heq⟩ | ⟨-, e, -, heq⟩ | ⟨-, i, -, heq⟩ <;> rw [heq] at hi
  · cases hi
    exact inv_discard h w
  · cases hi
    exact inv_raiseError h (decodeErrCode_ne_noError e) w
  · exact inv_exec h hi

/-- The invariant says nothing of the host's side of the port. -/
theorem inv_withPort {s : State} (h : s.Inv) (pending : List HostOp) (replies : List Word) :
    State.Inv { s with pending, replies } :=
  inv_iff.2 ⟨(inv_iff.1 h).1, (inv_iff.1 h).2⟩

theorem inv_writeBase {s : State} (h : s.Inv) (v : Word) : (s.writeBase v).Inv :=
  inv_iff.2 ⟨(inv_iff.1 h).1, (inv_iff.1 h).2⟩

/-- Settles O56: BUF lists nothing and the record is empty. -/
theorem invariantHoldsAtReset : Obligations.InvariantHoldsAtReset :=
  inv_iff.2 ⟨holdsWords_nil _, recordMatches_empty⟩

/-- Settles O57: each event at the port keeps both halves; a body of a command writes only words inside BUF. -/
theorem everyStepKeepsInvariant : Obligations.EveryStepKeepsInvariant := by
  intro s t h hstep
  have hport : ∀ rest, State.Inv { s with pending := rest } := fun rest => inv_withPort h rest s.replies
  cases stepResult_of_step hstep with
  | idle => exact h
  | reset => exact inv_hardReset _
  | read => exact inv_withPort h _ _
  | writeStatus => exact inv_writeStatus (hport _) _
  | writeCmd _ hissue => exact inv_issue (hport _) hissue
  | writeBase => exact inv_writeBase (hport _) _
  | @writeBuf rest _ _ _ _ _ hw => exact inv_setBufWord (hport rest) hw _
  | ignored => exact hport _

end Sys2Proof.Proofs
end

section
/-! PROOFS. The registers (R22 to R29, R32): which bits their words show, and which events change them. -/

namespace Sys2Proof.Proofs

open Sys2Proof.Machine Sys2Proof.Laws

/-! ### Bits of a word packed from two fields -/

/-- A word packed from a field of `i` bits and one above it shows the low field below bit `i`, the high one from it on. -/
theorem getLsbD_ofNat_pack {lo hi i b : Nat} (hlo : lo < 2 ^ i) :
    (BitVec.ofNat 32 (lo + hi * 2 ^ i)).getLsbD b =
      (decide (b < 32) && if b < i then lo.testBit b else hi.testBit (b - i)) := by
  rw [BitVec.getLsbD_ofNat, Nat.add_comm, Nat.mul_comm, Nat.testBit_two_pow_mul_add hi hlo]

/-- A field of fewer than `k` bits shows nothing at bit `k` or above. -/
theorem testBit_of_lt_of_le {x k b : Nat} (hx : x < 2 ^ k) (hk : k ≤ b) : x.testBit b = false :=
  Nat.testBit_lt_two_pow (hx.trans_le (Nat.pow_le_pow_right two_pos hk))

/-! ### STATUS (R25, R141) -/

theorem errCode_toNat_lt (c : ErrCode) : c.toNat < 2 ^ 3 := by cases c <;> decide

theorem flags_lt (e d : Bool) : e.toNat + d.toNat * 2 < 2 ^ 2 := by cases e <;> cases d <;> decide

theorem statusWord_toNat (s : State) :
    s.statusWord.toNat = s.errv.toNat + s.drop.toNat * 2 + s.errcode.toNat * 2 ^ 8 := by
  have hf := flags_lt s.errv s.drop
  have hc := errCode_toNat_lt s.errcode
  rw [State.statusWord, BitVec.toNat_ofNat]
  omega

/-- Below bit 8 STATUS shows the two flags, from bit 8 on the code. -/
theorem statusWord_getLsbD (s : State) (b : Nat) :
    s.statusWord.getLsbD b = (decide (b < 32) &&
      if b < 8 then (s.errv.toNat + s.drop.toNat * 2).testBit b else s.errcode.toNat.testBit (b - 8)) :=
  getLsbD_ofNat_pack ((flags_lt _ _).trans (by norm_num))

theorem statusWord_errv (s : State) : s.statusWord.getLsbD 0 = s.errv := by
  rw [statusWord_getLsbD]
  cases s.errv <;> cases s.drop <;> rfl

theorem statusWord_drop (s : State) : s.statusWord.getLsbD 1 = s.drop := by
  rw [statusWord_getLsbD]
  cases s.errv <;> cases s.drop <;> rfl

theorem statusWord_errcode (s : State) : s.statusWord.extractLsb' 8 4 = BitVec.ofNat 4 s.errcode.toNat := by
  have hf := flags_lt s.errv s.drop
  apply BitVec.eq_of_toNat_eq
  rw [BitVec.extractLsb'_toNat, statusWord_toNat, BitVec.toNat_ofNat, Nat.shiftRight_eq_div_pow,
    Nat.add_mul_div_right _ _ (by norm_num), Nat.div_eq_of_lt (by omega), Nat.zero_add]

theorem statusWord_zero (s : State) {b : Nat} (hb : (2 ≤ b ∧ b < 8) ∨ 12 ≤ b) : s.statusWord.getLsbD b = false := by
  rw [statusWord_getLsbD]
  rcases hb with ⟨h2, h8⟩ | h12
  · rw [if_pos h8, testBit_of_lt_of_le (flags_lt _ _) h2, Bool.and_false]
  · rw [if_neg (by omega), testBit_of_lt_of_le (errCode_toNat_lt _) (by omega), Bool.and_false]

/-- The W1C update of STATUS, field by field (R25). -/
theorem writeStatus_eq (s : State) (v : Word) : s.writeStatus v =
    { s with
      errv := if v.getLsbD 0 then false else s.errv
      errcode := if v.getLsbD 0 then .noError else s.errcode
      errcmd := if v.getLsbD 0 then 0#32 else s.errcmd
      drop := if v.getLsbD 1 then false else s.drop } := by
  unfold State.writeStatus State.clearError
  split <;> split <;> rfl

/-- Settles O14: the word is packed from the flags and the code; the write is `writeStatus`. -/
theorem statusReadsFlagsAndClearsByOne : Obligations.StatusReadsFlagsAndClearsByOne := by
  refine ⟨⟨rfl, rfl, rfl, rfl, rfl, rfl, rfl⟩, fun s => ?_, fun s rest v => ?_⟩
  · exact ⟨statusWord_errv s, statusWord_drop s, statusWord_errcode s, fun b hb => statusWord_zero s hb⟩
  · rw [step_statusWrite, writeStatus_eq]

/-! ### BASE (R27) -/

/-- A command changes neither BASE nor DROP (R27, R32). -/
theorem exec_baseIdx_drop {i : Instr} {s t : State} (h : exec i s = .next t) :
    t.baseIdx = s.baseIdx ∧ t.drop = s.drop := by
  rcases exec_cases i s with ⟨code, -, heq⟩ | heq | ⟨k, x, -, heq⟩ | ⟨T, b, lo, hi, heq, -⟩ <;>
    obtain rfl := Host.Outcome.next.inj (heq.symm.trans h)
  · exact ⟨raiseError_baseIdx .., raiseError_drop ..⟩
  · exact ⟨rfl, rfl⟩
  · exact ⟨setSlot_baseIdx .., setSlot_drop ..⟩
  · exact ⟨runBody_baseIdx .., runBody_drop ..⟩

theorem issue_baseIdx {s t : State} {w : Word} (h : s.issue w = .next t) : t.baseIdx = s.baseIdx := by
  rcases issue_cases s w with ⟨-, heq⟩ | ⟨-, e, -, heq⟩ | ⟨-, i, -, heq⟩ <;> rw [heq] at h
  · cases h
    exact discard_baseIdx ..
  · cases h
    exact raiseError_baseIdx ..
  · exact (exec_baseIdx_drop h).1

theorem step_baseIdx {s t : State} (h : step s = .next t) (hne : t.baseIdx ≠ s.baseIdx) :
    ∃ rest, s.pending = .reset :: rest ∨ ∃ v, s.pending = .write 0x000010#24 4 v :: rest := by
  cases stepResult_of_step h with
  | reset hp => exact ⟨_, .inl hp⟩
  | writeBase hp => exact ⟨_, .inr ⟨_, hp⟩⟩
  | writeStatus => exact absurd (writeStatus_baseIdx ..) hne
  | writeCmd _ hissue => exact absurd (issue_baseIdx hissue) hne
  | idle | read | writeBuf | ignored => exact absurd rfl hne

/-- Settles O15: of all events at the port only a write to BASE and the reset touch the register. -/
theorem baseHoldsTwentyBits : Obligations.BaseHoldsTwentyBits := by
  refine ⟨rfl, fun s => ⟨?_, fun b hb => ?_⟩, fun s rest v => ?_, fun i s t h => (exec_baseIdx_drop h).1,
    fun s t => step_baseIdx⟩
  · rw [State.baseWord, BitVec.extractLsb'_setWidth_of_le (by norm_num), BitVec.extractLsb'_eq_self]
  · rw [State.baseWord, BitVec.getLsbD_setWidth, BitVec.getLsbD_of_ge _ _ hb, Bool.and_false]
  · rw [step_baseWrite, ← BitVec.setWidth_eq_extractLsb' (by norm_num)]
    rfl

/-! ### Ignored writes (R42, R43) and the read-only registers (R23, R24, R29) -/

/-- An aligned write to no register a write does something to, and to no word of BUF, only leaves the host's list. -/
theorem step_ignoredWrite (s : State) (rest : List HostOp) {a : BitVec 24} (v : Word) (h4 : a.toNat % 4 = 0)
    (hreg : a.toNat ∉ [addrStatus, addrCmd, addrBase])
    (hbuf : a.toNat < 0x400000 ∨ 0x400000 + 4 * s.bufWords ≤ a.toNat) :
    step { s with pending := .write a 4 v :: rest } = .next { s with pending := rest } := by
  simp only [List.mem_cons, List.not_mem_nil, or_false, not_or] at hreg
  obtain ⟨hst, hcmd, hbase⟩ := hreg
  rw [step_of_pending rfl]
  simp only [State.perform, contract_eq_none.2 ⟨rfl, h4⟩, State.memWrite]
  rw [if_neg hst, if_neg hcmd, if_neg hbase, if_neg]
  rintro ⟨hlo, -, hw⟩
  rw [show State.bufWords { s with pending := rest } = s.bufWords from rfl] at hw
  omega

/-- Settles O10: none of the four write arms of the port takes such an address. -/
theorem hostWriteElsewhereIgnored : Obligations.HostWriteElsewhereIgnored := by
  intro s rest a v ha h4 hreg hbuf
  have ht : (BitVec.ofNat 24 a).toNat = a := by rw [BitVec.toNat_ofNat, Nat.mod_eq_of_lt ha]
  exact step_ignoredWrite s rest v (by rwa [ht]) (by rwa [ht]) (by rwa [ht])

/-- The fields of PARAM, for each of the eight sizes of BUF. -/
theorem paramWord_fields (s : State) :
    s.paramWord.extractLsb' 0 8 = 6#8 ∧ s.paramWord.extractLsb' 8 8 = 13#8 ∧ s.paramWord.extractLsb' 16 4 = 2#4 ∧
      (s.paramWord.extractLsb' 20 8).toNat = 13 + s.bufSize.val ∧ s.paramWord.extractLsb' 28 4 = 1#4 := by
  unfold State.paramWord
  generalize s.bufSize = k
  revert k
  decide

theorem bufSize_eq_zero {s : State} (h : s.bufWords = 8192) : s.bufSize = 0 := by
  have h13 : 2 ^ (13 + s.bufSize.val) = 2 ^ 13 := h
  have := Nat.pow_right_injective le_rfl h13
  omega

theorem slotL_lt (v : Slot) : slotL v < 2 ^ 4 := by
  cases hv : slotValid v with
  | true => exact (slotL_range hv).2.trans_lt (by norm_num)
  | false => rw [slotL_invalid hv]; norm_num

/-- Below bit 8 a slot's register shows L, from bit 8 on VALID. -/
theorem slotWord_getLsbD (v : Slot) (b : Nat) :
    (slotWord v).getLsbD b = (decide (b < 32) &&
      if b < 8 then (slotL v).testBit b else (slotValid v).toNat.testBit (b - 8)) :=
  getLsbD_ofNat_pack ((slotL_lt v).trans (by norm_num))

theorem slotWord_L (v : Slot) : (slotWord v).extractLsb' 0 4 = BitVec.ofNat 4 (slotL v) := by
  apply BitVec.eq_of_toNat_eq
  rw [slotWord, BitVec.extractLsb'_toNat, BitVec.toNat_ofNat, BitVec.toNat_ofNat, Nat.shiftRight_zero]
  omega

theorem slotWord_valid (v : Slot) : (slotWord v).getLsbD 8 = slotValid v := by
  rw [slotWord_getLsbD]
  cases slotValid v <;> rfl

theorem slotWord_zero (v : Slot) {b : Nat} (hb : (4 ≤ b ∧ b < 8) ∨ 9 ≤ b) : (slotWord v).getLsbD b = false := by
  rw [slotWord_getLsbD]
  rcases hb with ⟨h4, h8⟩ | h9
  · rw [if_pos h8, testBit_of_lt_of_le (slotL_lt v) h4, Bool.and_false]
  · rw [if_neg (by omega), testBit_of_lt_of_le (k := 1) (Bool.toNat_lt _) (by omega), Bool.and_false]

/-- Settles O16: the fields read off the packed words; the four addresses take no write. -/
theorem readOnlyRegistersShowTheirFields : Obligations.ReadOnlyRegistersShowTheirFields := by
  refine ⟨fun s => rfl, fun s => ?_, fun v => ?_, fun s rest a v ha => ?_⟩
  · obtain ⟨hmin, hmax, hslots, hbuf, hver⟩ := paramWord_fields s
    refine ⟨hmin, hmax, hslots, by rw [hbuf]; rfl, hver, fun h => ?_⟩
    rw [State.paramWord, bufSize_eq_zero h]
    rfl
  · exact ⟨slotWord_L v, slotWord_valid v, fun b hb => slotWord_zero v hb, slotL_range, slotL_invalid⟩
  · have hall : ∀ a ∈ [0x000000#24, 0x000004#24, 0x000018#24, 0x00001C#24],
        a.toNat % 4 = 0 ∧ a.toNat ∉ [addrStatus, addrCmd, addrBase] ∧ a.toNat < 0x400000 := by
      simp [addrStatus, addrCmd, addrBase]
    obtain ⟨h4, hreg, hlow⟩ := hall a ha
    exact step_ignoredWrite s rest v h4 hreg (.inl hlow)

/-! ### The flags (R32) -/

/-- Issuing a word clears no flag, and sets DROP only by discarding a nonzero word (R142, R146). -/
theorem issue_flags {s t : State} {w : Word} (h : s.issue w = .next t) :
    (s.errv = true → t.errv = true) ∧ t.drop = (s.drop || (s.errv && decide (w ≠ 0#32))) := by
  rcases issue_cases s w with ⟨herr, heq⟩ | ⟨herr, e, -, heq⟩ | ⟨herr, i, -, heq⟩ <;> rw [heq] at h
  · cases h
    simp [herr]
  · cases h
    simp [herr]
  · simp [herr, (exec_baseIdx_drop h).2]

/-- Settles O21: a write to CMD sets flags and clears none, a write to STATUS and the reset clear them and set none, and
every other event leaves both. -/
theorem flagsChangeOnlyByCommandStatusOrReset : Obligations.FlagsChangeOnlyByCommandStatusOrReset := by
  intro s t h
  cases stepResult_of_step h with
  | reset hp =>
    exact ⟨fun _ h1 => absurd h1 (by simp), fun _ _ => ⟨_, .inl hp⟩, fun _ h1 => absurd h1 (by simp),
      fun _ _ => ⟨_, .inl hp⟩⟩
  | writeStatus hp =>
    rw [writeStatus_errv, writeStatus_drop]
    refine ⟨fun h0 h1 => ?_, fun h1 h0 => ⟨_, .inr ⟨_, hp, ?_⟩⟩, fun h0 h1 => ?_, fun h1 h0 => ⟨_, .inr ⟨_, hp, ?_⟩⟩⟩
    · simp [h0] at h1
    · simpa only [h1, Bool.true_and, Bool.not_eq_false'] using h0
    · simp [h0] at h1
    · simpa only [h1, Bool.true_and, Bool.not_eq_false'] using h0
  | writeCmd hp hissue =>
    obtain ⟨herrv, hdrop⟩ := issue_flags hissue
    refine ⟨fun _ _ => ⟨_, _, hp⟩, fun h1 h0 => ?_, fun h0 h1 => ?_, fun h1 h0 => ?_⟩
    · simp [herrv h1] at h0
    · obtain ⟨he, hw⟩ : s.errv = true ∧ _ := by simpa [hdrop, h0] using h1
      exact ⟨he, _, _, hp, hw⟩
    · simp [hdrop, h1] at h0
  | idle | read | writeBase | writeBuf | ignored =>
    exact ⟨fun h0 h1 => absurd (h0.symm.trans h1) (by simp), fun h1 h0 => absurd (h0.symm.trans h1) (by simp),
      fun h0 h1 => absurd (h0.symm.trans h1) (by simp), fun h1 h0 => absurd (h0.symm.trans h1) (by simp)⟩

end Sys2Proof.Proofs
end

section
/-! PROOFS. INIT and CLEAR (R81, R87). -/

namespace Sys2Proof.Proofs

open Sys2Proof.Machine Sys2Proof.Laws

/-- Replacing a slot changes nothing but the slots. -/
theorem setSlot_frame (s : State) (k : SlotId) (x : Slot) :
    s.setSlot k x = { s with slot0 := (s.setSlot k x).slot0, slot1 := (s.setSlot k x).slot1 } := by
  unfold State.setSlot
  split <;> rfl

theorem setSlot_eq_self {s : State} {k : SlotId} {x : Slot} (h : s.slot k = x) : s.setSlot k x = s := by
  subst h
  unfold State.setSlot State.slot
  split <;> rfl

theorem exec_init {l : Nat} (h6 : 6 ≤ l) (h13 : l ≤ 13) (k : SlotId) (s : State) :
    exec (.init k l) s = .next (s.setSlot k (slotOf l)) := by
  rw [exec, execInit, sizeCheck_none.2 ⟨h6, h13⟩]
  rfl

/-- Settles O27: INIT's size check passes, so the command is `setSlot`. -/
theorem initBuildsTheLookup : Obligations.InitBuildsTheLookup := by
  intro s k l h6 h13
  refine ⟨_, exec_init h6 h13 k s, ?_, ?_, fun j => ?_, fun j => ?_, fun j hj => setSlot_slot_other _ _ _ hj,
    setSlot_frame s k _⟩ <;> rw [setSlot_slot_self]
  · exact slotValid_slotOf l
  · exact slotL_slotOf h6 h13
  · rw [slotTrig, slotValid_slotOf, if_pos rfl, slotL_slotOf h6 h13]
  · rw [slotBitrev, slotValid_slotOf, if_pos rfl, slotL_slotOf h6 h13]

/-- Settles O28: CLEAR is `setSlot` with no slot, unchecked. -/
theorem clearDropsTheLookup : Obligations.ClearDropsTheLookup := by
  intro s k
  refine ⟨_, rfl, ?_, ?_, fun j => ?_, fun j hj => setSlot_slot_other _ _ _ hj, setSlot_frame s k none,
    setSlot_eq_self⟩ <;> rw [setSlot_slot_self]
  · rfl
  · rfl
  · exact ⟨rfl, rfl⟩

end Sys2Proof.Proofs
end

section
/-! PROOFS. What a command's window holds afterwards depends on nothing of BUF but the window (R55): every body reads only
words of its window, so two runs that agree there stay in agreement there. -/

namespace Sys2Proof.Proofs

open Sys2Proof.Machine Sys2Proof.Laws

/-! ### Bodies -/

/-- BACKWARD reads words of its window only, as each of its four stages does (R101). -/
theorem backwardBody_reads {l : Nat} (h : 6 ≤ l) : bodyReadsWithin (fun j => j < 2 ^ l) [] (backwardBody l) := by
  have hhalf : 2 ^ l / 2 ≤ 2 ^ l := Nat.div_le_self _ _
  refine bodyReadsWithin_append (bodyReadsWithin_append (bodyReadsWithin_append ?_ ?_) ?_) ?_
  · exact bodyReadsWithin_mono (fun j hj => by omega) (fun _ hk => hk) (rotInBody_reads h)
  · exact bodyReadsWithin_mono (fun j hj => .inl hj.2) (fun _ hk => hk) (bflyAllBody_reads h)
  · exact bodyReadsWithin_mono (fun j hj => .inl hj.2) (fun _ hk => hk) (bitrevBody_reads h)
  · exact bodyReadsWithin_mono (fun j hj => .inl (by omega)) (fun _ hk => hk) (rotOutBody_reads h)

/-- BFLY_FIRST reads words of the upper half only (R104). -/
theorem bflyFirstBody_reads {l : Nat} (h : 6 ≤ l) :
    bodyReadsWithin (fun j => 2 ^ l / 2 ≤ j ∧ j < 2 ^ l) [] (bflyFirstBody l) := by
  obtain ⟨c, hc, hn⟩ := blockSize_eq h
  exact bodyReadsWithin_mono (fun j hj => by omega) (fun _ hk => hk) (groupBody_reads (by omega))

/-- Two states that hold the same words where a body reads hold the same words there after it, and have performed the same
number of operations. -/
theorem runBody_agree {s s' : State} {base : Nat} {T : Nat → Word} {b : List Assign} {S : Nat → Prop}
    (hX : ∀ j, S j → s.bufWord (base + j) = s'.bufWord (base + j)) (hd : s.nanDraws = s'.nanDraws)
    (hb : bodyReadsWithin S [] b) :
    (s.runBody base T b).nanDraws = (s'.runBody base T b).nanDraws ∧
      ∀ j, S j → (s.runBody base T b).bufWord (base + j) = (s'.runBody base T b).bufWord (base + j) := by
  have hstart : Agree s.bufEpoch s'.bufEpoch base base S [] s.datapath s'.datapath := ⟨hX, by simp, hd⟩
  obtain ⟨hwords, -, hdraws⟩ := run_agree _ _ T hstart hb
  exact ⟨hdraws, fun j hj => hwords j (.inl hj)⟩

/-! ### Commands whose checks pass -/

theorem checked_none {s t : State} {i : Instr} {c : Option ErrCode} (h : c = none) : s.checked i c t = .next t := by
  rw [h]
  rfl

/-- A transform command is one body that reads words of its window only, performed in every state whose slot is the same
and whose checks pass. -/
theorem transform_body {s : State} {k : SlotId} {i : Instr}
    (hi : i ∈ [.backward k, .rotIn k, .bflyFirst k, .bflyAll k, .bitrev k, .rotOut k] ∨
      ∃ a b, s.stageReady k a b ∧ i = .bflyGen k a b) (hr : s.transformReady k) :
    ∃ body : Nat → List Assign, bodyReadsWithin (fun j => j < s.blockSize k) [] (body (slotL (s.slot k))) ∧
      ∀ u : State, u.slot k = s.slot k → u.transformReady k → exec i u = .next (u.slotBody k body) := by
  have h6 := (slotL_range hr.1).1
  have hhalf : 2 ^ slotL (s.slot k) / 2 ≤ 2 ^ slotL (s.slot k) := Nat.div_le_self _ _
  have lower : ∀ {b}, bodyReadsWithin (fun j => j < 2 ^ slotL (s.slot k) / 2) [] b →
      bodyReadsWithin (fun j => j < s.blockSize k) [] b :=
    fun hb => bodyReadsWithin_mono (fun j hj => hj.trans_le hhalf) (fun _ hk => hk) hb
  have upper : ∀ {b}, bodyReadsWithin (fun j => 2 ^ slotL (s.slot k) / 2 ≤ j ∧ j < 2 ^ slotL (s.slot k)) [] b →
      bodyReadsWithin (fun j => j < s.blockSize k) [] b :=
    fun hb => bodyReadsWithin_mono (fun j hj => hj.2) (fun _ hk => hk) hb
  have common : ∀ u : State, u.transformReady k → u.commonCheck k = none := fun u hu => commonCheck_ready.2 hu
  rcases hi with hi | ⟨a, b, hstage, rfl⟩
  · simp only [List.mem_cons, List.not_mem_nil, or_false] at hi
    rcases hi with rfl | rfl | rfl | rfl | rfl | rfl
    · exact ⟨backwardBody, backwardBody_reads h6, fun u _ hu => checked_none (common u hu)⟩
    · exact ⟨rotInBody, lower (rotInBody_reads h6), fun u _ hu => checked_none (common u hu)⟩
    · exact ⟨bflyFirstBody, upper (bflyFirstBody_reads h6), fun u _ hu => checked_none (common u hu)⟩
    · exact ⟨bflyAllBody, upper (bflyAllBody_reads h6), fun u _ hu => checked_none (common u hu)⟩
    · exact ⟨bitrevBody, upper (bitrevBody_reads h6), fun u _ hu => checked_none (common u hu)⟩
    · exact ⟨rotOutBody, lower (rotOutBody_reads h6), fun u _ hu => checked_none (common u hu)⟩
  · refine ⟨bflyGenBody a b, upper (bflyGenBody_reads h6 hstage.1 hstage.2), fun u hslot hu => ?_⟩
    have hstage' : u.stageReady k a b := by
      rw [State.stageReady, hslot]
      exact hstage
    exact checked_none (stageCheck_ready.2 ⟨hu, hstage'⟩)

/-- A kernel is one body that reads words of its window only, performed in every state whose check passes. -/
theorem kernel_body {ofs size : Nat} {i : Instr} (hi : (i, size) ∈ [(.ker32 ofs, 32), (.ker16 ofs, 16), (.ker8 ofs, 8)]) :
    ∃ body : List Assign, bodyReadsWithin (fun j => ofs ≤ j ∧ j < ofs + size) [] body ∧
      ∀ u : State, u.kernelReady ofs size → exec i u = .next (u.kernelBody body) := by
  simp only [List.mem_cons, Prod.mk.injEq, List.not_mem_nil, or_false] at hi
  rcases hi with ⟨rfl, rfl⟩ | ⟨rfl, rfl⟩ | ⟨rfl, rfl⟩
  · exact ⟨k32Body ofs, k32Body_reads ofs, fun u hu => checked_none (kernelCheck_ready.2 hu)⟩
  · exact ⟨k16Body ofs, k16Body_reads ofs, fun u hu => checked_none (kernelCheck_ready.2 hu)⟩
  · exact ⟨k8Body ofs, k8Body_reads ofs, fun u hu => checked_none (kernelCheck_ready.2 hu)⟩

/-- Settles O37: both states perform the same body on the same window with the same table. -/
theorem commandsReadOnlyTheirWindow : Obligations.CommandsReadOnlyTheirWindow := by
  intro s s' hsame hdraws
  obtain ⟨-, -, -, -, hbaseIdx, hslot0, hslot1, hsize, -⟩ := hsame
  have hbase : s'.base = s.base := congrArg BitVec.toNat hbaseIdx
  have hwords : s'.bufWords = s.bufWords := by rw [State.bufWords, hsize]; rfl
  have hslot : ∀ k, s'.slot k = s.slot k := fun k => by rw [State.slot, hslot0, hslot1]; rfl
  constructor
  · intro k i hi hr hX
    have hr' : s'.transformReady k := by
      rw [State.transformReady, State.blockSize, hslot, hbase, hwords]
      exact hr
    obtain ⟨body, hreads, hexec⟩ := transform_body hi hr
    refine ⟨_, _, hexec s rfl hr, hexec s' (hslot k) hr', ?_⟩
    simp only [State.X, State.slotBody, runBody_base, hbase, hslot] at hX ⊢
    exact runBody_agree hX hdraws.symm hreads
  · intro ofs size i hi hr hX
    have hr' : s'.kernelReady ofs size := by
      rw [State.kernelReady, hbase, hwords]
      exact hr
    obtain ⟨body, hreads, hexec⟩ := kernel_body hi
    refine ⟨_, _, hexec s hr, hexec s' hr', ?_⟩
    simp only [State.X, State.kernelBody, runBody_base, hbase] at hX ⊢
    have hwindow : ∀ j, ofs ≤ j ∧ j < ofs + size → s.bufWord (s.base + j) = s'.bufWord (s.base + j) := fun j hj => by
      obtain ⟨m, rfl⟩ := Nat.exists_eq_add_of_le hj.1
      exact hX m (by omega)
    obtain ⟨hcount, hafter⟩ := runBody_agree hwindow hdraws.symm hreads
    exact ⟨hcount, fun j hj => hafter (ofs + j) ⟨by omega, by omega⟩⟩

end Sys2Proof.Proofs
end

section
/-! PROOFS. Host access to memory (R41 to R51, R162): what a read returns by the map, which bytes a write of BUF stores, and
which transactions have a step. -/

namespace Sys2Proof.Proofs

open Sys2Proof.Machine Sys2Proof.Laws

/-! ### The bytes of a word (R46) -/

/-- Byte j of a word of BUF stands at the word's address plus j. -/
theorem bufWord_byte (s : State) (w : Nat) {j : Nat} (hj : j < 4) :
    (s.bufWord w).extractLsb' (8 * j) 8 = s.readByte (bufAddr w + j) := by
  unfold State.bufWord Memory.readWord Memory.readWordAt State.readByte
  interval_cases j
  · exact BitVec.extractLsb'_append_eq_right
  · rw [BitVec.extractLsb'_append_eq_of_le (by omega)]
    exact BitVec.extractLsb'_append_eq_right
  · rw [BitVec.extractLsb'_append_eq_of_le (by omega), BitVec.extractLsb'_append_eq_of_le (by omega)]
    exact BitVec.extractLsb'_append_eq_right
  · rw [BitVec.extractLsb'_append_eq_of_le (by omega), BitVec.extractLsb'_append_eq_of_le (by omega),
      BitVec.extractLsb'_append_eq_of_le (by omega)]
    exact BitVec.extractLsb'_eq_self

/-- Settles O9: the port's step is `setBufWord`, whose word has the bytes of v and which leaves every other byte. -/
theorem hostWriteToBufStoresWord : Obligations.HostWriteToBufStoresWord := by
  intro s rest w v hw
  have hword : (State.setBufWord { s with pending := rest } w v).bufWord w = v := by
    rw [bufWord_setBufWord, if_pos rfl]
  refine ⟨_, step_bufWrite s rest hw v, ⟨rfl, rfl, rfl, rfl, rfl, rfl, rfl, rfl, rfl, rfl, rfl⟩, rfl, hword,
    fun j hj => ?_, fun a ha => readByte_setBufWord_other { s with pending := rest } w v ha⟩
  rw [← congrArg (BitVec.extractLsb' (8 * j) 8) hword]
  exact (bufWord_byte _ w hj).symm

/-! ### The address map (R40, R41) -/

section Map

variable {s : State} {a : BitVec 24}

theorem memRead_reg (h : a.toNat < 0x001000) : s.memRead a = s.readReg a.toNat := by
  simp only [State.memRead]
  rw [if_pos h]

theorem readReg_reserved {o : Nat} (h : 0x020 ≤ o) : s.readReg o = 0#32 := by
  unfold State.readReg
  split
  case h_9 => rfl
  all_goals omega

/-- Reserved space reads 0 (R43). -/
theorem memRead_reserved (h : (0x020 ≤ a.toNat ∧ a.toNat < 0x010000) ∨ (0x034000 ≤ a.toNat ∧ a.toNat < 0x400000) ∨
    0x800000 ≤ a.toNat) : s.memRead a = 0#32 := by
  by_cases hreg : a.toNat < 0x001000
  · rw [memRead_reg hreg, readReg_reserved (by omega)]
  simp only [State.memRead]
  rw [if_neg hreg]
  split
  · rfl
  repeat rw [if_neg (by omega)]
  split
  · rfl
  · rw [if_neg (by omega)]

/-- The two TRIG windows (R49). -/
theorem memRead_trig {k : SlotId} {j : Nat} (ha : a.toNat = 0x010000 * (k.val + 1) + 4 * j) (hj : j < 16384) :
    s.memRead a = trigWindow (s.slot k) j := by
  simp only [State.memRead]
  rw [if_neg (by omega), if_neg (by omega)]
  fin_cases k
  · have ha : a.toNat = 0x010000 + 4 * j := ha
    rw [if_pos (by omega), show (a.toNat - 0x010000) / 4 = j by omega]
    rfl
  · have ha : a.toNat = 0x020000 + 4 * j := ha
    rw [if_neg (by omega), if_pos (by omega), show (a.toNat - 0x020000) / 4 = j by omega]
    rfl

/-- The two BITREV windows (R50). -/
theorem memRead_bitrev {k : SlotId} {j : Nat} (ha : a.toNat = 0x030000 + 0x002000 * k.val + 4 * j) (hj : j < 2048) :
    s.memRead a = bitrevWindow (s.slot k) j := by
  simp only [State.memRead]
  rw [if_neg (by omega), if_neg (by omega), if_neg (by omega), if_neg (by omega)]
  fin_cases k
  · have ha : a.toNat = 0x030000 + 4 * j := ha
    rw [if_pos (by omega), show (a.toNat - 0x030000) / 4 = j by omega]
    rfl
  · have ha : a.toNat = 0x032000 + 4 * j := ha
    rw [if_neg (by omega), if_pos (by omega), show (a.toNat - 0x032000) / 4 = j by omega]
    rfl

/-- The BUF window, which reads 0 from word `BUF_WORDS` on (R44). -/
theorem memRead_buf {w : Nat} (ha : a.toNat = 0x400000 + 4 * w) (hw : w < 2 ^ 20) :
    s.memRead a = if w < s.bufWords then s.bufWord w else 0#32 := by
  simp only [State.memRead]
  repeat rw [if_neg (by omega)]
  rw [if_pos (by omega), show (a.toNat - 0x400000) / 4 = w by omega]

end Map

theorem toNat_addr {a : Nat} (ha : a < 2 ^ 24) : (BitVec.ofNat 24 a).toNat = a := by
  rw [BitVec.toNat_ofNat, Nat.mod_eq_of_lt ha]

/-- Settles O8: a read is a step that tells the host `memRead`, which is the map's entry in each range. -/
theorem hostReadReturnsMappedWord : Obligations.HostReadReturnsMappedWord := by
  intro s rest a ha h4
  have ht := toNat_addr ha
  have hreg : ∀ o, o < 0x001000 → a = o → s.memRead (BitVec.ofNat 24 a) = s.readReg o := fun o ho h => by
    rw [memRead_reg (by omega), ht, h]
  have htrig : ∀ (k : SlotId) (j : Nat), a = 0x010000 * (k.val + 1) + 4 * j → j < 16384 →
      s.memRead (BitVec.ofNat 24 a) = trigWindow (s.slot k) j := fun k j h hj => memRead_trig (ht.trans h) hj
  have hbuf : ∀ w, a = 0x400000 + 4 * w → w < 2 ^ 20 →
      s.memRead (BitVec.ofNat 24 a) = if w < s.bufWords then s.bufWord w else 0#32 :=
    fun w h hw => memRead_buf (ht.trans h) hw
  refine ⟨_, step_read s rest ha h4, hreg 0x000 (by omega), hreg 0x004 (by omega), hreg 0x008 (by omega),
    hreg 0x00C (by omega), hreg 0x010 (by omega), hreg 0x014 (by omega), hreg 0x018 (by omega), hreg 0x01C (by omega),
    fun h => ?_, fun k h hk => ?_, fun k h hk hk' => ?_, fun k h hk => ?_, fun k h hk hk' => ?_,
    fun k h hk => ?_, fun k h hk => ?_, fun h => ?_, fun w h hw => ?_, fun w h hw hw' => ?_, fun h => ?_⟩
  · exact memRead_reserved (by omega)
  · exact (htrig 0 k h (by omega)).trans (if_pos hk)
  · exact (htrig 0 k h hk').trans (if_neg (by omega))
  · exact (htrig 1 k h (by omega)).trans (if_pos hk)
  · exact (htrig 1 k h hk').trans (if_neg (by omega))
  · exact memRead_bitrev (k := 0) (ht.trans h) hk
  · exact memRead_bitrev (k := 1) (ht.trans h) hk
  · exact memRead_reserved (by omega)
  · exact (hbuf w h (hw.trans_le (bufWords_range s).2)).trans (if_pos hw)
  · exact (hbuf w h hw').trans (if_neg (by omega))
  · exact memRead_reserved (by omega)

/-! ### Right after reset (R162) -/

theorem readReg_reset {o : Nat} (h : 0x008 ≤ o) : State.reset.readReg o = 0#32 := by
  unfold State.readReg
  split
  case h_1 | h_2 => omega
  all_goals rfl

theorem trigWindow_none (j : Nat) : trigWindow none j = 0#32 := ite_self _

/-- From STATUS up to BUF every aligned address reads 0 right after reset: no error, no slot and BASE 0 (R160). -/
theorem memRead_reset_below_buf {a : BitVec 24} (h4 : a.toNat % 4 = 0) (hlo : 0x008 ≤ a.toNat) (hhi : a.toNat < 0x400000) :
    State.reset.memRead a = 0#32 := by
  by_cases hreg : a.toNat < 0x001000
  · rw [memRead_reg hreg, readReg_reset hlo]
  by_cases hres : a.toNat < 0x010000 ∨ 0x034000 ≤ a.toNat
  · exact memRead_reserved (by omega)
  by_cases htrig : a.toNat < 0x030000
  · obtain ⟨k, hk⟩ : ∃ k : SlotId, k.val + 1 = a.toNat / 0x010000 := ⟨⟨a.toNat / 0x010000 - 1, by omega⟩, by simp; omega⟩
    rw [memRead_trig (k := k) (j := a.toNat % 0x010000 / 4) (by omega) (by omega)]
    fin_cases k <;> exact trigWindow_none _
  · obtain ⟨k, hk⟩ : ∃ k : SlotId, k.val = (a.toNat - 0x030000) / 0x002000 :=
      ⟨⟨(a.toNat - 0x030000) / 0x002000, by omega⟩, rfl⟩
    rw [memRead_bitrev (k := k) (j := (a.toNat - 0x030000) % 0x002000 / 4) (by omega) (by omega)]
    fin_cases k <;> rfl

/-- Settles O23: the map of O8 at the reset state, where a byte of BUF is unwritten and reads as the free contents. -/
theorem readsRightAfterReset : Obligations.ReadsRightAfterReset := by
  intro rest a ha h4
  have ht := toNat_addr ha
  have hwords : State.reset.bufWords = 8192 := rfl
  refine ⟨_, step_read State.reset rest ha h4, fun h => ?_, fun h => ?_, fun h => ?_, fun w h hw j hj => ?_, fun h => ?_⟩
  · subst h; rfl
  · subst h; rfl
  · exact memRead_reset_below_buf (by omega) (by omega) (by omega)
  · rw [memRead_buf (ht.trans h) (by omega), hwords, if_pos hw, bufWord_byte _ _ hj, h]
    rfl
  · by_cases hbuf : a < 0x800000
    · rw [memRead_buf (w := (a - 0x400000) / 4) (by omega) (by omega), hwords, if_neg (by omega)]
    · exact memRead_reserved (by omega)

/-! ### Which transactions have a step (R47, R140, R148) -/

theorem contract_refuses {a : BitVec 24} {bytes : Nat} (h : bytes ≠ 4 ∨ a.toNat % 4 ≠ 0) :
    ∃ r, contract a bytes = some r :=
  Option.ne_none_iff_exists'.1 fun hc => by
    obtain ⟨hb, ha⟩ := contract_eq_none.1 hc
    omega

/-- Settles O11: the contract is tested before a read or a write does anything. -/
theorem accessOutsideContractRefused : Obligations.AccessOutsideContractRefused := by
  intro s rest a bytes v h
  obtain ⟨r, hr⟩ := contract_refuses h
  constructor <;> exact ⟨r, by rw [step_of_pending rfl, State.perform, hr]⟩

/-- Every write of the contract has a next state; one to CMD because every command has (R140). -/
theorem memWrite_next (s : State) (a : BitVec 24) (v : Word) : ∃ t, s.memWrite a v = .next t := by
  simp only [State.memWrite]
  split
  · exact ⟨_, rfl⟩
  split
  · obtain ⟨t, ht, -⟩ := issue_next s v
    exact ⟨t, ht⟩
  split
  · exact ⟨_, rfl⟩
  split <;> exact ⟨_, rfl⟩

/-- Settles O12: with nothing pending, at a reset and for a transaction of the contract there is a next state. -/
theorem stepStopsOnlyOutsideContract : Obligations.StepStopsOnlyOutsideContract := by
  intro s hstop
  have houtside : ∀ a bytes, (contract a bytes = none → ∃ t, step s = .next t) → bytes ≠ 4 ∨ a.toNat % 4 ≠ 0 :=
    fun a bytes hnext => by
      by_contra hin
      obtain ⟨t, ht⟩ := hnext (contract_eq_none.2 (by omega))
      exact hstop t ht
  cases hp : s.pending with
  | nil => exact absurd (stepWithoutTransactionHoldsState s hp) (hstop s)
  | cons op rest =>
    have hstep := step_of_pending hp
    cases op with
    | reset => exact absurd hstep (hstop _)
    | read a bytes =>
      refine ⟨rest, a, bytes, .inl rfl, houtside a bytes fun hc => ?_⟩
      rw [hstep, State.perform, hc]
      exact ⟨_, rfl⟩
    | write a bytes v =>
      refine ⟨rest, a, bytes, .inr ⟨v, rfl⟩, houtside a bytes fun hc => ?_⟩
      rw [hstep, State.perform, hc]
      exact memWrite_next _ a v

/-! ### Reading back across other transactions (R51) -/

theorem core_run_succ {s t : State} (h : step s = .next t) (n : Nat) :
    Sys2Proof.core.run (n + 1) s = Sys2Proof.core.run n t := by
  have hstep : Sys2Proof.core.step s = .next t := h
  simp only [Host.Core.run, hstep]

/-- `n` transactions that leave word w alone are `n` steps of any longer run, and word w is as before them. -/
theorem run_undisturbed {w : Nat} (m : Nat) {n : Nat} {s : State} (h : Undisturbed w n s) :
    ∃ t : State, Sys2Proof.core.run (n + m) s = Sys2Proof.core.run m t ∧ t.bufWord w = s.bufWord w ∧
      t.pending = s.pending.drop n ∧ t.bufSize = s.bufSize := by
  induction n generalizing s with
  | zero => exact ⟨s, by rw [Nat.zero_add], rfl, rfl, rfl⟩
  | succ n ih =>
    obtain ⟨⟨op, rest, hp, hleaves⟩, hnext⟩ := h
    have hleaves' : State.leavesWord { s with pending := rest } w op := hleaves
    obtain ⟨u, hperform, hword, hpend, hsize⟩ := perform_leavesWord { s with pending := rest } hleaves'
    have hstep : step s = .next u := (step_of_pending hp).trans hperform
    obtain ⟨t, hrun, hword', hpend', hsize'⟩ := ih (hnext u hstep)
    refine ⟨t, ?_, hword'.trans hword, ?_, hsize'.trans hsize⟩
    · rw [Nat.succ_add, core_run_succ hstep, hrun]
    · rw [hpend', hpend, hp, List.drop_succ_cons]

/-- Settles O13: the write puts v into the word, `mid` leaves it there, and the read tells it. -/
theorem hostReadsBackWhatItWrote : Obligations.HostReadsBackWhatItWrote := by
  intro s mid rest w v hw hmid
  have hrange := (bufWords_range s).2
  obtain ⟨t, hrun, hword, hpend, hsize⟩ := run_undisturbed 1 hmid
  rw [List.drop_left] at hpend
  have hv : t.bufWord w = v := by
    rw [hword]
    exact (bufWord_setBufWord s w v w).trans (if_pos rfl)
  have hwords : t.bufWords = s.bufWords := by
    rw [State.bufWords, hsize]
    rfl
  have hmem : t.memRead (BitVec.ofNat 24 (0x400000 + 4 * w)) = v := by
    rw [memRead_buf (toNat_addr (by omega)) (hw.trans_le hrange), hwords, if_pos hw, hv]
  have hread := step_read t rest (a := 0x400000 + 4 * w) (by omega) (by omega)
  rw [← hpend, hmem] at hread
  refine ⟨{ t with pending := rest, replies := v :: t.replies }, ?_, rfl, hv, rfl⟩
  exact (core_run_succ (step_bufWrite s _ hw v) (mid.length + 1)).trans (hrun.trans (core_run_succ hread 0))

end Sys2Proof.Proofs
end

section
/-! PROOFS. The commands that use BUF complete when their checks pass, and write only where their bodies do (R55, R100,
R126). -/

namespace Sys2Proof.Proofs

open Sys2Proof.Machine Sys2Proof.Laws

/-- A checked command whose check passes completes, and writes only the words its body writes. -/
theorem checked_within {s : State} {i : Instr} {c : Option ErrCode} {T : Nat → Word} {b : List Assign} {lo hi : Nat}
    (hc : c = none) (hb : ∀ a ∈ b, writesWithin lo hi a) :
    ∃ t, s.checked i c (s.runBody s.base T b) = .next t ∧ SameButBuf s t ∧
      BytesSameOutside s t (s.base + lo) (s.base + hi) :=
  ⟨_, checked_none hc, runBody_sameButBuf s s.base T b, runBody_bytesSameOutside hb⟩

/-- Settles O36: each command is its body, checked, and the body writes the part of the window the statement gives. -/
theorem transformCommandsCompleteWithinWindow : Obligations.TransformCommandsCompleteWithinWindow := by
  intro s k hr
  have h6 := (slotL_range hr.1).1
  have hcommon := commonCheck_ready.2 hr
  refine ⟨fun i hi => ?_, checked_within hcommon (bitrevBody_writes h6), fun i hi => ?_, fun a b hstage => ?_⟩
  · simp only [List.mem_cons, List.not_mem_nil, or_false] at hi
    rcases hi with rfl | rfl | rfl
    · exact checked_within hcommon (rotInBody_writes h6)
    · exact checked_within hcommon (bflyFirstBody_writes h6)
    · exact checked_within hcommon (bflyAllBody_writes h6)
  · simp only [List.mem_cons, List.not_mem_nil, or_false] at hi
    rcases hi with rfl | rfl
    · exact checked_within hcommon (rotOutBody_writes h6)
    · exact checked_within hcommon (backwardBody_writes h6)
  · exact checked_within (stageCheck_ready.2 ⟨hr, hstage⟩) (bflyGenBody_writes h6 hstage.1)

/-- Settles O51: a kernel is its body, checked, and the body writes the K words from OFS on. -/
theorem kernelCommandsCompleteWithinWindow : Obligations.KernelCommandsCompleteWithinWindow := by
  intro s ofs size i hi hr
  have hcheck := kernelCheck_ready.2 hr
  simp only [List.mem_cons, Prod.mk.injEq, List.not_mem_nil, or_false] at hi
  rw [Nat.add_assoc]
  rcases hi with ⟨rfl, rfl⟩ | ⟨rfl, rfl⟩ | ⟨rfl, rfl⟩
  · exact checked_within hcheck (k32Body_writes ofs)
  · exact checked_within hcheck (k16Body_writes ofs)
  · exact checked_within hcheck (k8Body_writes ofs)

end Sys2Proof.Proofs
end

section
/-! PROOFS. The decoder and the encoder (R61 to R67): a word with no must-be-zero bit set is the word its fields make, so
decoding succeeds exactly on the encodings; and the printed opcode table says the same of every word. -/

namespace Sys2Proof.Proofs

open Sys2Proof.Machine Sys2Proof.Laws

/-! ### The fields of a word (R61, R63) and the bits of a packed one -/

theorem fieldOp_lt (w : Word) : fieldOp w < 256 := Nat.mod_lt _ (by norm_num)

theorem fieldL_lt (w : Word) : fieldL w < 16 := Nat.mod_lt _ (by norm_num)

theorem fieldA_lt (w : Word) : fieldA w < 256 := Nat.mod_lt _ (by norm_num)

theorem fieldB_lt (w : Word) : fieldB w < 256 := Nat.mod_lt _ (by norm_num)

theorem fieldOfs_lt (w : Word) : fieldOfs w < 65536 := Nat.mod_lt _ (by norm_num)

/-- A and B are the two bytes of OFS (R61). -/
theorem fieldA_add_fieldB (w : Word) : fieldA w + fieldB w * 2 ^ 8 = fieldOfs w := by
  unfold fieldA fieldB fieldOfs
  omega

theorem fieldOp_testBit (w : Word) (b : Nat) : (fieldOp w).testBit b = (decide (b < 8) && w.getLsbD b) := by
  rw [fieldOp, Nat.testBit_mod_two_pow, BitVec.testBit_toNat]

theorem fieldS_testBit (w : Word) (b : Nat) : (fieldS w).val.testBit b = (decide (b < 1) && w.getLsbD (b + 8)) :=
  (Nat.testBit_mod_two_pow _ 1 b).trans (by rw [Nat.testBit_div_two_pow, BitVec.testBit_toNat])

theorem fieldL_testBit (w : Word) (b : Nat) : (fieldL w).testBit b = (decide (b < 4) && w.getLsbD (b + 12)) := by
  rw [fieldL, Nat.testBit_mod_two_pow, Nat.testBit_div_two_pow, BitVec.testBit_toNat]

theorem fieldOfs_testBit (w : Word) (b : Nat) : (fieldOfs w).testBit b = (decide (b < 16) && w.getLsbD (b + 16)) := by
  rw [fieldOfs, Nat.testBit_mod_two_pow, Nat.testBit_div_two_pow, BitVec.testBit_toNat]

theorem packWord_getLsbD {op l hi b : Nat} (s : SlotId) (hop : op < 2 ^ 8) (hl : l < 2 ^ 4) (hb : b < 32) :
    (packWord op s l hi).getLsbD b =
      if b < 8 then op.testBit b else if b - 8 < 4 then s.val.testBit (b - 8)
      else if b - 8 - 4 < 4 then l.testBit (b - 8 - 4) else hi.testBit (b - 8 - 4 - 4) := by
  have hs : s.val < 2 ^ 4 := by omega
  have hnest : op + s.val * 2 ^ 8 + l * 2 ^ 12 + hi * 2 ^ 16 = 2 ^ 8 * (2 ^ 4 * (2 ^ 4 * hi + l) + s.val) + op := by
    ring
  rw [packWord, hnest, BitVec.getLsbD_ofNat, decide_eq_true hb, Bool.true_and, Nat.testBit_two_pow_mul_add _ hop,
    Nat.testBit_two_pow_mul_add _ hs, Nat.testBit_two_pow_mul_add _ hl]

/-! ### Must-be-zero bits (R62) -/

/-- The word made of a word's opcode and those of its fields that a format has (R62). -/
def formatWord : Format → Word → Word
  | .FN, w => packWord (fieldOp w) 0 0 0
  | .FI, w => packWord (fieldOp w) (fieldS w) (fieldL w) 0
  | .FS, w => packWord (fieldOp w) (fieldS w) 0 0
  | .FG, w => packWord (fieldOp w) (fieldS w) 0 (fieldOfs w)
  | .FK, w => packWord (fieldOp w) 0 0 (fieldOfs w)

/-- The mask of a format covers exactly the bits that no field of the format holds. -/
theorem formatWord_eq_and_not_zmask (f : Format) (w : Word) : formatWord f w = w &&& ~~~zmask f := by
  apply BitVec.eq_of_getLsbD_eq
  intro b hb
  have hpackL := fun s hi => packWord_getLsbD (hi := hi) s (fieldOp_lt w) (fieldL_lt w) hb
  have hpack0 := fun s hi => packWord_getLsbD (hi := hi) s (fieldOp_lt w) (Nat.two_pow_pos 4) hb
  cases f <;>
    simp only [formatWord, hpackL, hpack0, fieldOp_testBit, fieldS_testBit, fieldL_testBit, fieldOfs_testBit] <;>
    interval_cases b <;> simp [zmask]

/-- A word has no must-be-zero bit set exactly when it is nothing but its opcode and the format's fields. -/
theorem and_zmask_eq_zero_iff {f : Format} {w : Word} : w &&& zmask f = 0#32 ↔ formatWord f w = w := by
  rw [formatWord_eq_and_not_zmask]
  constructor
  · intro h
    calc w &&& ~~~zmask f = w &&& zmask f ||| w &&& ~~~zmask f := by rw [h, BitVec.zero_or]
      _ = w &&& (zmask f ||| ~~~zmask f) := BitVec.and_or_distrib_left.symm
      _ = w := by rw [BitVec.or_not_self, BitVec.and_allOnes]
  · intro h
    rw [← h, BitVec.and_assoc, BitVec.and_comm (~~~zmask f), BitVec.and_not_self]
    exact BitVec.and_zero

/-! ### The opcode map (R64) -/

/-- A command the opcode map makes of a word is well formed. -/
theorem wellFormed_of_opcodeMap {op : Nat} {w : Word} {f : Format} {i : Instr} (h : opcodeMap op w = some (f, i)) :
    i.wellFormed = true := by
  unfold opcodeMap at h
  split at h <;> cases h <;>
    simp [Instr.wellFormed, fitsL, fitsStage, fitsOfs, fieldL_lt, fieldA_lt, fieldB_lt, fieldOfs_lt]

/-- The word of a command the opcode map makes is the one the format's fields make. -/
theorem encode_of_opcodeMap {w : Word} {f : Format} {i : Instr} (h : opcodeMap (fieldOp w) w = some (f, i)) :
    encode i = formatWord f w := by
  unfold opcodeMap at h
  split at h <;> cases h <;> simp only [encode, formatWord, fieldA_add_fieldB, *]

/-- A well-formed command's word selects the command again. -/
theorem opcodeMap_encode {i : Instr} (h : i.wellFormed = true) :
    ∃ f, opcodeMap (fieldOp (encode i)) (encode i) = some (f, i) := by
  cases i with
  | nop => exact ⟨.FN, rfl⟩
  | init s l =>
    have hl : l < 16 := of_decide_eq_true h
    exact ⟨.FI, by simp [encode, fieldOp_packWord, fieldS_packWord, fieldL_packWord, opcodeMap, hl]⟩
  | clear s | backward s | rotIn s | bflyFirst s | bflyAll s | bitrev s | rotOut s =>
    exact ⟨.FS, by simp [encode, fieldOp_packWord, fieldS_packWord, opcodeMap]⟩
  | bflyGen s a b =>
    obtain ⟨ha, hb⟩ : a < 256 ∧ b < 256 := by simpa [Instr.wellFormed, fitsStage] using h
    have hhi : a + b * 2 ^ 8 < 65536 := by omega
    have ha' : (a + b * 2 ^ 8) % 2 ^ 8 = a := by omega
    have hb' : (a + b * 2 ^ 8) / 2 ^ 8 = b := by omega
    have hl : 0 < 16 := by norm_num
    have hop : 0x13 < 256 := by norm_num
    refine ⟨.FG, ?_⟩
    rw [encode, fieldOp_packWord s hop hl hhi, opcodeMap, fieldS_packWord s hop hl hhi, fieldA_packWord s hop hl hhi,
      fieldB_packWord s hop hl hhi, ha', hb']
  | ker32 ofs | ker16 ofs | ker8 ofs =>
    have hofs : ofs < 65536 := of_decide_eq_true h
    exact ⟨.FK, by simp [encode, fieldOp_packWord, fieldOfs_packWord, opcodeMap, hofs]⟩

/-- The opcode map knows the thirteen opcodes and no other (R65). -/
theorem opcodeMap_eq_none_iff {op : Nat} {w : Word} : opcodeMap op w = none ↔
    op ∉ [0x00, 0x01, 0x02, 0x10, 0x11, 0x12, 0x13, 0x14, 0x15, 0x16, 0x20, 0x21, 0x22] := by
  unfold opcodeMap
  split <;> simp_all

/-! ### Decoding (R66) -/

theorem decode_eq_illegal_iff {w : Word} : decode w = .error .illegalOpcode ↔ opcodeMap (fieldOp w) w = none := by
  unfold decode
  split
  · simp [*]
  · split <;> simp [*]

/-- Decoding succeeds with the opcode's command exactly when no must-be-zero bit is set. -/
theorem decode_eq_ok_iff {w : Word} {i : Instr} :
    decode w = .ok i ↔ ∃ f, opcodeMap (fieldOp w) w = some (f, i) ∧ w &&& zmask f = 0#32 := by
  unfold decode
  split
  · simp [*]
  · split <;> simp_all

/-- Settles O2: with no must-be-zero bit set the word is the one its own fields make. -/
theorem decodedWordIsItsEncoding : Obligations.DecodedWordIsItsEncoding := by
  intro w i h
  obtain ⟨f, hmap, hz⟩ := decode_eq_ok_iff.1 h
  exact ⟨wellFormed_of_opcodeMap hmap, (encode_of_opcodeMap hmap).trans (and_zmask_eq_zero_iff.1 hz)⟩

/-- Settles O1: an encoding selects its command again and is nothing but its format's fields. -/
theorem decodeOfEncodeIsTheCommand : Obligations.DecodeOfEncodeIsTheCommand := by
  intro i h
  obtain ⟨f, hmap⟩ := opcodeMap_encode h
  exact decode_eq_ok_iff.2 ⟨f, hmap, and_zmask_eq_zero_iff.2 (encode_of_opcodeMap hmap).symm⟩

/-- Settles O5: a written-out command word is the word of its command, so it decodes to it; the last two words fail one
test each. -/
theorem wordsOfTheSpecDecode : Obligations.WordsOfTheSpecDecode :=
  ⟨decodeOfEncodeIsTheCommand (.init 1 11) rfl, decodeOfEncodeIsTheCommand (.bflyGen 0 1 1) rfl,
    decodeOfEncodeIsTheCommand (.ker32 64) rfl, decodeOfEncodeIsTheCommand (.backward 1) rfl,
    decodeOfEncodeIsTheCommand (.clear 1) rfl, decodeOfEncodeIsTheCommand .nop rfl, rfl, rfl⟩

/-! ### The printed opcode table (R64) -/

/-- Every command of the opcode map has its row, with its opcode as match and its must-be-zero bits and OP as mask. -/
theorem row_of_opcodeMap {op : Nat} {w : Word} {f : Format} {i : Instr} (h : opcodeMap op w = some (f, i)) :
    ⟨i.mnemonic, BitVec.ofNat 32 op, zmask f ||| 0xFF#32⟩ ∈ opcodeTable := by
  unfold opcodeMap at h
  split at h <;> cases h <;> simp [opcodeTable, Instr.mnemonic, zmask]

/-- The opcode a row matches is one of the opcode map, which makes the row's command with the row's must-be-zero bits. -/
theorem opcodeMap_of_row {r : OpcodeRow} (hr : r ∈ opcodeTable) (w : Word) :
    ∃ f i, opcodeMap r.pattern.toNat w = some (f, i) ∧ i.mnemonic = r.mnemonic ∧ r.mask = zmask f ||| 0xFF#32 := by
  simp only [opcodeTable, List.mem_cons, List.not_mem_nil, or_false] at hr
  rcases hr with rfl | rfl | rfl | rfl | rfl | rfl | rfl | rfl | rfl | rfl | rfl | rfl | rfl <;>
    exact ⟨_, _, rfl, rfl, rfl⟩

theorem pattern_lt {r : OpcodeRow} (hr : r ∈ opcodeTable) : r.pattern.toNat < 256 := by
  revert r
  decide

theorem row_eq_of_pattern {r q : OpcodeRow} (hr : r ∈ opcodeTable) (hq : q ∈ opcodeTable)
    (h : r.pattern = q.pattern) : r = q :=
  List.inj_on_of_nodup_map (f := OpcodeRow.pattern) (by decide) hr hq h

theorem row_eq_of_mnemonic {r q : OpcodeRow} (hr : r ∈ opcodeTable) (hq : q ∈ opcodeTable)
    (h : r.mnemonic = q.mnemonic) : r = q :=
  List.inj_on_of_nodup_map (f := OpcodeRow.mnemonic) (by decide) hr hq h

theorem toNat_and_op (w : Word) : (w &&& 0xFF#32).toNat = fieldOp w := by
  rw [BitVec.toNat_and, show (0xFF#32).toNat = 2 ^ 8 - 1 from rfl, Nat.and_two_pow_sub_one_eq_mod, fieldOp]

/-- A row's mask asks two things of a word: no must-be-zero bit set, and the row's opcode. -/
theorem and_mask_eq_iff {f : Format} {w p : Word} (hp : p.toNat < 256) :
    w &&& (zmask f ||| 0xFF#32) = p ↔ fieldOp w = p.toNat ∧ w &&& zmask f = 0#32 := by
  have hpOp : p &&& 0xFF#32 = p := BitVec.eq_of_toNat_eq ((toNat_and_op p).trans (Nat.mod_eq_of_lt hp))
  constructor
  · rintro rfl
    have hz : (zmask f ||| 0xFF#32) &&& zmask f = zmask f := by cases f <;> rfl
    have hdisj : 0xFF#32 &&& zmask f = 0#32 := by cases f <;> rfl
    have hop : (zmask f ||| 0xFF#32) &&& 0xFF#32 = 0xFF#32 := by cases f <;> rfl
    constructor
    · rw [← toNat_and_op, ← hpOp, BitVec.and_assoc, hop]
    · rw [← hz, ← BitVec.and_assoc, ← hpOp, BitVec.and_assoc, hdisj, BitVec.and_zero]
  · rintro ⟨hop, hz⟩
    rw [BitVec.and_or_distrib_left, hz, BitVec.zero_or]
    exact BitVec.eq_of_toNat_eq ((toNat_and_op w).trans hop)

/-- A row covers a word exactly when the word has the row's opcode and decodes. -/
theorem covers_iff {r : OpcodeRow} (hr : r ∈ opcodeTable) {w : Word} :
    r.covers w = true ↔ fieldOp w = r.pattern.toNat ∧ ∃ i, decode w = .ok i ∧ i.mnemonic = r.mnemonic := by
  obtain ⟨f, i, hmap, hname, hmask⟩ := opcodeMap_of_row hr w
  rw [OpcodeRow.covers, beq_iff_eq, hmask, and_mask_eq_iff (pattern_lt hr)]
  refine and_congr_right fun hop => ?_
  rw [← hop] at hmap
  constructor
  · exact fun hz => ⟨i, decode_eq_ok_iff.2 ⟨f, hmap, hz⟩, hname⟩
  · rintro ⟨j, hj, -⟩
    obtain ⟨g, hg, hz⟩ := decode_eq_ok_iff.1 hj
    obtain ⟨rfl, -⟩ : f = g ∧ i = j := by simpa [hmap] using hg
    exact hz

/-- A decoded word has the opcode of its command's row. -/
theorem exists_row_of_decode {w : Word} {i : Instr} (h : decode w = .ok i) :
    ∃ r ∈ opcodeTable, r.mnemonic = i.mnemonic ∧ fieldOp w = r.pattern.toNat := by
  obtain ⟨f, hmap, -⟩ := decode_eq_ok_iff.1 h
  refine ⟨_, row_of_opcodeMap hmap, rfl, ?_⟩
  rw [BitVec.toNat_ofNat, Nat.mod_eq_of_lt ((fieldOp_lt w).trans (by norm_num))]

/-- Settles O3: a row covers the words with its opcode that decode, and rows have opcodes and mnemonics of their own. -/
theorem opcodeTableDecidesDecoding : Obligations.OpcodeTableDecidesDecoding := by
  refine ⟨fun w r hr => ?_, fun w i h => ?_, fun w r q hr hq hrw hqw => ?_⟩
  · rw [covers_iff hr, and_iff_right_iff_imp]
    rintro ⟨i, hdec, hname⟩
    obtain ⟨q, hq, hqname, hop⟩ := exists_row_of_decode hdec
    rwa [row_eq_of_mnemonic hr hq (hname.symm.trans hqname.symm)]
  · obtain ⟨r, hr, hname, -⟩ := exists_row_of_decode h
    exact ⟨r, hr, hname⟩
  · have hop := ((covers_iff hr).1 hrw).1.symm.trans ((covers_iff hq).1 hqw).1
    exact row_eq_of_pattern hr hq (BitVec.eq_of_toNat_eq hop)

/-- A word decodes exactly when some row covers it. -/
theorem exists_decode_iff_covers {w : Word} :
    (∃ i, decode w = .ok i) ↔ ∃ r ∈ opcodeTable, r.covers w = true := by
  obtain ⟨hcovers, hrow, -⟩ := opcodeTableDecidesDecoding
  constructor
  · rintro ⟨i, hdec⟩
    obtain ⟨r, hr, hname⟩ := hrow w i hdec
    exact ⟨r, hr, (hcovers w r hr).2 ⟨i, hdec, hname.symm⟩⟩
  · rintro ⟨r, hr, hw⟩
    obtain ⟨i, hdec, -⟩ := (hcovers w r hr).1 hw
    exact ⟨i, hdec⟩

/-- Settles O4: the opcode map decides the first answer and the rows of the table decide whether there is a command, so
the other answer is what is left. -/
theorem undecodableWordsByCause : Obligations.UndecodableWordsByCause := by
  intro w
  have hillegal := (decode_eq_illegal_iff (w := w)).trans opcodeMap_eq_none_iff
  have hcommand : (∃ i, decode w = .ok i) ↔ ¬∀ r ∈ opcodeTable, r.covers w = false := by
    simp [exists_decode_iff_covers]
  refine ⟨hillegal, ?_⟩
  cases hdec : decode w with
  | ok i => exact iff_of_false (by simp) fun h => hcommand.1 ⟨i, hdec⟩ h.2
  | error e =>
    cases e with
    | illegalOpcode => exact iff_of_false (by simp) fun h => hillegal.1 hdec h.1
    | reservedField =>
      refine iff_of_true rfl ⟨not_not.1 fun h => ?_, not_not.1 fun h => ?_⟩
      · exact absurd (hdec.symm.trans (hillegal.2 h)) (by simp)
      · obtain ⟨i, hi⟩ := hcommand.2 h
        exact absurd (hdec.symm.trans hi) (by simp)

end Sys2Proof.Proofs
end

section
/-! PROOFS. What becomes of a word that is no command (R65, R66, R144), and the way back to the reset state by software
(R161). -/

namespace Sys2Proof.Proofs

open Sys2Proof.Machine Sys2Proof.Laws

/-- With no error pending a word that is no command is recorded with its code (R66). -/
theorem step_undecodable {s : State} {w : Word} {e : DecodeError} (rest : List HostOp) (herrv : s.errv = false)
    (hdec : decode w = .error e) :
    step { s with pending := .write 0x00000C#24 4 w :: rest } =
      .next (State.raiseError { s with pending := rest } (decodeErrCode e) w) := by
  rw [step_cmdWrite]
  rcases issue_cases { s with pending := rest } w with ⟨h, -⟩ | ⟨-, e', he, hissue⟩ | ⟨-, i, hi, -⟩
  · exact absurd h (by simp [herrv])
  · obtain rfl : e = e' := by simpa using hdec.symm.trans he
    exact hissue
  · exact absurd (hdec.symm.trans hi) (by simp)

/-- Settles O18: the error entry is the whole step, and the code is the decoder's. -/
theorem undecodableWordIsRecorded : Obligations.UndecodableWordIsRecorded :=
  fun _ rest _ herrv => ⟨step_undecodable rest herrv, step_undecodable rest herrv⟩

/-- With no error pending the word of CLEAR empties its slot (R87). -/
theorem step_clear {s : State} (herrv : s.errv = false) (k : SlotId) (rest : List HostOp) :
    step { s with pending := .write 0x00000C#24 4 (encode (.clear k)) :: rest } =
      .next (State.setSlot { s with pending := rest } k none) :=
  stepRunsDecodedCommand s rest _ _ herrv (decodeOfEncodeIsTheCommand (.clear k) rfl)

/-- Settles O25: CLRERR leaves no error pending, so both CLEARs are executed, and each of the four transactions gives its
own elements their reset values. -/
theorem softwareReachesResetStateButBuf : Obligations.SoftwareReachesResetStateButBuf := by
  intro s
  have hclrerr := step_statusWrite s [.write 0x00000C#24 4 (encode (.clear 0)),
    .write 0x00000C#24 4 (encode (.clear 1)), .write 0x000010#24 4 0x00000000#32] 0x00000003#32
  have hclear0 := step_clear (s := s.writeStatus 3#32) (by simp) 0
    [.write 0x00000C#24 4 (encode (.clear 1)), .write 0x000010#24 4 0x00000000#32]
  have hclear1 := step_clear (s := (s.writeStatus 3#32).setSlot 0 none) (by simp) 1
    [.write 0x000010#24 4 0x00000000#32]
  have hsetbase := step_baseWrite (((s.writeStatus 3#32).setSlot 0 none).setSlot 1 none) [] 0x00000000#32
  exact (core_run_succ hclrerr 3).trans ((core_run_succ hclear0 2).trans ((core_run_succ hclear1 1).trans
    (core_run_succ hsetbase 0)))

end Sys2Proof.Proofs
end

section
/-! PROOFS. No command branches on the contents of BUF (R69, R145): put other contents in their place, and a command does
the same but for the contents it leaves. -/

namespace Sys2Proof.Proofs

open Sys2Proof.Machine Sys2Proof.Laws

/-- Both outcomes are next states, the second the first with other contents of BUF. -/
def NextAlike (o o' : Host.Outcome State Fault Refusal) : Prop := ∃ t m, o = .next t ∧ o' = .next { t with buf := m }

/-- The states that differ from a state in BUF alone are those with other contents put in its place. -/
theorem eq_withBuf_of_sameButBuf {s s' : State} (h : SameButBuf s s') (hd : s'.nanDraws = s.nanDraws) :
    s' = { s with buf := s'.buf } := by
  obtain ⟨herrv, hdrop, herrcode, herrcmd, hbaseIdx, hslot0, hslot1, hbufSize, hbufEpoch, hpending, hreplies⟩ := h
  cases s'
  simp_all

section Contents

variable (s : State) (m : Memory)

theorem setSlot_withBuf (k : SlotId) (x : Slot) :
    State.setSlot { s with buf := m } k x = { s.setSlot k x with buf := m } := by
  unfold State.setSlot
  split <;> rfl

/-- A body performs as many operations as it has, whatever BUF holds (R69). -/
theorem runBody_withBuf (base : Nat) (T : Nat → Word) (b : List Assign) :
    ∃ m', State.runBody { s with buf := m } base T b = { s.runBody base T b with buf := m' } :=
  ⟨_, eq_withBuf_of_sameButBuf ⟨rfl, rfl, rfl, rfl, rfl, rfl, rfl, rfl, rfl, rfl, rfl⟩
    (by rw [runBody_ops, runBody_ops])⟩

/-- A check's answer that does not depend on BUF leaves a command with alike bodies alike outcomes. -/
theorem checked_alike (i : Instr) (c : Option ErrCode) {t t' : State} (h : ∃ m', t' = { t with buf := m' }) :
    NextAlike (s.checked i c t) (State.checked { s with buf := m } i c t') := by
  obtain ⟨m', rfl⟩ := h
  cases c with
  | none => exact ⟨t, m', rfl, rfl⟩
  | some e => exact ⟨s.raiseError e (encode i), m, rfl, rfl⟩

theorem exec_alike (i : Instr) : NextAlike (exec i s) (exec i { s with buf := m }) := by
  cases i with
  | nop => exact ⟨s, m, rfl, rfl⟩
  | init k l => exact checked_alike s m _ _ ⟨m, setSlot_withBuf s m k _⟩
  | clear k => exact ⟨s.setSlot k none, m, rfl, congrArg _ (setSlot_withBuf s m k none)⟩
  | backward k | rotIn k | bflyFirst k | bflyGen k a b | bflyAll k | bitrev k | rotOut k | ker32 ofs | ker16 ofs
  | ker8 ofs => exact checked_alike s m _ _ (runBody_withBuf s m _ _ _)

end Contents

/-- Settles O38: every check looks at the slots, BASE and the size of BUF only, and a body's count is its own. -/
theorem commandsDoNotBranchOnContent : Obligations.CommandsDoNotBranchOnContent := by
  intro i s s' hsame hdraws
  rw [eq_withBuf_of_sameButBuf hsame hdraws]
  obtain ⟨t, m, ht, ht'⟩ := exec_alike s s'.buf i
  exact ⟨t, _, ht, ht', ⟨rfl, rfl, rfl, rfl, rfl, rfl, rfl, rfl, rfl, rfl, rfl⟩, rfl⟩

end Sys2Proof.Proofs
end

section
/-! PROOFS. BACKWARD and its four stages (R101): one body after another on the same window with the same table. -/

namespace Sys2Proof.Proofs

open Sys2Proof.Machine Sys2Proof.Laws

/-! ### The stages on a state whose checks pass -/

section Stages

variable {s : State} {k : SlotId} (h : s.commonCheck k = none)
include h

theorem exec_rotIn : exec (.rotIn k) s = .next (s.slotBody k rotInBody) := checked_none h

theorem exec_bflyAll : exec (.bflyAll k) s = .next (s.slotBody k bflyAllBody) := checked_none h

theorem exec_bitrev : exec (.bitrev k) s = .next (s.slotBody k bitrevBody) := checked_none h

theorem exec_rotOut : exec (.rotOut k) s = .next (s.slotBody k rotOutBody) := checked_none h

end Stages

/-- A slot's body leaves the slot, BASE and the size of BUF, so the next command's checks pass again. -/
theorem commonCheck_slotBody (s : State) (k : SlotId) (b : Nat → List Assign) :
    (s.slotBody k b).commonCheck k = s.commonCheck k := rfl

/-! ### One body or four -/

/-- Two slot-based bodies in a row are one, when the second sets its temporaries before it reads them (R20). -/
theorem slotBody_append {s : State} {k : SlotId} {b c : Nat → List Assign} {S : Nat → Prop}
    (hc : bodyReadsWithin S [] (c (slotL (s.slot k)))) :
    s.slotBody k (fun l => b l ++ c l) = (s.slotBody k b).slotBody k c :=
  runBody_append hc

theorem slotBody_backwardBody {s : State} {k : SlotId} (h : slotValid (s.slot k) = true) :
    s.slotBody k backwardBody =
      (((s.slotBody k rotInBody).slotBody k bflyAllBody).slotBody k bitrevBody).slotBody k rotOutBody := by
  have h6 := (slotL_range h).1
  calc s.slotBody k backwardBody
      = (s.slotBody k fun l => rotInBody l ++ bflyAllBody l ++ bitrevBody l).slotBody k rotOutBody :=
        slotBody_append (rotOutBody_reads h6)
    _ = ((s.slotBody k fun l => rotInBody l ++ bflyAllBody l).slotBody k bitrevBody).slotBody k rotOutBody := by
        rw [slotBody_append (bitrevBody_reads h6)]
    _ = _ := by rw [slotBody_append (bflyAllBody_reads h6)]

/-- Settles O39: every stage finds the checks passed that BACKWARD found passed, and performs its part of the body. -/
theorem backwardIsItsFourStages : Obligations.BackwardIsItsFourStages := by
  intro s k hr
  have hcheck := commonCheck_ready.2 hr
  refine ⟨s.slotBody k backwardBody, checked_none hcheck, ?_⟩
  rw [slotBody_backwardBody hr.1]
  simp only [runCommands, exec_rotIn, exec_bflyAll, exec_bitrev, exec_rotOut, commonCheck_slotBody, hcheck]

end Sys2Proof.Proofs
end

section
/-! PROOFS. NOP (R80), and which steps change a slot (R88). -/

namespace Sys2Proof.Proofs

open Sys2Proof.Machine Sys2Proof.Laws

/-! ### NOP (R80) -/

/-- Of the words with opcode 0 only the zero word is a command: a must-be-zero bit is set in every other. -/
theorem decode_of_fieldOp_zero {w : Word} (hop : fieldOp w = 0) (hw : w ≠ 0#32) : decode w = .error .reservedField := by
  have hmap : opcodeMap (fieldOp w) w = some (.FN, .nop) := by rw [hop, opcodeMap]
  cases hdec : decode w with
  | ok i =>
    obtain ⟨f, hi, -⟩ := decode_eq_ok_iff.1 hdec
    obtain ⟨-, rfl⟩ : Format.FN = f ∧ Instr.nop = i := by simpa using hmap.symm.trans hi
    exact absurd (decodedWordIsItsEncoding w _ hdec).2.symm hw
  | error e =>
    cases e with
    | illegalOpcode => exact absurd (hmap.symm.trans (decode_eq_illegal_iff.1 hdec)) (by simp)
    | reservedField => rfl

/-- Issuing the zero word changes nothing: it is not counted as dropped, and it executes as NOP. -/
theorem issue_zero (s : State) : s.issue 0#32 = .next s := by
  rcases issue_cases s 0#32 with ⟨-, h⟩ | ⟨-, e, he, -⟩ | ⟨-, i, hi, h⟩
  · rw [h, State.discard, if_neg (not_not.mpr rfl)]
  · cases he
  · cases hi
    exact h

/-- Settles O26: the zero word decodes to NOP and is the one word a pending error does not count as dropped. -/
theorem nopChangesNothing : Obligations.NopChangesNothing :=
  ⟨rfl, fun _ => decode_of_fieldOp_zero, fun _ => rfl, fun s rest => (step_cmdWrite s rest 0#32).trans (issue_zero _)⟩

/-! ### Slots (R88) -/

theorem writeStatus_slot (s : State) (v : Word) (k : SlotId) : (s.writeStatus v).slot k = s.slot k := by
  rw [State.slot, State.slot, writeStatus_slot0, writeStatus_slot1]

theorem discard_slot (s : State) (w : Word) (k : SlotId) : (s.discard w).slot k = s.slot k := by
  rw [State.slot, State.slot, discard_slot0, discard_slot1]

/-- Only INIT and CLEAR of a slot change it (R88). -/
theorem exec_slot_ne {i : Instr} {s t : State} {k : SlotId} (h : exec i s = .next t) (hne : t.slot k ≠ s.slot k) :
    i = .clear k ∨ ∃ l, i = .init k l := by
  rcases exec_cases i s with ⟨code, -, heq⟩ | heq | ⟨j, x, hi, heq⟩ | ⟨T, b, lo, hi, heq, -⟩ <;>
    obtain rfl := Host.Outcome.next.inj (heq.symm.trans h)
  · exact absurd rfl hne
  · exact absurd rfl hne
  · obtain rfl : k = j := by_contra fun hkj => hne (setSlot_slot_other s j x hkj)
    exact hi
  · exact absurd (runBody_slot ..) hne

theorem issue_slot_ne {s t : State} {w : Word} {k : SlotId} (h : s.issue w = .next t) (hne : t.slot k ≠ s.slot k) :
    s.errv = false ∧ (decode w = .ok (.clear k) ∨ ∃ l, decode w = .ok (.init k l)) := by
  rcases issue_cases s w with ⟨-, heq⟩ | ⟨-, e, -, heq⟩ | ⟨herr, i, hi, heq⟩ <;> rw [heq] at h
  · cases h
    exact absurd (discard_slot ..) hne
  · cases h
    exact absurd rfl hne
  · refine ⟨herr, ?_⟩
    rcases exec_slot_ne h hne with rfl | ⟨l, rfl⟩
    · exact .inl hi
    · exact .inr ⟨l, hi⟩

/-- Settles O29: of all events at the port only the reset and an issued command touch a slot. -/
theorem tablesChangeOnlyByInitClearReset : Obligations.TablesChangeOnlyByInitClearReset := by
  intro s t k h hne
  cases stepResult_of_step h with
  | reset hp => exact ⟨_, .inl hp⟩
  | writeStatus => exact absurd (writeStatus_slot ..) hne
  | writeCmd hp hissue =>
    have hcmd := issue_slot_ne hissue hne
    exact ⟨_, .inr ⟨_, hp, hcmd⟩⟩
  | idle | read | writeBase | writeBuf | ignored => exact absurd rfl hne

end Sys2Proof.Proofs
end

section
/-! PROOFS. The bit-reversal table (R84): reversing the low bits is its own inverse, and the two halves of the table are
told apart by the entries modulo 4. -/

namespace Sys2Proof.Proofs

open Sys2Proof.Machine Sys2Proof.Laws

/-! ### Reversing bits -/

theorem revBits_lt (i w : Nat) : revBits i w < 2 ^ w := by
  induction w generalizing i with
  | zero => exact Nat.one_pos
  | succ w ih =>
    have hrest := ih (i / 2)
    have hbit : i % 2 * 2 ^ w ≤ 1 * 2 ^ w := Nat.mul_le_mul_right _ (by omega)
    rw [revBits, pow_succ]
    omega

theorem revBits_testBit (i : Nat) {w b : Nat} (hb : b < w) : (revBits i w).testBit b = i.testBit (w - 1 - b) := by
  induction w generalizing i b with
  | zero => exact absurd hb (Nat.not_lt_zero b)
  | succ w ih =>
    rw [revBits, Nat.mul_comm, Nat.testBit_two_pow_mul_add _ (revBits_lt _ w)]
    split
    · next hlt => rw [ih _ hlt, Nat.testBit_div_two, show w - 1 - b + 1 = w + 1 - 1 - b by omega]
    · obtain rfl : b = w := by omega
      rw [Nat.sub_self, show b + 1 - 1 - b = 0 by omega, Nat.testBit_zero, Nat.testBit_zero, Nat.mod_mod]

theorem revBits_revBits {i w : Nat} (hi : i < 2 ^ w) : revBits (revBits i w) w = i := by
  apply Nat.eq_of_testBit_eq
  intro b
  obtain hb | hb := Nat.lt_or_ge b w
  · rw [revBits_testBit _ hb, revBits_testBit _ (by omega), show w - 1 - (w - 1 - b) = b by omega]
  · rw [testBit_of_lt_of_le (revBits_lt _ w) hb, testBit_of_lt_of_le hi hb]

/-- A leading zero becomes a trailing one. -/
theorem revBits_succ_of_lt {i w : Nat} (hi : i < 2 ^ w) : revBits i (w + 1) = 2 * revBits i w := by
  induction w generalizing i with
  | zero =>
    obtain rfl : i = 0 := by omega
    rfl
  | succ w ih =>
    rw [revBits, ih (by omega), revBits]
    ring

/-- Two leading zeros become two trailing ones. -/
theorem revBits_add_two_of_lt {i w : Nat} (hi : i < 2 ^ w) : revBits i (w + 2) = 4 * revBits i w := by
  rw [revBits_succ_of_lt (by rw [pow_succ]; omega), revBits_succ_of_lt hi]
  ring

theorem revBits_injOn {i j w : Nat} (hi : i < 2 ^ w) (hj : j < 2 ^ w) (h : revBits i w = revBits j w) : i = j := by
  rw [← revBits_revBits hi, h, revBits_revBits hj]

/-! ### The entries of the table -/

/-- The size of a block, n = 8q for q = 2^w. -/
theorem two_pow_add_three (w : Nat) : 2 ^ (w + 3) = 8 * 2 ^ w := by ring

theorem bitrevEntry_odd {i w : Nat} (hi : i < 2 ^ w) : bitrevEntry (w + 3) (2 * i + 1) = 4 * revBits i w := by
  rw [bitrevEntry, two_pow_add_three, if_pos (by omega), if_pos (by omega), show (2 * i + 1) / 2 = i by omega]
  exact revBits_add_two_of_lt hi

theorem bitrevEntry_even {i w : Nat} (hi : i < 2 ^ w) :
    bitrevEntry (w + 3) (2 * i) = 4 * 2 ^ w - 2 - 4 * revBits i w := by
  rw [bitrevEntry, two_pow_add_three, if_pos (by omega), if_neg (by omega), show 2 * i / 2 = i by omega,
    ← revBits_add_two_of_lt hi]
  congr 2
  omega

theorem bitrevEntry_of_ge {k w : Nat} (hk : 2 * 2 ^ w ≤ k) : bitrevEntry (w + 3) k = 0 := by
  rw [bitrevEntry, two_pow_add_three, if_neg (by omega)]

/-- An index inside the table is even or odd, and its half is a number of w bits. -/
theorem index_cases {k w : Nat} (hk : k < 2 * 2 ^ w) : ∃ i < 2 ^ w, k = 2 * i ∨ k = 2 * i + 1 :=
  ⟨k / 2, by omega, by omega⟩

theorem bitrevEntry_even_and_le (w k : Nat) :
    bitrevEntry (w + 3) k % 2 = 0 ∧ bitrevEntry (w + 3) k ≤ 4 * 2 ^ w - 2 := by
  obtain hk | hk := Nat.lt_or_ge k (2 * 2 ^ w)
  · obtain ⟨i, hi, rfl | rfl⟩ := index_cases hk
    · have := revBits_lt i w
      rw [bitrevEntry_even hi]
      omega
    · have := revBits_lt i w
      rw [bitrevEntry_odd hi]
      omega
  · rw [bitrevEntry_of_ge hk]
    omega

/-- The multiples of 4 stand at the odd indices, the other even numbers at the even ones. -/
theorem exists_bitrevEntry_eq {e w : Nat} (heven : e % 2 = 0) (he : e ≤ 4 * 2 ^ w - 2) :
    ∃ k < 2 * 2 ^ w, bitrevEntry (w + 3) k = e := by
  have hpos : 0 < 2 ^ w := Nat.two_pow_pos w
  by_cases h4 : e % 4 = 0
  · have hq : e / 4 < 2 ^ w := by omega
    have hi := revBits_lt (e / 4) w
    refine ⟨2 * revBits (e / 4) w + 1, by omega, ?_⟩
    rw [bitrevEntry_odd hi, revBits_revBits hq]
    omega
  · have hq : (4 * 2 ^ w - 2 - e) / 4 < 2 ^ w := by omega
    have hi := revBits_lt ((4 * 2 ^ w - 2 - e) / 4) w
    refine ⟨2 * revBits ((4 * 2 ^ w - 2 - e) / 4) w, by omega, ?_⟩
    rw [bitrevEntry_even hi, revBits_revBits hq]
    omega

theorem bitrevEntry_injOn {j k w : Nat} (hj : j < 2 * 2 ^ w) (hk : k < 2 * 2 ^ w)
    (h : bitrevEntry (w + 3) j = bitrevEntry (w + 3) k) : j = k := by
  obtain ⟨a, ha, hja⟩ := index_cases hj
  obtain ⟨b, hb, hkb⟩ := index_cases hk
  have hra := revBits_lt a w
  have hrb := revBits_lt b w
  have inj := revBits_injOn ha hb
  rcases hja with rfl | rfl <;> rcases hkb with rfl | rfl <;>
    simp only [bitrevEntry_even, bitrevEntry_odd, ha, hb] at h
  · rw [inj (by omega)]
  · omega
  · omega
  · rw [inj (by omega)]

/-- Settles O31: with n = 8q the table is 4·rev(i) at the odd indices and n/2 − 2 − 4·rev(i) at the even ones, for the
reversal of the bits of i < q, which is its own inverse. -/
theorem bitReversalTableIsPermutation : Obligations.BitReversalTableIsPermutation := by
  refine ⟨fun i _ _ => revBits_testBit i, revBits_lt, fun l h6 _ => ?_⟩
  obtain ⟨w, rfl⟩ : ∃ w, l = w + 3 := ⟨l - 3, by omega⟩
  have hn := two_pow_add_three w
  have h8 : 2 ^ (w + 3) / 8 = 2 ^ w := by omega
  have h4 : 2 ^ (w + 3) / 4 = 2 * 2 ^ w := by omega
  have h2 : 2 ^ (w + 3) / 2 = 4 * 2 ^ w := by omega
  rw [h8, h4, h2]
  refine ⟨fun i hi => ?_, bitrevEntry_even_and_le w, fun _ => exists_bitrevEntry_eq, fun _ _ => bitrevEntry_injOn,
    fun _ => bitrevEntry_of_ge⟩
  have hlt := revBits_lt i w
  rw [bitrevEntry_odd hi, bitrevEntry_even hi, show w + 3 - 1 = w + 2 by omega, revBits_add_two_of_lt hi]
  omega

end Sys2Proof.Proofs
end

section
/-! PROOFS. The fixed-point cosines of the trig table (assumption 5): the series that computes them is within 128 units of
2^-64 of the cosine. -/

namespace Sys2Proof.Proofs

open Sys2Proof.Machine

/-! ### Fixed-point quotients and products -/

theorem abs_natCast_div_sub_le (a b : Nat) : |((a / b : Nat) : ℝ) - a / b| ≤ 1 := by
  have hle : ((a / b : Nat) : ℝ) ≤ a / b := Nat.cast_div_le
  have hlt : (a : ℝ) / b < (a / b : Nat) + 1 := by
    rw [← Nat.floor_div_eq_div (K := ℝ)]
    exact Nat.lt_floor_add_one _
  rw [abs_le]
  constructor <;> linarith

/-- The errors of the factors of a fixed-point product add up, and rounding down adds at most one unit. -/
theorem fixMul_near {x a : Nat} {X A p q : ℝ} (hx : |x - 2 ^ 64 * X| ≤ p) (ha : |a - 2 ^ 64 * A| ≤ q)
    (ha1 : a ≤ 2 ^ 64) (hX0 : 0 ≤ X) (hX1 : X ≤ 1) :
    |((x * a / 2 ^ 64 : Nat) : ℝ) - 2 ^ 64 * (X * A)| ≤ p + q + 1 := by
  have hfloor := abs_natCast_div_sub_le (x * a) (2 ^ 64)
  have ha1' : (a : ℝ) / 2 ^ 64 ≤ 1 := by
    rw [div_le_one (by positivity)]
    exact_mod_cast ha1
  have hx' : |(x - 2 ^ 64 * X) * (a / 2 ^ 64)| ≤ p := by
    rw [abs_mul, abs_of_nonneg (by positivity : (0 : ℝ) ≤ a / 2 ^ 64)]
    exact (mul_le_of_le_one_right (abs_nonneg _) ha1').trans hx
  have ha' : |X * (a - 2 ^ 64 * A)| ≤ q := by
    rw [abs_mul, abs_of_nonneg hX0]
    exact (mul_le_of_le_one_left (abs_nonneg _) hX1).trans ha
  have hsplit : ((x * a / 2 ^ 64 : Nat) : ℝ) - 2 ^ 64 * (X * A) =
      (((x * a / 2 ^ 64 : Nat) : ℝ) - (x * a : Nat) / (2 ^ 64 : Nat)) + (x - 2 ^ 64 * X) * (a / 2 ^ 64) +
        X * (a - 2 ^ 64 * A) := by
    push_cast
    ring
  rw [hsplit]
  calc _ ≤ 1 + p + q := (abs_add_three _ _ _).trans (add_le_add (add_le_add hfloor hx') ha')
    _ = p + q + 1 := by ring

/-! ### The series in exact arithmetic -/

/-- What `altSeries` computes, in units of 1 and with no rounding. -/
noncomputable def altSeriesReal (d : Nat → Nat) (y : ℝ) : Nat → Nat → ℝ
  | _, 0 => 1
  | k, n + 1 => 1 - y * altSeriesReal d y (k + 1) n / d k

theorem altSeriesReal_succ (d : Nat → Nat) (y : ℝ) (k n : Nat) :
    altSeriesReal d y k (n + 1) = 1 - y * altSeriesReal d y (k + 1) n / d k := rfl

theorem altSeries_succ (d : Nat → Nat) (x2 k n : Nat) :
    altSeries d x2 k (n + 1) = 2 ^ 64 - x2 * altSeries d x2 (k + 1) n / 2 ^ 64 / d k := rfl

theorem altSeries_le (d : Nat → Nat) (x2 k n : Nat) : altSeries d x2 k n ≤ 2 ^ 64 := by
  cases n with
  | zero => exact le_rfl
  | succ n => exact Nat.sub_le _ _

/-- Every rounding of the series loses at most a unit, and each division by at least 2 halves what was lost before. -/
theorem altSeries_near {d : Nat → Nat} {x2 : Nat} {y : ℝ} (hd : ∀ k, 2 ≤ d (k + 1)) (hy0 : 0 ≤ y) (hy1 : y ≤ 1)
    (hx2 : x2 ≤ 2 ^ 64) (hnear : |x2 - 2 ^ 64 * y| ≤ 5) (k n : Nat) :
    |altSeries d x2 (k + 1) n - 2 ^ 64 * altSeriesReal d y (k + 1) n| ≤ 8 := by
  induction n generalizing k with
  | zero => norm_num [altSeries, altSeriesReal, fixOne]
  | succ n ih =>
    have hprod := fixMul_near hnear (ih (k + 1)) (altSeries_le d x2 _ n) hy0 hy1
    rw [altSeries_succ, altSeriesReal_succ]
    generalize hp : x2 * altSeries d x2 (k + 1 + 1) n / 2 ^ 64 = p at *
    have hp1 : p ≤ 2 ^ 64 := by
      rw [← hp]
      exact Nat.div_le_of_le_mul (Nat.mul_le_mul hx2 (altSeries_le d x2 _ n))
    have hd' : (2 : ℝ) ≤ d (k + 1) := by exact_mod_cast hd k
    have hfloor := abs_natCast_div_sub_le p (d (k + 1))
    have hquot : |((p : ℝ) - 2 ^ 64 * (y * altSeriesReal d y (k + 1 + 1) n)) / d (k + 1)| ≤ 7 := by
      rw [abs_div, abs_of_pos (by linarith : (0 : ℝ) < d (k + 1)), div_le_iff₀ (by linarith)]
      linarith
    rw [Nat.cast_sub ((Nat.div_le_self _ _).trans hp1), abs_sub_comm]
    have hsplit : 2 ^ 64 * (1 - y * altSeriesReal d y (k + 1 + 1) n / d (k + 1)) -
        (((2 ^ 64 : Nat) : ℝ) - (p / d (k + 1) : Nat)) = ((p / d (k + 1) : Nat) - (p : ℝ) / d (k + 1)) +
          ((p : ℝ) - 2 ^ 64 * (y * altSeriesReal d y (k + 1 + 1) n)) / d (k + 1) := by
      push_cast
      ring
    rw [hsplit]
    exact (abs_add_le _ _).trans (by linarith)

/-- Horner's scheme is the partial sum of the series whose terms have the scheme's ratios. -/
theorem mul_altSeriesReal {d : Nat → Nat} {y : ℝ} {c : Nat → ℝ} (hc : ∀ k, c (k + 1) = -(c k * y / d (k + 1)))
    (k n : Nat) : c k * altSeriesReal d y (k + 1) n = ∑ i ∈ Finset.range (n + 1), c (k + i) := by
  induction n generalizing k with
  | zero => rw [altSeriesReal, Finset.sum_range_one, mul_one, Nat.add_zero]
  | succ n ih =>
    have htail : ∑ i ∈ Finset.range (n + 1), c (k + (i + 1)) = c (k + 1) * altSeriesReal d y (k + 1 + 1) n := by
      rw [ih]
      exact Finset.sum_congr rfl fun i _ => by rw [Nat.add_right_comm, Nat.add_assoc]
    rw [Finset.sum_range_succ', htail, altSeriesReal_succ, hc, Nat.add_zero k]
    ring

/-! ### The terms left out -/

theorem pow_le_mul_factorial : ∀ n, 32 ^ n ≤ 64 * (2 * n).factorial
  | 0 | 1 | 2 | 3 => by decide
  | n + 4 => by
    have ih := pow_le_mul_factorial (n + 3)
    have h32 : 32 ≤ (2 * n + 8) * (2 * n + 7) := by nlinarith
    calc 32 ^ (n + 4) = 32 * 32 ^ (n + 3) := by ring
      _ ≤ (2 * n + 8) * (2 * n + 7) * (64 * (2 * (n + 3)).factorial) := Nat.mul_le_mul h32 ih
      _ = 64 * (2 * (n + 4)).factorial := by
        rw [show 2 * (n + 4) = 2 * (n + 3) + 1 + 1 by ring, Nat.factorial_succ, Nat.factorial_succ]
        ring

theorem norm_term_le {x : ℝ} (h0 : 0 ≤ x) (h1 : x ≤ 1) {m n : Nat} (hm : 2 * n ≤ m) :
    ‖(-1) ^ n * x ^ m / m.factorial‖ ≤ 64 * (1 / 32) ^ n := by
  have hfac : (32 : ℝ) ^ n ≤ 64 * m.factorial := by
    exact_mod_cast (pow_le_mul_factorial n).trans (Nat.mul_le_mul_left _ (Nat.factorial_le hm))
  have hx : x ^ m ≤ 1 := pow_le_one₀ h0 h1
  rw [Real.norm_eq_abs, abs_div, abs_mul, abs_pow, abs_neg, abs_one, one_pow, one_mul, abs_of_nonneg (by positivity),
    Nat.abs_cast, one_div, inv_pow, ← div_eq_mul_inv, div_le_div_iff₀ (by positivity) (by positivity)]
  nlinarith [pow_nonneg h0 m, pow_pos (by norm_num : (0 : ℝ) < 32) n]

/-- With thirteen terms summed, such a series is within 2^-58 of its limit. -/
theorem abs_sum_sub_le {c : Nat → ℝ} {a : ℝ} (hc : ∀ n, ‖c n‖ ≤ 64 * (1 / 32) ^ n) (ha : HasSum c a) :
    |∑ i ∈ Finset.range (12 + 1), c (0 + i) - a| ≤ 1 / 2 ^ 58 := by
  simp only [Nat.zero_add]
  exact (norm_sub_le_of_geometric_bound_of_hasSum (by norm_num) hc ha 13).trans (by norm_num)

/-- The divisors of the cosine's series. -/
def cosDivisor (k : Nat) : Nat := (2 * k - 1) * (2 * k)

/-- The divisors of the sine's series. -/
def sinDivisor (k : Nat) : Nat := 2 * k * (2 * k + 1)

theorem cosDivisor_succ (k : Nat) : cosDivisor (k + 1) = (2 * k + 1) * (2 * k + 2) := rfl

theorem sinDivisor_succ (k : Nat) : sinDivisor (k + 1) = (2 * k + 2) * (2 * k + 3) := rfl

theorem cosSeries_eq (x : Nat) : cosSeries x = altSeries cosDivisor (x * x / 2 ^ 64) 1 12 := rfl

theorem sinSeries_eq (x : Nat) : sinSeries x = x * altSeries sinDivisor (x * x / 2 ^ 64) 1 12 / 2 ^ 64 := rfl

theorem altSeriesReal_near_cos {x : ℝ} (h0 : 0 ≤ x) (h1 : x ≤ 1) :
    |altSeriesReal cosDivisor (x * x) 1 12 - Real.cos x| ≤ 1 / 2 ^ 58 := by
  have hsum := mul_altSeriesReal (d := cosDivisor) (y := x * x) (c := fun n => (-1) ^ n * x ^ (2 * n) / (2 * n).factorial)
    (fun k => by
      rw [cosDivisor_succ, show 2 * (k + 1) = 2 * k + 1 + 1 by ring, Nat.factorial_succ, Nat.factorial_succ]
      push_cast
      field_simp
      ring) 0 12
  have hterm : (-1) ^ 0 * x ^ (2 * 0) / ((2 * 0).factorial : ℝ) = 1 := by norm_num
  rw [hterm, one_mul] at hsum
  rw [hsum]
  exact abs_sum_sub_le (fun n => norm_term_le h0 h1 le_rfl) (Real.hasSum_cos x)

theorem altSeriesReal_near_sin {x : ℝ} (h0 : 0 ≤ x) (h1 : x ≤ 1) :
    |x * altSeriesReal sinDivisor (x * x) 1 12 - Real.sin x| ≤ 1 / 2 ^ 58 := by
  have hsum := mul_altSeriesReal (d := sinDivisor) (y := x * x)
    (c := fun n => (-1) ^ n * x ^ (2 * n + 1) / (2 * n + 1).factorial)
    (fun k => by
      rw [sinDivisor_succ, show 2 * (k + 1) + 1 = 2 * k + 1 + 1 + 1 by ring, Nat.factorial_succ, Nat.factorial_succ]
      push_cast
      field_simp
      ring) 0 12
  have hterm : (-1) ^ 0 * x ^ (2 * 0 + 1) / ((2 * 0 + 1).factorial : ℝ) = x := by norm_num
  rw [hterm] at hsum
  rw [hsum]
  exact abs_sum_sub_le (fun n => norm_term_le h0 h1 (Nat.le_succ _)) (Real.hasSum_sin x)

/-! ### Cosine and sine of an angle of at most π/4 -/

section Series

variable {x : Nat} {θ : ℝ}

theorem square_near (hx : |x - 2 ^ 64 * θ| ≤ 2) (hx1 : x ≤ 2 ^ 64) (h0 : 0 ≤ θ) (h1 : θ ≤ 1) :
    x * x / 2 ^ 64 ≤ 2 ^ 64 ∧ |((x * x / 2 ^ 64 : Nat) : ℝ) - 2 ^ 64 * (θ * θ)| ≤ 5 :=
  ⟨Nat.div_le_of_le_mul (Nat.mul_le_mul hx1 hx1), (fixMul_near hx hx hx1 h0 h1).trans (by norm_num)⟩

theorem cosSeries_near (hx : |x - 2 ^ 64 * θ| ≤ 2) (hx1 : x ≤ 2 ^ 64) (h0 : 0 ≤ θ) (h1 : θ ≤ 1) :
    |cosSeries x - 2 ^ 64 * Real.cos θ| ≤ 128 := by
  obtain ⟨hsq1, hsq⟩ := square_near hx hx1 h0 h1
  have hseries := altSeries_near (d := cosDivisor) (fun k => by rw [cosDivisor_succ]; nlinarith) (mul_nonneg h0 h0)
    (mul_le_one₀ h1 h0 h1) hsq1 hsq 0 12
  have hcos := altSeriesReal_near_cos h0 h1
  rw [cosSeries_eq]
  rw [Nat.zero_add, abs_le] at hseries
  rw [abs_le] at *
  constructor <;> linarith

theorem sinSeries_near (hx : |x - 2 ^ 64 * θ| ≤ 2) (hx1 : x ≤ 2 ^ 64) (h0 : 0 ≤ θ) (h1 : θ ≤ 1) :
    |sinSeries x - 2 ^ 64 * Real.sin θ| ≤ 128 := by
  obtain ⟨hsq1, hsq⟩ := square_near hx hx1 h0 h1
  have hseries := altSeries_near (d := sinDivisor) (fun k => by rw [sinDivisor_succ]; nlinarith) (mul_nonneg h0 h0)
    (mul_le_one₀ h1 h0 h1) hsq1 hsq 0 12
  have hprod := fixMul_near hx hseries (altSeries_le _ _ _ _) h0 h1
  have hsin := altSeriesReal_near_sin h0 h1
  rw [sinSeries_eq]
  rw [Nat.zero_add] at hprod
  rw [abs_le] at *
  constructor <;> linarith

end Series

/-! ### Cosines of the first quarter turn -/

theorem fixPi_near : |fixPi - 2 ^ 64 * Real.pi| ≤ 1 := by
  have hlo := Real.pi_gt_d20
  have hhi := Real.pi_lt_d20
  rw [abs_le]
  norm_num [fixPi] at *
  constructor <;> linarith

/-- The fixed-point angle π·j/2^e, up to π/4. -/
theorem angle_near {j e : Nat} (hj : 4 * j ≤ 2 ^ e) :
    |((fixPi * j / 2 ^ e : Nat) : ℝ) - 2 ^ 64 * (Real.pi * j / 2 ^ e)| ≤ 2 ∧ fixPi * j / 2 ^ e ≤ 2 ^ 64 ∧
      0 ≤ Real.pi * j / 2 ^ e ∧ Real.pi * j / 2 ^ e ≤ 1 := by
  have hpi := Real.pi_pos
  have hquarter : (j : ℝ) / 2 ^ e ≤ 1 / 4 := by
    rw [div_le_div_iff₀ (by positivity) (by norm_num)]
    exact_mod_cast (by omega : j * 4 ≤ 1 * 2 ^ e)
  have hfloor := abs_natCast_div_sub_le (fixPi * j) (2 ^ e)
  have hscaled : |(fixPi - 2 ^ 64 * Real.pi) * (j / 2 ^ e)| ≤ 1 := by
    rw [abs_mul, abs_of_nonneg (by positivity : (0 : ℝ) ≤ j / 2 ^ e)]
    exact (mul_le_of_le_one_right (abs_nonneg _) (hquarter.trans (by norm_num))).trans fixPi_near
  refine ⟨?_, ?_, by positivity, ?_⟩
  · have hsplit : ((fixPi * j / 2 ^ e : Nat) : ℝ) - 2 ^ 64 * (Real.pi * j / 2 ^ e) =
        (((fixPi * j / 2 ^ e : Nat) : ℝ) - (fixPi * j : Nat) / (2 ^ e : Nat)) +
          (fixPi - 2 ^ 64 * Real.pi) * (j / 2 ^ e) := by
      push_cast
      ring
    rw [hsplit]
    exact (abs_add_le _ _).trans (by linarith)
  · refine Nat.div_le_of_le_mul ?_
    have hfix : fixPi ≤ 4 * 2 ^ 64 := by norm_num [fixPi]
    nlinarith
  · rw [mul_div_assoc]
    nlinarith [Real.pi_le_four]

theorem cosQuarter_near {j e : Nat} (he : 2 ≤ e) (hj : j ≤ 2 ^ (e - 1)) :
    |cosQuarter j e - 2 ^ 64 * Real.cos (Real.pi * j / 2 ^ e)| ≤ 128 := by
  obtain ⟨e, rfl⟩ : ∃ d, e = d + 2 := ⟨e - 2, by omega⟩
  rw [show e + 2 - 1 = e + 1 by omega] at *
  rw [cosQuarter, Nat.add_sub_cancel, show e + 2 - 1 = e + 1 by omega]
  split
  · obtain ⟨hx, hx1, h0, h1⟩ := angle_near (j := j) (e := e + 2) (by rw [pow_add]; omega)
    exact cosSeries_near hx hx1 h0 h1
  · obtain ⟨hx, hx1, h0, h1⟩ := angle_near (j := 2 ^ (e + 1) - j) (e := e + 2) (by rw [pow_succ, pow_add] at *; omega)
    have hangle : Real.pi * (2 ^ (e + 1) - j : Nat) / 2 ^ (e + 2) = Real.pi / 2 - Real.pi * j / 2 ^ (e + 2) := by
      rw [Nat.cast_sub hj]
      push_cast
      field_simp
      ring
    have hsin := sinSeries_near hx hx1 h0 h1
    rwa [hangle, Real.sin_pi_div_two_sub] at hsin

/-- The cosine depends on the angle alone, not on how its fraction is written. -/
theorem cosQuarter_mul_two_pow (j k : Nat) {e : Nat} (he : 2 ≤ e) : cosQuarter (j * 2 ^ k) (e + k) = cosQuarter j e := by
  have hpos : 0 < 2 ^ k := Nat.two_pow_pos k
  rw [cosQuarter, cosQuarter, show e + k - 2 = e - 2 + k by omega, show e + k - 1 = e - 1 + k by omega, pow_add, pow_add,
    pow_add, ← Nat.sub_mul, ← Nat.mul_assoc, ← Nat.mul_assoc, Nat.mul_div_mul_right _ _ hpos,
    Nat.mul_div_mul_right _ _ hpos]
  exact if_congr (Nat.mul_le_mul_right_iff hpos) rfl rfl

end Sys2Proof.Proofs
end

section
/-! PROOFS. The trig table (R82, R83): a computed cosine that is far from every tie is rounded like the exact one, and at
each of the 8191 angles of the tables it is. -/

namespace Sys2Proof.Proofs

open Sys2Proof.Machine

/-! ### Rounding near a computed number -/

/-- Only one magnitude is the rounding of a number: of two even ones, one of the magnitudes between them is nearer. -/
theorem RoundsTo.unique {x : ℝ} {b c : Nat} (hb : RoundsTo x b) (hc : RoundsTo x c) : b = c := by
  have hnot : ∀ {b c : Nat}, RoundsTo x b → RoundsTo x c → ¬b < c := fun {b c} hb hc hlt => by
    obtain ⟨hle, hevenb⟩ := hb.above c hlt hc.le_inf
    obtain ⟨hge, hevenc⟩ := hc.below b hlt
    have heq := le_antisymm hle hge
    have hsucc : b + 1 < c := by
      have := hevenb heq
      have := hevenc heq.symm
      omega
    have hnext := (hb.above (b + 1) (Nat.lt_succ_self b) (hsucc.le.trans hc.le_inf)).1
    have hmono : (gridValue (b + 1) : ℝ) < gridValue c := Nat.cast_lt.mpr (gridValue_strictMono hsucc)
    linarith
  exact Nat.le_antisymm (not_lt.mp (hnot hc hb)) (not_lt.mp (hnot hb hc))

/-- Strictly inside a half unit, a number's 25 leading bits decide its rounding. -/
theorem roundsTo_of_halfUnit {u e : Nat} {x : ℝ} (hu : 2 ^ 24 ≤ u) (hu' : u < 2 ^ 25) (hlo : u * 2 ^ e < 2 * x)
    (hhi : 2 * x < (u + 1) * 2 ^ e) : RoundsTo x (min (e * 2 ^ 23 + u / 2 + u % 2) infBits) := by
  have hpos : (0 : ℝ) < 2 ^ e := by positivity
  have hu2 : (u : ℝ) = 2 * (u / 2 : Nat) + (u % 2 : Nat) := by exact_mod_cast (Nat.div_add_mod u 2).symm
  obtain ⟨f, hf⟩ : ∃ f, f = x / 2 ^ e - (u / 2 : Nat) := ⟨_, rfl⟩
  have hx : x = ((u / 2 : Nat) + f) * 2 ^ e := by rw [hf]; field_simp; ring
  have hlo' : (u % 2 : Nat) < 2 * f := by
    rw [hx, hu2] at hlo
    nlinarith
  have hhi' : 2 * f < (u % 2 : Nat) + 1 := by
    rw [hx, hu2] at hhi
    nlinarith
  have hup : (decide (u % 2 = 1)).toNat = u % 2 := by
    obtain h | h := Nat.mod_two_eq_zero_or_one u <;> simp [h]
  rw [← hup, hx]
  have hbit : u % 2 ≤ 1 := by omega
  have hbit0 : (0 : ℝ) ≤ (u % 2 : Nat) := Nat.cast_nonneg _
  have hbit1 : ((u % 2 : Nat) : ℝ) ≤ 1 := by exact_mod_cast hbit
  refine roundsTo_of_remainder (by omega) (.inr (by omega)) (by linarith) (by linarith) ?_
  rw [decide_eq_true_iff]
  constructor
  · intro h
    rw [h, Nat.cast_one] at hlo'
    exact .inl hlo'
  · intro hhalf
    by_contra hodd
    rw [show u % 2 = 0 by omega, Nat.cast_zero, zero_add] at hhi'
    obtain h | ⟨h, -⟩ := hhalf <;> linarith

/-- A fixed-point number of at least 2^48 units that is more than 128 units from both ends of the half unit it lies in,
a half unit being 2^d. -/
def farFromTies (v : Nat) : Bool :=
  let d := (v / 2 ^ 48).log2 + 24
  decide (2 ^ 48 ≤ v ∧ 128 < v % 2 ^ d ∧ v % 2 ^ d + 128 < 2 ^ d)

/-- Every real number within 128 units of such a number is rounded as the number is. -/
theorem roundsTo_roundBits_of_near {v h : Nat} {y : ℝ} (hv : farFromTies v = true) (hy : |v - y| ≤ 128) (hh : h ≤ 86) :
    RoundsTo (y * 2 ^ 85 / 2 ^ h) (roundBits (v * 2 ^ 85) h) := by
  obtain ⟨hv48, hlo, hhi⟩ := of_decide_eq_true hv
  have hquot : v / 2 ^ 48 ≠ 0 := (Nat.div_pos hv48 (by positivity)).ne'
  have hlog := Nat.log2_self_le hquot
  have hlog' := Nat.lt_log2_self (n := v / 2 ^ 48)
  generalize (v / 2 ^ 48).log2 = k at *
  rw [Nat.le_div_iff_mul_le (by positivity), ← pow_add] at hlog
  rw [Nat.div_lt_iff_lt_mul (by positivity), ← pow_add] at hlog'
  obtain ⟨d, hd⟩ : ∃ d, d = k + 24 := ⟨_, rfl⟩
  rw [← hd] at hlo hhi
  have hu : 2 ^ 24 ≤ v / 2 ^ d := by
    rw [Nat.le_div_iff_mul_le (by positivity), ← pow_add, show 24 + d = k + 48 by omega]
    exact hlog
  have hu' : v / 2 ^ d < 2 ^ 25 := by
    rw [Nat.div_lt_iff_lt_mul (by positivity), ← pow_add, show 25 + d = k + 1 + 48 by omega]
    exact hlog'
  have hdiv : (v : ℝ) = 2 ^ d * (v / 2 ^ d : Nat) + (v % 2 ^ d : Nat) := by
    exact_mod_cast (Nat.div_add_mod v (2 ^ d)).symm
  have hlo' : (128 : ℝ) < (v % 2 ^ d : Nat) := by exact_mod_cast hlo
  have hhi' : ((v % 2 ^ d : Nat) : ℝ) + 128 < 2 ^ d := by exact_mod_cast hhi
  have hnear : ∀ z : ℝ, |v - z| ≤ 128 → RoundsTo (z * 2 ^ 85 / 2 ^ h)
      (min ((d + (86 - h)) * 2 ^ 23 + v / 2 ^ d / 2 + v / 2 ^ d % 2) infBits) := fun z hz => by
    have hscale : 2 * (z * 2 ^ 85 / 2 ^ h) = z * 2 ^ (86 - h) := by
      rw [pow_sub₀ _ two_ne_zero hh]
      ring
    rw [abs_le] at hz
    refine roundsTo_of_halfUnit hu hu' ?_ ?_ <;> rw [hscale, pow_add, ← mul_assoc] <;>
      refine mul_lt_mul_of_pos_right ?_ (by positivity) <;> linarith
  have hself := roundsTo_roundBits (v * 2 ^ 85) h
  rw [Nat.cast_mul, Nat.cast_pow, Nat.cast_ofNat] at hself
  rw [hself.unique (hnear v (by simp))]
  exact hnear y hy

/-! ### The angles of the tables -/

/-- Whether a test holds of all 2^k numbers i with i / 2^k = j, by halving. -/
def allInBlock (p : Nat → Bool) : Nat → Nat → Bool
  | 0, j => p j
  | k + 1, j => allInBlock p k (2 * j) && allInBlock p k (2 * j + 1)

theorem of_allInBlock {p : Nat → Bool} {k j i : Nat} (h : allInBlock p k j = true) (hi : i / 2 ^ k = j) : p i = true := by
  induction k generalizing j with
  | zero =>
    rw [pow_zero, Nat.div_one] at hi
    exact hi ▸ h
  | succ k ih =>
    obtain ⟨heven, hodd⟩ := (Bool.and_eq_true _ _).mp h
    rw [pow_succ, ← Nat.div_div_eq_div_mul] at hi
    obtain hb | hb : i / 2 ^ k = 2 * j ∨ i / 2 ^ k = 2 * j + 1 := by omega
    · exact ih heven hb
    · exact ih hodd hb

/-- The test of the angle π·j/2^14; the cosine of 0 is exact. -/
def angleFarFromTies (j : Nat) : Bool := decide (j = 0) || farFromTies (cosQuarter j 14)

/-! That no computed cosine of an angle π·j/2^14 lies near a tie is a fact about the 8191 numbers themselves and has no
other proof than looking at each of them: the first half of the angles is computed by the cosine's series, the second half
by the sine's. -/

theorem allInBlock_firstHalf : allInBlock angleFarFromTies 12 0 = true := by decide

theorem allInBlock_secondHalf : allInBlock angleFarFromTies 12 1 = true := by decide

theorem angleFarFromTies_of_lt {j : Nat} (hj : j < 2 ^ 13) : angleFarFromTies j = true := by
  obtain hb | hb : j / 2 ^ 12 = 0 ∨ j / 2 ^ 12 = 1 := by omega
  · exact of_allInBlock allInBlock_firstHalf hb
  · exact of_allInBlock allInBlock_secondHalf hb

theorem farFromTies_cosQuarter {j e : Nat} (he : 2 ≤ e) (he' : e ≤ 14) (hj0 : j ≠ 0) (hj : j < 2 ^ (e - 1)) :
    farFromTies (cosQuarter j e) = true := by
  have hlt : j * 2 ^ (14 - e) < 2 ^ 13 := by
    rw [show 13 = e - 1 + (14 - e) by omega, pow_add]
    exact Nat.mul_lt_mul_of_pos_right hj (Nat.two_pow_pos _)
  have hne : j * 2 ^ (14 - e) ≠ 0 := Nat.mul_ne_zero hj0 (Nat.two_pow_pos _).ne'
  have htest := angleFarFromTies_of_lt hlt
  rw [angleFarFromTies, decide_eq_false hne, Bool.false_or] at htest
  rw [← cosQuarter_mul_two_pow j (14 - e) he, Nat.add_sub_of_le he']
  exact htest

theorem cosQuarter_zero (e : Nat) : cosQuarter 0 e = 2 ^ 64 := by
  rw [cosQuarter, if_pos (Nat.zero_le _), Nat.mul_zero, Nat.zero_div]
  decide

/-! ### A cosine or sine as a signed cosine of the first quarter turn -/

section Turn

variable {j e h : Nat}

theorem roundsTo_cosQuarter (he : 2 ≤ e) (he' : e ≤ 14) (hh : h ≤ 86) (hj : j < 2 ^ (e - 1)) :
    RoundsTo (2 ^ 64 * Real.cos (Real.pi * j / 2 ^ e) * 2 ^ 85 / 2 ^ h) (roundBits (cosQuarter j e * 2 ^ 85) h) := by
  by_cases hj0 : j = 0
  · have hexact := roundsTo_roundBits (2 ^ 64 * 2 ^ 85) h
    rw [Nat.cast_mul, Nat.cast_pow, Nat.cast_pow, Nat.cast_ofNat] at hexact
    rw [hj0, cosQuarter_zero, Nat.cast_zero, mul_zero, zero_div, Real.cos_zero, mul_one]
    exact hexact
  · exact roundsTo_roundBits_of_near (farFromTies_cosQuarter he he' hj0 hj) (cosQuarter_near he hj.le) hh

theorem cosQuarter_pos (he : 2 ≤ e) (he' : e ≤ 14) (hj : j < 2 ^ (e - 1)) : 0 < cosQuarter j e := by
  by_cases hj0 : j = 0
  · rw [hj0, cosQuarter_zero]
    norm_num
  · have hfar := farFromTies_cosQuarter he he' hj0 hj
    refine Nat.pos_of_ne_zero fun h0 => ?_
    rw [h0] at hfar
    exact absurd hfar (by decide)

/-- The angles of the first quarter turn, of which the last has the cosine 0 and is left out. -/
theorem isRnd32_cosQuarter (neg : Bool) (he : 2 ≤ e) (he' : e ≤ 14) (hh : h ≤ 86) (hj : j < 2 ^ (e - 1)) :
    IsRnd32 (signFactor neg * (Real.cos (Real.pi * j / 2 ^ e) / 2 ^ h))
      (signed neg (roundBits (cosQuarter j e * 2 ^ 85) h)) := by
  have hangle : Real.pi * j / 2 ^ e ≤ Real.pi / 2 := by
    have he2 := Nat.two_pow_pred_mul_two (show 0 < e by omega)
    have hj2 : (j : ℝ) * 2 ≤ 2 ^ e := by exact_mod_cast (by omega : j * 2 ≤ 2 ^ e)
    rw [div_le_div_iff₀ (by positivity) two_pos]
    nlinarith [Real.pi_pos]
  have hcos : 0 ≤ Real.cos (Real.pi * j / 2 ^ e) :=
    Real.cos_nonneg_of_neg_pi_div_two_le_of_le (by linarith [Real.pi_pos, (by positivity : 0 ≤ Real.pi * j / 2 ^ e)])
      hangle
  refine isRnd32_signed (by positivity) ?_ (roundsTo_cosQuarter he he' hh hj)
  ring

theorem rndFix_natCast (v h : Nat) : rndFix v h = signed false (roundBits (v * 2 ^ 85) h) := by
  rw [rndFix, Int.natAbs_natCast, decide_eq_false (not_lt.mpr (Int.natCast_nonneg v))]

theorem rndFix_neg_natCast {v : Nat} (hv : 0 < v) (h : Nat) :
    rndFix (-(v : Int)) h = signed true (roundBits (v * 2 ^ 85) h) := by
  rw [rndFix, Int.natAbs_neg, Int.natAbs_natCast, decide_eq_true (by omega)]

theorem isRnd32_rndFix (he : 2 ≤ e) (he' : e ≤ 14) (hh : h ≤ 86) (hj : j < 2 ^ (e - 1)) :
    IsRnd32 (Real.cos (Real.pi * j / 2 ^ e) / 2 ^ h) (rndFix (cosQuarter j e) h) ∧
      IsRnd32 (-Real.cos (Real.pi * j / 2 ^ e) / 2 ^ h) (rndFix (-(cosQuarter j e : Int)) h) := by
  have hpos := isRnd32_cosQuarter false he he' hh hj
  have hneg := isRnd32_cosQuarter true he he' hh hj
  rw [signFactor_false, one_mul] at hpos
  rw [signFactor_true, neg_one_mul, ← neg_div] at hneg
  rw [rndFix_natCast, rndFix_neg_natCast (cosQuarter_pos he he' hj)]
  exact ⟨hpos, hneg⟩

/-- The cosines of the first half turn, but for the quarter turn. -/
theorem isRnd32_cosFix (he : 2 ≤ e) (he' : e ≤ 14) (hh : h ≤ 86) (hj : j ≤ 2 ^ e) (hne : j ≠ 2 ^ (e - 1)) :
    IsRnd32 (Real.cos (Real.pi * j / 2 ^ e) / 2 ^ h) (rndFix (cosFix j e) h) := by
  have he2 := Nat.two_pow_pred_mul_two (show 0 < e by omega)
  rw [cosFix]
  split
  · exact (isRnd32_rndFix he he' hh (by omega)).1
  · have hangle : Real.pi * (2 ^ e - j : Nat) / 2 ^ e = Real.pi - Real.pi * j / 2 ^ e := by
      rw [Nat.cast_sub hj]
      push_cast
      field_simp
    have hneg := (isRnd32_rndFix (j := 2 ^ e - j) he he' hh (by omega)).2
    rwa [hangle, Real.cos_pi_sub, neg_neg] at hneg

/-- The sine is the cosine of the distance to the quarter turn. -/
theorem sinFix_eq (he : 2 ≤ e) (hj0 : 0 < j) (hj : j < 2 ^ e) : ∃ i < 2 ^ (e - 1),
    sinFix j e = cosQuarter i e ∧ Real.sin (Real.pi * j / 2 ^ e) = Real.cos (Real.pi * i / 2 ^ e) := by
  have he2 := Nat.two_pow_pred_mul_two (show 0 < e by omega)
  have he2' : (2 : ℝ) ^ e = 2 ^ (e - 1) * 2 := by exact_mod_cast he2.symm
  rw [sinFix]
  split
  · next hle =>
    refine ⟨2 ^ (e - 1) - j, by omega, rfl, ?_⟩
    rw [← Real.cos_pi_div_two_sub, Nat.cast_sub hle, he2']
    push_cast
    congr 1
    field_simp
  · next hgt =>
    refine ⟨j - 2 ^ (e - 1), by omega, rfl, ?_⟩
    rw [← Real.cos_sub_pi_div_two, Nat.cast_sub (by omega), he2']
    push_cast
    congr 1
    field_simp

/-- The sines of the first half turn, but for its ends. -/
theorem isRnd32_sinFix (he : 2 ≤ e) (he' : e ≤ 14) (hh : h ≤ 86) (hj0 : 0 < j) (hj : j < 2 ^ e) :
    IsRnd32 (Real.sin (Real.pi * j / 2 ^ e) / 2 ^ h) (rndFix (sinFix j e) h) ∧
      IsRnd32 (-Real.sin (Real.pi * j / 2 ^ e) / 2 ^ h) (rndFix (-sinFix j e) h) := by
  obtain ⟨i, hi, hfix, hsin⟩ := sinFix_eq he hj0 hj
  rw [hfix, hsin]
  exact isRnd32_rndFix he he' hh hi

end Turn

/-! ### The regions of the table (R82, R83) -/

section Regions

variable {l i : Nat}

theorem two_pow_eq_eight_mul (h6 : 6 ≤ l) : 2 ^ l = 8 * 2 ^ (l - 3) := by
  rw [← two_pow_add_three, Nat.sub_add_cancel (by omega)]

theorem trigWord_one (l : Nat) : trigWord l 1 = 0x80000000#32 := by
  unfold trigWord
  exact if_pos rfl

theorem trigWord_quarter (h6 : 6 ≤ l) : trigWord l (2 ^ l / 4) = 0x248D3132#32 := by
  have h8 := two_pow_eq_eight_mul h6
  unfold trigWord
  dsimp only
  rw [if_neg (by omega), if_pos rfl]

theorem trigWord_low_even (h6 : 6 ≤ l) (hi : i < 2 ^ l / 4) (hne : 2 * i ≠ 2 ^ l / 4) :
    trigWord l (2 * i) = rndFix (cosFix (8 * i) (l + 1)) 0 := by
  have h8 := two_pow_eq_eight_mul h6
  unfold trigWord
  dsimp only
  rw [if_neg (by omega), if_neg hne, if_pos (by omega), if_pos (by omega), show 2 * i / 2 = i by omega]

theorem trigWord_low_odd (h6 : 6 ≤ l) (hi : i < 2 ^ l / 4) (hi0 : 0 < i) :
    trigWord l (2 * i + 1) = rndFix (-sinFix (8 * i) (l + 1)) 0 := by
  have h8 := two_pow_eq_eight_mul h6
  unfold trigWord
  dsimp only
  rw [if_neg (by omega), if_neg (by omega), if_pos (by omega), if_neg (by omega), show (2 * i + 1) / 2 = i by omega]

theorem trigWord_middle_even (h6 : 6 ≤ l) (hi : i < 2 ^ l / 4) :
    trigWord l (2 ^ l / 2 + 2 * i) = rndFix (cosFix (2 * i + 1) (l + 1)) 0 := by
  have h8 := two_pow_eq_eight_mul h6
  unfold trigWord
  dsimp only
  rw [if_neg (by omega), if_neg (by omega), if_neg (by omega), if_pos (by omega), if_pos (by omega),
    show (2 ^ l / 2 + 2 * i - 2 ^ l / 2) / 2 = i by omega]

theorem trigWord_middle_odd (h6 : 6 ≤ l) (hi : i < 2 ^ l / 4) :
    trigWord l (2 ^ l / 2 + 2 * i + 1) = rndFix (sinFix (2 * i + 1) (l + 1)) 0 := by
  have h8 := two_pow_eq_eight_mul h6
  unfold trigWord
  dsimp only
  rw [if_neg (by omega), if_neg (by omega), if_neg (by omega), if_pos (by omega), if_neg (by omega),
    show (2 ^ l / 2 + 2 * i + 1 - 2 ^ l / 2) / 2 = i by omega]

theorem trigWord_high_even (h6 : 6 ≤ l) (hi : i < 2 ^ l / 8) :
    trigWord l (2 ^ l + 2 * i) = rndFix (cosFix (2 * (4 * i + 2)) (l + 1)) 1 := by
  have h8 := two_pow_eq_eight_mul h6
  unfold trigWord
  dsimp only
  rw [if_neg (by omega), if_neg (by omega), if_neg (by omega), if_neg (by omega), if_pos (by omega),
    if_pos (by omega), show (2 ^ l + 2 * i - 2 ^ l) / 2 = i by omega]

theorem trigWord_high_odd (h6 : 6 ≤ l) (hi : i < 2 ^ l / 8) :
    trigWord l (2 ^ l + 2 * i + 1) = rndFix (-sinFix (2 * (4 * i + 2)) (l + 1)) 1 := by
  have h8 := two_pow_eq_eight_mul h6
  unfold trigWord
  dsimp only
  rw [if_neg (by omega), if_neg (by omega), if_neg (by omega), if_neg (by omega), if_pos (by omega),
    if_neg (by omega), show (2 ^ l + 2 * i + 1 - 2 ^ l) / 2 = i by omega]

theorem trigWord_of_ge {k : Nat} (h6 : 6 ≤ l) (hk : 2 ^ l + 2 ^ l / 4 ≤ k) : trigWord l k = 0#32 := by
  have h8 := two_pow_eq_eight_mul h6
  have hpos := Nat.two_pow_pos l
  unfold trigWord
  dsimp only
  rw [if_neg (by omega), if_neg (by omega), if_neg (by omega), if_neg (by omega), if_neg (by omega)]

/-! The angles of the three regions, as multiples of π/2^(L+1). -/

theorem low_angle (l i : Nat) : 4 * Real.pi * i / 2 ^ l = Real.pi * (8 * i : Nat) / 2 ^ (l + 1) := by
  rw [pow_succ]
  push_cast
  field_simp
  ring

theorem middle_angle (l i : Nat) :
    Real.pi * (2 * i + 1) / (2 * 2 ^ l) = Real.pi * (2 * i + 1 : Nat) / 2 ^ (l + 1) := by
  rw [pow_succ']
  push_cast
  rfl

theorem high_angle (l i : Nat) :
    Real.pi * (4 * i + 2) / 2 ^ l = Real.pi * (2 * (4 * i + 2) : Nat) / 2 ^ (l + 1) := by
  rw [pow_succ]
  push_cast
  field_simp

end Regions

/-- Settles O30: every word outside the two exceptions is a computed cosine or sine of a multiple of π/2^(L+1), which is
rounded like the exact one. -/
theorem trigTableNearestToExactValues : Obligations.TrigTableNearestToExactValues := by
  intro l h6 h13
  have h8 := two_pow_eq_eight_mul h6
  have hn : 2 ^ (l + 1) = 2 * 2 ^ l := pow_succ' 2 l
  have cosRounded : ∀ {j h : Nat}, h ≤ 86 → j ≤ 2 ^ (l + 1) → j ≠ 2 ^ l →
      IsRnd32 (Real.cos (Real.pi * j / 2 ^ (l + 1)) / 2 ^ h) (rndFix (cosFix j (l + 1)) h) :=
    isRnd32_cosFix (by omega) (by omega)
  have sinRounded : ∀ {j h : Nat}, h ≤ 86 → 0 < j → j < 2 ^ (l + 1) →
      IsRnd32 (Real.sin (Real.pi * j / 2 ^ (l + 1)) / 2 ^ h) (rndFix (sinFix j (l + 1)) h) ∧
        IsRnd32 (-Real.sin (Real.pi * j / 2 ^ (l + 1)) / 2 ^ h) (rndFix (-sinFix j (l + 1)) h) :=
    isRnd32_sinFix (by omega) (by omega)
  refine ⟨fun i hi hne => ?_, fun i hi hi0 => ?_, fun i hi => ?_, fun i hi => ?_,
    fun k => trigWord_of_ge h6, trigWord_one l, trigWord_quarter h6⟩
  · have hcos := cosRounded (j := 8 * i) (Nat.zero_le 86) (by omega) (by omega)
    rwa [pow_zero, div_one, ← low_angle, ← trigWord_low_even h6 hi hne] at hcos
  · have hsin := (sinRounded (j := 8 * i) (Nat.zero_le 86) (by omega) (by omega)).2
    rwa [pow_zero, div_one, ← low_angle, ← trigWord_low_odd h6 hi hi0] at hsin
  · have hcos := cosRounded (j := 2 * i + 1) (Nat.zero_le 86) (by omega) (by omega)
    have hsin := (sinRounded (j := 2 * i + 1) (Nat.zero_le 86) (by omega) (by omega)).1
    rw [pow_zero, div_one, ← middle_angle, ← trigWord_middle_even h6 hi] at hcos
    rw [pow_zero, div_one, ← middle_angle, ← trigWord_middle_odd h6 hi] at hsin
    exact ⟨hcos, hsin⟩
  · have hcos := cosRounded (j := 2 * (4 * i + 2)) (Nat.one_le_ofNat (n := 86)) (by omega) (by omega)
    have hsin := (sinRounded (j := 2 * (4 * i + 2)) (Nat.one_le_ofNat (n := 86)) (by omega) (by omega)).2
    rw [pow_one, ← high_angle, ← trigWord_high_even h6 hi] at hcos
    rw [pow_one, ← high_angle, ← trigWord_high_odd h6 hi] at hsin
    exact ⟨hcos, hsin⟩

end Sys2Proof.Proofs
end

section
/-! PROOFS. Loops whose iterations keep out of each other's way (R9): what one iteration leaves in the words it alone may
write is what it leaves when it runs alone on the words the loop found. -/

namespace Sys2Proof.Proofs

open Sys2Proof.Machine Sys2Proof.Laws

/-- The assignment writes no window word of `S`. -/
def spares (S : Nat → Prop) : Assign → Prop
  | .setX i _ => ¬ S i
  | .setR _ _ => True

section Runs

variable {epoch base : Nat} {T : Nat → Word} {S : Nat → Prop}

theorem run_X_of_spares {p : Datapath} {b : List Assign} (h : ∀ a ∈ b, spares S a) {j : Nat} (hj : S j) :
    (p.run epoch base T b).X epoch base j = p.X epoch base j :=
  run_X_of_not_written epoch base T fun _ _ he hij => h _ he (hij ▸ hj)

theorem forLoop_spares {q : Nat} {body : Nat → List Assign} (h : ∀ m, m < q → ∀ a ∈ body m, spares S a) :
    ∀ a ∈ forLoop q body, spares S a := by
  intro a ha
  obtain ⟨m, hm, ha⟩ := mem_forLoop.1 ha
  exact h m hm a ha

/-- A loop of which only iteration `m` writes words of `S` leaves in them what that iteration leaves, begun in a datapath
that still holds there what the loop found. -/
theorem run_forLoop_iteration (epoch base : Nat) (T : Nat → Word) (p : Datapath) {q m : Nat} {body : Nat → List Assign}
    (hm : m < q) (h : ∀ m', m' < q → m' ≠ m → ∀ a ∈ body m', spares S a) :
    ∃ p' : Datapath, (∀ j, S j → p'.X epoch base j = p.X epoch base j) ∧
      ∀ j, S j → (p.run epoch base T (forLoop q body)).X epoch base j =
        (p'.run epoch base T (body m)).X epoch base j := by
  induction q with
  | zero => omega
  | succ q ih =>
    rw [forLoop_succ, run_append]
    by_cases hmq : m = q
    · subst hmq
      exact ⟨_, fun j hj => run_X_of_spares (forLoop_spares fun m' hm' => h m' (by omega) (by omega)) hj,
        fun j _ => rfl⟩
    · obtain ⟨p', hbefore, hafter⟩ := ih (by omega) fun m' hm' => h m' (by omega)
      refine ⟨p', hbefore, fun j hj => ?_⟩
      rw [run_X_of_spares (h q (by omega) (Ne.symm hmq)) hj, hafter j hj]

end Runs

/-! ### Combined operations -/

theorem mulAdd_fadd (i j d : Nat) (a b a' b' : Word) : MulAdd a b a' b' (fadd d (fmul i a b) (fmul j a' b')) :=
  ⟨_, _, prodOf_fmul i a b, prodOf_fmul j a' b', sumOf_fadd d _ _⟩

theorem mulSub_fsub (i j d : Nat) (a b a' b' : Word) : MulSub a b a' b' (fsub d (fmul i a b) (fmul j a' b')) :=
  ⟨_, _, prodOf_fmul i a b, prodOf_fmul j a' b', diffOf_fsub d _ _⟩

end Sys2Proof.Proofs
end

section
/-! PROOFS. ROT_IN (R102): what each iteration of its two loops leaves in its four words, and that no other iteration
touches them or the lower half. -/

namespace Sys2Proof.Proofs

open Sys2Proof.Machine Sys2Proof.Laws

/-! ### One iteration -/

/-- The words X'(o .. o + 3) are what an iteration of loop A of ROT_IN makes of X(i), X(i + 2), X(i + 4), X(i + 6) and
T(c .. c + 3) (R102). -/
def OddPairsRotated (T X X' : Nat → Word) (i o c : Nat) : Prop :=
  MulSub (fneg (X (i + 2))) (T (c + 3)) (X i) (T (c + 2)) (X' o) ∧
  MulSub (X i) (T (c + 3)) (X (i + 2)) (T (c + 2)) (X' (o + 1)) ∧
  MulSub (fneg (X (i + 6))) (T (c + 1)) (X (i + 4)) (T c) (X' (o + 2)) ∧
  MulSub (X (i + 4)) (T (c + 1)) (X (i + 6)) (T c) (X' (o + 3))

/-- The words X'(o .. o + 3) are what an iteration of loop B of ROT_IN makes of X(i), X(i + 2), X(i + 4), X(i + 6) and
T(c .. c + 3) (R102). -/
def EvenPairsRotated (T X X' : Nat → Word) (i o c : Nat) : Prop :=
  MulAdd (X (i + 4)) (T (c + 3)) (X (i + 6)) (T (c + 2)) (X' o) ∧
  MulSub (X (i + 4)) (T (c + 2)) (X (i + 6)) (T (c + 3)) (X' (o + 1)) ∧
  MulAdd (X i) (T (c + 1)) (X (i + 2)) (T c) (X' (o + 2)) ∧
  MulSub (X i) (T c) (X (i + 2)) (T (c + 1)) (X' (o + 3))

theorem rotInA_spares (n2 n4 m : Nat) {S : Nat → Prop} (h : ∀ r < 4, ¬ S (n2 + n4 - 4 - 4 * m + r)) :
    ∀ a ∈ rotInA n2 n4 m, spares S a := by
  simp only [rotInA, List.forall_mem_cons, spares]
  exact ⟨h 0 (by omega), h 1 (by omega), h 2 (by omega), h 3 (by omega), by simp⟩

theorem rotInB_spares (n2 n4 m : Nat) {S : Nat → Prop} (h : ∀ r < 4, ¬ S (n2 + n4 + 4 * m + r)) :
    ∀ a ∈ rotInB n2 n4 m, spares S a := by
  simp only [rotInB, List.forall_mem_cons, spares]
  exact ⟨h 0 (by omega), h 1 (by omega), h 2 (by omega), h 3 (by omega), by simp⟩

section Iterations

variable (epoch base : Nat) (T : Nat → Word) (p : Datapath) {n2 n4 l m i o c : Nat}

theorem run_rotInA (hi : i = n2 - 7 - 8 * m) (ho : o = n2 + n4 - 4 - 4 * m) (hc : c = n4 + 4 * m) (hio : i + 6 < o) :
    OddPairsRotated T (p.X epoch base) ((p.run epoch base T (rotInA n2 n4 m)).X epoch base) i o c := by
  simp only [rotInA, ← hi, ← ho, ← hc, Nat.add_zero, OddPairsRotated]
  simp (disch := omega) only [run_cons, run_nil, assign_setX_X, Datapath.value, Rhs.eval, if_pos, if_neg]
  exact ⟨mulSub_fsub .., mulSub_fsub .., mulSub_fsub .., mulSub_fsub ..⟩

theorem run_rotInB (hi : i = n2 - 8 - 8 * m) (ho : o = n2 + n4 + 4 * m) (hc : c = n4 - 4 - 4 * m) (hio : i + 6 < o) :
    EvenPairsRotated T (p.X epoch base) ((p.run epoch base T (rotInB n2 n4 m)).X epoch base) i o c := by
  simp only [rotInB, ← hi, ← ho, ← hc, Nat.add_zero, EvenPairsRotated]
  simp (disch := omega) only [run_cons, run_nil, assign_setX_X, Datapath.value, Rhs.eval, if_pos, if_neg]
  exact ⟨mulAdd_fadd .., mulSub_fsub .., mulAdd_fadd .., mulSub_fsub ..⟩

/-! ### The whole body -/

/-- Loop A of ROT_IN rotates the odd coefficients into X(n2 .. n2 + n4 − 1), which loop B leaves alone. -/
theorem run_rotInBody_odd (h : 6 ≤ l) (hm : m < 2 ^ l / 16) (hi : i = 2 ^ l / 2 - 7 - 8 * m)
    (ho : o = 2 ^ l / 2 + 2 ^ l / 4 - 4 - 4 * m) (hc : c = 2 ^ l / 4 + 4 * m) :
    OddPairsRotated T (p.X epoch base) ((p.run epoch base T (rotInBody l)).X epoch base) i o c := by
  obtain ⟨e, he, hn⟩ := blockSize_eq h
  have hloopB := forLoop_spares (q := 2 ^ l / 16) (S := fun j => j < 2 ^ l / 2 + 2 ^ l / 4)
    fun m' _ => rotInB_spares (2 ^ l / 2) (2 ^ l / 4) m' fun r _ => by omega
  obtain ⟨p', hbefore, hafter⟩ := run_forLoop_iteration epoch base T
    (S := fun j => j < 2 ^ l / 2 ∨ o ≤ j ∧ j < o + 4) p hm
    fun m' _ _ => rotInA_spares (2 ^ l / 2) (2 ^ l / 4) m' fun r _ => by omega
  have hrun := run_rotInA epoch base T p' hi ho hc (by omega)
  simp (disch := omega) only [OddPairsRotated, hbefore] at hrun
  simpa (disch := omega) only [OddPairsRotated, rotInBody, run_append, run_X_of_spares hloopB, hafter] using hrun

/-- Loop B of ROT_IN rotates the even coefficients, which loop A leaves alone, into X(n2 + n4 .. n − 1). -/
theorem run_rotInBody_even (h : 6 ≤ l) (hm : m < 2 ^ l / 16) (hi : i = 2 ^ l / 2 - 8 - 8 * m)
    (ho : o = 2 ^ l / 2 + 2 ^ l / 4 + 4 * m) (hc : c = 2 ^ l / 4 - 4 - 4 * m) :
    EvenPairsRotated T (p.X epoch base) ((p.run epoch base T (rotInBody l)).X epoch base) i o c := by
  obtain ⟨e, he, hn⟩ := blockSize_eq h
  have hloopA := forLoop_spares (q := 2 ^ l / 16) (S := fun j => j < 2 ^ l / 2)
    fun m' _ => rotInA_spares (2 ^ l / 2) (2 ^ l / 4) m' fun r _ => by omega
  rw [rotInBody, run_append]
  obtain ⟨p', hbefore, hafter⟩ := run_forLoop_iteration epoch base T
    (S := fun j => j < 2 ^ l / 2 ∨ o ≤ j ∧ j < o + 4)
    (p.run epoch base T (forLoop (2 ^ l / 16) (rotInA (2 ^ l / 2) (2 ^ l / 4)))) hm
    fun m' _ _ => rotInB_spares (2 ^ l / 2) (2 ^ l / 4) m' fun r _ => by omega
  have hrun := run_rotInB epoch base T p' hi ho hc (by omega)
  simp (disch := omega) only [EvenPairsRotated, hbefore, run_X_of_spares hloopA] at hrun
  simpa (disch := omega) only [EvenPairsRotated, hafter] using hrun

end Iterations

/-! ### The command -/

/-- The words of the window after a slot's body, in the terms of its run. -/
theorem slotBody_X (s : State) (k : SlotId) (body : Nat → List Assign) (i : Nat) :
    (s.slotBody k body).X i =
      (s.datapath.run s.bufEpoch s.base (slotTrig (s.slot k)) (body (slotL (s.slot k)))).X s.bufEpoch s.base i := rfl

/-- Settles O40: no iteration of ROT_IN's loops writes the lower half or another iteration's words, so each leaves what it
computes from the coefficients the command found. -/
theorem rotInRotatesCoefficientPairs : Obligations.RotInRotatesCoefficientPairs := by
  intro s k hr
  have h6 := (slotL_range hr.1).1
  refine ⟨s.slotBody k rotInBody, exec_rotIn (commonCheck_ready.2 hr), runBody_sameButBuf _ _ _ _,
    runBody_bytesSameOutside (rotInBody_writes h6), ?_⟩
  rintro n n2 n4 m rfl rfl rfl hm
  exact ⟨fun i o c hi ho hc => run_rotInBody_odd _ _ _ s.datapath h6 hm hi ho hc,
    fun i o c hi ho hc => run_rotInBody_even _ _ _ s.datapath h6 hm hi ho hc⟩

end Sys2Proof.Proofs
end

section
/-! PROOFS. BFLY_GEN and BFLY_FIRST (R103 to R105): what one PAIR leaves in its four words, and that no other PAIR of the
group touches them. -/

namespace Sys2Proof.Proofs

open Sys2Proof.Machine Sys2Proof.Laws

/-! ### One PAIR -/

/-- The words X'(a), X'(a + 1), X'(b), X'(b + 1) are what PAIR(a, b, ta, ta + 1) makes of the same four words (R103). -/
def PairRotated (T X X' : Nat → Word) (a b ta : Nat) : Prop :=
  ∃ r0 r1, DiffOf (X a) (X b) r0 ∧ DiffOf (X (a + 1)) (X (b + 1)) r1 ∧
    SumOf (X a) (X b) (X' a) ∧ SumOf (X (a + 1)) (X (b + 1)) (X' (a + 1)) ∧
    MulAdd r1 (T (ta + 1)) r0 (T ta) (X' b) ∧ MulSub r1 (T ta) r0 (T (ta + 1)) (X' (b + 1))

theorem pairBody_spares (a b ta tb : Nat) {S : Nat → Prop} (h : ∀ r < 2, ¬ S (a + r) ∧ ¬ S (b + r)) :
    ∀ x ∈ pairBody a b ta tb, spares S x := by
  simp only [pairBody, List.forall_mem_cons, spares]
  exact ⟨trivial, trivial, (h 0 (by omega)).1, (h 1 (by omega)).1, (h 0 (by omega)).2, (h 1 (by omega)).2, by simp⟩

/-- The PAIR number u of iteration m of GROUP(g, p, d) (R103). -/
def groupPair (g p d m u : Nat) : List Assign :=
  pairBody (g + p - 8 - 8 * m + (6 - 2 * u)) (g + p / 2 - 8 - 8 * m + (6 - 2 * u)) (4 * d * m + u * d)
    (4 * d * m + u * d + 1)

theorem groupBody_eq (g p d : Nat) : groupBody g p d = forLoop (p / 16) fun m => forLoop 4 (groupPair g p d m) := by
  refine congrArg (forLoop (p / 16)) (funext fun m => ?_)
  simp [groupStep, groupPair, forLoop, List.range_succ]

section Iterations

variable (epoch base : Nat) (T : Nat → Word) (q : Datapath)

theorem run_pairBody {a b : Nat} (ta : Nat) (hab : b + 1 < a) :
    PairRotated T (q.X epoch base) ((q.run epoch base T (pairBody a b ta (ta + 1))).X epoch base) a b ta := by
  simp only [pairBody, PairRotated]
  simp (disch := omega) only [run_cons, run_nil, assign_setX_X, assign_setR_X, assign_setX_temp, assign_setR_temp,
    Datapath.value, Rhs.eval, if_pos, if_neg]
  exact ⟨_, _, diffOf_fsub .., diffOf_fsub .., sumOf_fadd .., sumOf_fadd .., mulAdd_fadd .., mulSub_fsub ..⟩

/-! ### A GROUP -/

/-- Each of a GROUP's PAIRs works on four words that no other PAIR of the GROUP writes (R103). -/
theorem run_groupBody {g p d m u a b : Nat} (hp : 16 ∣ p) (hm : m < p / 16) (hu : u < 4)
    (ha : a = g + p - 8 - 8 * m + (6 - 2 * u)) (hb : b = g + p / 2 - 8 - 8 * m + (6 - 2 * u)) :
    PairRotated T (q.X epoch base) ((q.run epoch base T (groupBody g p d)).X epoch base) a b (4 * d * m + u * d) := by
  have hothers : ∀ m' u', m' < p / 16 → u' < 4 → (m' ≠ m ∨ u' ≠ u) →
      ∀ x ∈ groupPair g p d m' u', spares (fun j => j = a ∨ j = a + 1 ∨ j = b ∨ j = b + 1) x :=
    fun m' u' _ _ _ => pairBody_spares _ _ _ _ fun r _ => by omega
  rw [groupBody_eq]
  obtain ⟨q', hbefore, hafter⟩ := run_forLoop_iteration epoch base T q hm
    fun m' hm' hne => forLoop_spares fun u' hu' => hothers m' u' hm' hu' (.inl hne)
  obtain ⟨q'', hbefore', hafter'⟩ := run_forLoop_iteration epoch base T q' hu
    fun u' hu' hne => hothers m u' hm hu' (.inr hne)
  have hrun := run_pairBody epoch base T q'' (4 * d * m + u * d) (a := a) (b := b) (by omega)
  simp only [PairRotated, hbefore', hbefore, true_or, or_true] at hrun
  simpa only [PairRotated, hafter, hafter', groupPair, ← ha, ← hb, true_or, or_true] using hrun

end Iterations

/-! ### The commands -/

/-- Settles O41: BFLY_GEN's group has a multiple of 16 words, and each of its PAIRs finds the words the command found. -/
theorem bflyGenComputesEveryPair : Obligations.BflyGenComputesEveryPair := by
  intro s k A B hr hstage
  have h6 := (slotL_range hr.1).1
  obtain ⟨c, hgroup, -⟩ := groupSize_eq h6 hstage.1
  refine ⟨s.slotBody k (bflyGenBody A B), checked_none (stageCheck_ready.2 ⟨hr, hstage⟩),
    runBody_sameButBuf _ _ _ _, ?_⟩
  rintro n2 p g d m u a b ta rfl rfl rfl rfl hm hu ha hb rfl
  exact run_groupBody _ _ _ s.datapath (hgroup ▸ Nat.dvd_mul_right 16 c) hm hu ha hb

/-- Stage 0 has one group, the upper half, with twiddle stride 4 (R104, R105). -/
theorem bflyGenBody_zero (l : Nat) : bflyGenBody 0 0 l = bflyFirstBody l := by
  simp [bflyGenBody, bflyFirstBody]

/-- Settles O42: both commands pass their checks and perform the same body. -/
theorem bflyFirstIsStageZero : Obligations.BflyFirstIsStageZero := by
  intro s k hr
  have hstage : s.stageReady k 0 0 := ⟨Nat.zero_le _, Nat.one_pos⟩
  refine ⟨s.slotBody k bflyFirstBody, checked_none (commonCheck_ready.2 hr), ?_⟩
  rw [← funext bflyGenBody_zero]
  exact checked_none (stageCheck_ready.2 ⟨hr, hstage⟩)

end Sys2Proof.Proofs
end

section
/-! PROOFS. BITREV (R107): what one pair leaves in its four words of the lower half, and that no other pair touches them
or the upper half. -/

namespace Sys2Proof.Proofs

open Sys2Proof.Machine Sys2Proof.Laws

/-! ### One pair -/

/-- The words X'(lo), X'(lo + 1), X'(hi), X'(hi + 1) are what one pair of BITREV makes of X(i0), X(i0 + 1), X(i1),
X(i1 + 1), T(c) and T(c + 1) (R107). -/
def PairCombined (T X X' : Nat → Word) (i0 i1 c lo hi : Nat) : Prop :=
  ∃ d0 s1 r2 r3 r0 r1, DiffOf (X (i0 + 1)) (X (i1 + 1)) d0 ∧ SumOf (X i0) (X i1) s1 ∧
    MulAdd s1 (T c) d0 (T (c + 1)) r2 ∧ MulSub s1 (T (c + 1)) d0 (T c) r3 ∧
    SumMul (X (i0 + 1)) (X (i1 + 1)) HALF r0 ∧ DiffMul (X i0) (X i1) HALF r1 ∧
    SumOf r0 r2 (X' lo) ∧ DiffOf r0 r2 (X' hi) ∧ SumOf r1 r3 (X' (lo + 1)) ∧ DiffOf r3 r1 (X' (hi + 1))

theorem sumMul_fmul (i d : Nat) (a b c : Word) : SumMul a b c (fmul d (fadd i a b) c) :=
  ⟨_, sumOf_fadd i a b, prodOf_fmul d _ _⟩

theorem diffMul_fmul (i d : Nat) (a b c : Word) : DiffMul a b c (fmul d (fsub i a b) c) :=
  ⟨_, diffOf_fsub i a b, prodOf_fmul d _ _⟩

theorem bitrevPair_spares (i0 i1 c lo hi : Nat) {S : Nat → Prop} (h : ∀ r < 2, ¬ S (lo + r) ∧ ¬ S (hi + r)) :
    ∀ x ∈ bitrevPair i0 i1 c lo hi, spares S x := by
  simp only [bitrevPair, List.forall_mem_cons, spares]
  exact ⟨trivial, trivial, trivial, trivial, trivial, trivial, (h 0 (by omega)).1, (h 0 (by omega)).2,
    (h 1 (by omega)).1, (h 1 (by omega)).2, by simp⟩

/-- The pair number u of iteration m of BITREV's loop (R107). -/
def bitrevStepPair (l m u : Nat) : List Assign :=
  bitrevPair (2 ^ l / 2 + bitrevEntry l (4 * m + 2 * u)) (2 ^ l / 2 + bitrevEntry l (4 * m + 2 * u + 1))
    (2 ^ l + 4 * m + 2 * u) (4 * m + 2 * u) (2 ^ l / 2 - 4 - 4 * m + 2 - 2 * u)

theorem bitrevBody_eq (l : Nat) : bitrevBody l = forLoop (2 ^ l / 16) fun m => forLoop 2 (bitrevStepPair l m) := by
  refine congrArg (forLoop (2 ^ l / 16)) (funext fun m => ?_)
  simp [bitrevStep, bitrevStepPair, forLoop, List.range_succ]

/-- What a pair computes before it writes (R107). -/
def bitrevPairHead (i0 i1 c : Nat) : List Assign :=
  [.setR .r0 (.sub (.x (i0 + 1)) (.x (i1 + 1))), .setR .r1 (.add (.x i0) (.x i1)),
   .setR .r2 (.add (.mul (.r .r1) (.t c)) (.mul (.r .r0) (.t (c + 1)))),
   .setR .r3 (.sub (.mul (.r .r1) (.t (c + 1))) (.mul (.r .r0) (.t c))),
   .setR .r0 (.mul (.add (.x (i0 + 1)) (.x (i1 + 1))) (.c HALF)), .setR .r1 (.mul (.sub (.x i0) (.x i1)) (.c HALF))]

/-- The four words a pair writes (R107). -/
def bitrevPairTail (lo hi : Nat) : List Assign :=
  [.setX lo (.add (.r .r0) (.r .r2)), .setX hi (.sub (.r .r0) (.r .r2)),
   .setX (lo + 1) (.add (.r .r1) (.r .r3)), .setX (hi + 1) (.sub (.r .r3) (.r .r1))]

theorem bitrevPair_eq (i0 i1 c lo hi : Nat) :
    bitrevPair i0 i1 c lo hi = bitrevPairHead i0 i1 c ++ bitrevPairTail lo hi := rfl

section Iterations

variable (epoch base : Nat) (T : Nat → Word) (p : Datapath) {l m u i0 i1 c lo hi : Nat}

theorem run_bitrevPairHead (i0 i1 c : Nat) :
    ∃ d0 s1, DiffOf (p.X epoch base (i0 + 1)) (p.X epoch base (i1 + 1)) d0 ∧
      SumOf (p.X epoch base i0) (p.X epoch base i1) s1 ∧
      MulAdd s1 (T c) d0 (T (c + 1)) ((p.run epoch base T (bitrevPairHead i0 i1 c)).temp .r2) ∧
      MulSub s1 (T (c + 1)) d0 (T c) ((p.run epoch base T (bitrevPairHead i0 i1 c)).temp .r3) ∧
      SumMul (p.X epoch base (i0 + 1)) (p.X epoch base (i1 + 1)) HALF
        ((p.run epoch base T (bitrevPairHead i0 i1 c)).temp .r0) ∧
      DiffMul (p.X epoch base i0) (p.X epoch base i1) HALF
        ((p.run epoch base T (bitrevPairHead i0 i1 c)).temp .r1) := by
  simp only [bitrevPairHead, run_cons, run_nil, assign_setR_X, assign_setR_temp, Datapath.value, Rhs.eval,
    reduceCtorEq, if_true, if_false]
  exact ⟨_, _, diffOf_fsub .., sumOf_fadd .., mulAdd_fadd .., mulSub_fsub .., sumMul_fmul .., diffMul_fmul ..⟩

theorem run_bitrevPairTail (hlohi : lo + 1 < hi) :
    SumOf (p.temp .r0) (p.temp .r2) ((p.run epoch base T (bitrevPairTail lo hi)).X epoch base lo) ∧
      DiffOf (p.temp .r0) (p.temp .r2) ((p.run epoch base T (bitrevPairTail lo hi)).X epoch base hi) ∧
      SumOf (p.temp .r1) (p.temp .r3) ((p.run epoch base T (bitrevPairTail lo hi)).X epoch base (lo + 1)) ∧
      DiffOf (p.temp .r3) (p.temp .r1) ((p.run epoch base T (bitrevPairTail lo hi)).X epoch base (hi + 1)) := by
  simp (disch := omega) only [bitrevPairTail, run_cons, run_nil, assign_setX_X, assign_setX_temp, Datapath.value,
    Rhs.eval, if_neg]
  exact ⟨sumOf_fadd .., diffOf_fsub .., sumOf_fadd .., diffOf_fsub ..⟩

theorem run_bitrevPair (i0 i1 c : Nat) (hlohi : lo + 1 < hi) :
    PairCombined T (p.X epoch base) ((p.run epoch base T (bitrevPair i0 i1 c lo hi)).X epoch base) i0 i1 c lo hi := by
  obtain ⟨d0, s1, hd0, hs1, hr2, hr3, hr0, hr1⟩ := run_bitrevPairHead epoch base T p i0 i1 c
  rw [bitrevPair_eq, run_append]
  exact ⟨d0, s1, _, _, _, _, hd0, hs1, hr2, hr3, hr0, hr1, run_bitrevPairTail _ _ _ _ hlohi⟩

/-! ### The whole body -/

/-- Each pair finds the upper half as the command found it, and leaves four words that no other pair writes (R107). -/
theorem run_bitrevBody (h : 6 ≤ l) (hm : m < 2 ^ l / 16) (hu : u < 2)
    (hi0 : i0 = 2 ^ l / 2 + bitrevEntry l (4 * m + 2 * u)) (hi1 : i1 = 2 ^ l / 2 + bitrevEntry l (4 * m + 2 * u + 1))
    (hc : c = 2 ^ l + 4 * m + 2 * u) (hlo : lo = 4 * m + 2 * u) (hhi : hi = 2 ^ l / 2 - 4 - 4 * m + 2 - 2 * u) :
    PairCombined T (p.X epoch base) ((p.run epoch base T (bitrevBody l)).X epoch base) i0 i1 c lo hi := by
  obtain ⟨e, -, hn⟩ := blockSize_eq h
  have hothers : ∀ m' u', m' < 2 ^ l / 16 → u' < 2 → (m' ≠ m ∨ u' ≠ u) →
      ∀ x ∈ bitrevStepPair l m' u',
        spares (fun j => 2 ^ l / 2 ≤ j ∨ j = lo ∨ j = lo + 1 ∨ j = hi ∨ j = hi + 1) x :=
    fun m' u' _ _ _ => bitrevPair_spares _ _ _ _ _ fun r _ => by omega
  have hpair : bitrevStepPair l m u = bitrevPair i0 i1 c lo hi := by rw [bitrevStepPair, hi0, hi1, hc, hlo, hhi]
  rw [bitrevBody_eq]
  obtain ⟨p', hbefore, hafter⟩ := run_forLoop_iteration epoch base T p hm
    fun m' hm' hne => forLoop_spares fun u' hu' => hothers m' u' hm' hu' (.inl hne)
  obtain ⟨p'', hbefore', hafter'⟩ := run_forLoop_iteration epoch base T p' hu
    fun u' hu' hne => hothers m u' hm hu' (.inr hne)
  have hrun := run_bitrevPair epoch base T p'' i0 i1 c (lo := lo) (hi := hi) (by omega)
  simp (disch := omega) only [PairCombined, hbefore', hbefore] at hrun
  simpa only [PairCombined, hafter, hafter', hpair, true_or, or_true] using hrun

end Iterations

/-! ### The command -/

theorem slotBitrev_of_valid {v : Slot} (h : slotValid v = true) (j : Nat) : slotBitrev v j = bitrevEntry (slotL v) j :=
  if_pos h

/-- Settles O44: BITREV reads the upper half only and writes the lower half only, each pair its own four words. -/
theorem bitrevCombinesReorderedPairs : Obligations.BitrevCombinesReorderedPairs := by
  intro s k hr
  have h6 := (slotL_range hr.1).1
  have hwrites := runBody_bytesSameOutside (s := s) (base := s.base) (T := slotTrig (s.slot k)) (bitrevBody_writes h6)
  refine ⟨s.slotBody k bitrevBody, exec_bitrev (commonCheck_ready.2 hr), runBody_sameButBuf _ _ _ _, hwrites, ?_⟩
  rintro n n2 m u i0 i1 c lo hi rfl rfl hm hu hi0 hi1 hc hlo hhi
  rw [slotBitrev_of_valid hr.1] at hi0 hi1
  exact run_bitrevBody _ _ _ s.datapath h6 hm hu hi0 hi1 hc hlo hhi

end Sys2Proof.Proofs
end

section
/-! PROOFS. ROT_OUT (R108): its first two loops as loops over the words they write, and what each of the three loops
leaves (loop B by assumption 12). The symmetries of BACKWARD's output (R111) are those of ROT_OUT's. -/

namespace Sys2Proof.Proofs

open Sys2Proof.Machine Sys2Proof.Laws

/-! ### Loops in steps of four -/

theorem forLoop_congr {q : Nat} {f g : Nat → List Assign} (h : ∀ m, m < q → f m = g m) : forLoop q f = forLoop q g :=
  List.flatMap_congr fun m hm => h m (List.mem_range.1 hm)

theorem forLoop_four_mul (q : Nat) (f : Nat → List Assign) :
    forLoop (4 * q) f = forLoop q fun m => f (4 * m) ++ f (4 * m + 1) ++ f (4 * m + 2) ++ f (4 * m + 3) := by
  induction q with
  | zero => rfl
  | succ q ih =>
    rw [show 4 * (q + 1) = 4 * q + 1 + 1 + 1 + 1 by ring, forLoop_succ, forLoop_succ, forLoop_succ, forLoop_succ, ih,
      forLoop_succ]
    simp only [List.append_assoc]

/-! ### The loops over words -/

/-- The two words that loop A of ROT_OUT makes of X(2v) and X(2v + 1) (R108). -/
def rotOutAWords (n2 n4 v : Nat) : List Assign :=
  [.setX (n2 + n4 - 1 - v)
     (.sub (.mul (.x (2 * v)) (.t (n2 + 2 * v + 1))) (.mul (.x (2 * v + 1)) (.t (n2 + 2 * v)))),
   .setX (n2 + n4 + v)
     (.neg (.add (.mul (.x (2 * v)) (.t (n2 + 2 * v))) (.mul (.x (2 * v + 1)) (.t (n2 + 2 * v + 1)))))]

/-- The two words that loop B of ROT_OUT makes of X(n2 + n4 − 1 − v) (R108). -/
def rotOutBWords (n2 n4 v : Nat) : List Assign :=
  [.setX (n4 - 1 - v) (.x (n2 + n4 - 1 - v)), .setX (n4 + v) (.neg (.x (n2 + n4 - 1 - v)))]

theorem forLoop_rotOutA {q n2 n4 : Nat} (h : 4 * q ≤ n2 + n4) :
    forLoop q (rotOutA n2 n4) = forLoop (4 * q) (rotOutAWords n2 n4) := by
  rw [forLoop_four_mul]
  refine forLoop_congr fun m hm => ?_
  simp only [rotOutA, rotOutAWords, List.cons_append, List.nil_append, List.cons.injEq, Assign.setX.injEq,
    Rhs.sub.injEq, Rhs.mul.injEq, Rhs.neg.injEq, Rhs.add.injEq, Rhs.x.injEq, Rhs.t.injEq, and_true]
  omega

theorem forLoop_rotOutB {q n2 n4 : Nat} (h : 4 * q ≤ n4) :
    forLoop q (rotOutB n2 n4) = forLoop (4 * q) (rotOutBWords n2 n4) := by
  rw [forLoop_four_mul]
  refine forLoop_congr fun m hm => ?_
  simp only [rotOutB, rotOutBWords, List.cons_append, List.nil_append, List.cons.injEq, Assign.setX.injEq,
    Rhs.neg.injEq, Rhs.x.injEq, and_true]
  omega

theorem rotOutAWords_spares (n2 n4 v : Nat) {S : Nat → Prop} (hlo : ¬ S (n2 + n4 - 1 - v)) (hhi : ¬ S (n2 + n4 + v)) :
    ∀ a ∈ rotOutAWords n2 n4 v, spares S a := by
  simp only [rotOutAWords, List.forall_mem_cons, spares]
  exact ⟨hlo, hhi, by simp⟩

theorem rotOutBWords_spares (n2 n4 v : Nat) {S : Nat → Prop} (hlo : ¬ S (n4 - 1 - v)) (hhi : ¬ S (n4 + v)) :
    ∀ a ∈ rotOutBWords n2 n4 v, spares S a := by
  simp only [rotOutBWords, List.forall_mem_cons, spares]
  exact ⟨hlo, hhi, by simp⟩

theorem rotOutC_spares (n2 n4 m : Nat) {S : Nat → Prop} (h : ∀ r < 4, ¬ S (n2 + n4 - 4 - 4 * m + r)) :
    ∀ a ∈ rotOutC n2 n4 m, spares S a := by
  simp only [rotOutC, List.forall_mem_cons, spares]
  exact ⟨h 0 (by omega), h 1 (by omega), h 2 (by omega), h 3 (by omega), by simp⟩

section Loops

variable (epoch base : Nat) (T : Nat → Word) (p : Datapath) {n2 n4 q v : Nat}

/-- Loop A rotates the complex words of the lower half into the upper half (R108). -/
theorem run_loop_rotOutA (hn : n2 = 2 * n4) (hq : 4 * q = n4) (hv : v < n4) :
    MulSub (p.X epoch base (2 * v)) (T (n2 + 2 * v + 1)) (p.X epoch base (2 * v + 1)) (T (n2 + 2 * v))
        ((p.run epoch base T (forLoop q (rotOutA n2 n4))).X epoch base (n2 + n4 - 1 - v)) ∧
      ∃ w, MulAdd (p.X epoch base (2 * v)) (T (n2 + 2 * v)) (p.X epoch base (2 * v + 1)) (T (n2 + 2 * v + 1)) w ∧
        (p.run epoch base T (forLoop q (rotOutA n2 n4))).X epoch base (n2 + n4 + v) = fneg w := by
  rw [forLoop_rotOutA (by omega), hq]
  obtain ⟨p', hbefore, hafter⟩ := run_forLoop_iteration epoch base T
    (S := fun j => j < n2 ∨ j = n2 + n4 - 1 - v ∨ j = n2 + n4 + v) p hv
    fun v' hv' hne => rotOutAWords_spares n2 n4 v' (by omega) (by omega)
  simp (disch := omega) only [hafter, rotOutAWords, run_cons, run_nil, assign_setX_X, Datapath.value, Rhs.eval, if_pos,
    if_neg, hbefore]
  exact ⟨mulSub_fsub .., _, mulAdd_fadd .., rfl⟩

/-- Loop B copies the first quarter of the upper half to the front, and its negated mirror image after it (R108). -/
theorem run_loop_rotOutB (hn : n2 = 2 * n4) (hq : 4 * q = n4) (hv : v < n4) :
    (p.run epoch base T (forLoop q (rotOutB n2 n4))).X epoch base (n4 - 1 - v) = p.X epoch base (n2 + n4 - 1 - v) ∧
      (p.run epoch base T (forLoop q (rotOutB n2 n4))).X epoch base (n4 + v) =
        fneg (p.X epoch base (n2 + n4 - 1 - v)) := by
  rw [forLoop_rotOutB (by omega), hq]
  obtain ⟨p', hbefore, hafter⟩ := run_forLoop_iteration epoch base T
    (S := fun j => n2 ≤ j ∨ j = n4 - 1 - v ∨ j = n4 + v) p hv
    fun v' hv' hne => rotOutBWords_spares n2 n4 v' (by omega) (by omega)
  simp (disch := omega) only [hafter, rotOutBWords, run_cons, run_nil, assign_setX_X, Datapath.value, Rhs.eval, if_true,
    if_neg, hbefore, and_self]

theorem run_rotOutC {m r : Nat} (hm : 4 * m + 4 ≤ n2 + n4) (hr : r < 4) :
    (p.run epoch base T (rotOutC n2 n4 m)).X epoch base (n2 + n4 - 4 - 4 * m + r) =
      p.X epoch base (n2 + n4 + 4 * m + (3 - r)) := by
  simp (disch := omega) only [rotOutC, run_cons, run_nil, assign_setX_X, Datapath.value, Rhs.eval, if_neg]
  interval_cases r <;> simp

/-- Loop C mirrors the second quarter of the upper half into the first (R108). -/
theorem run_loop_rotOutC (hn : n2 = 2 * n4) (hq : 4 * q = n4) (hv : v < n4) :
    (p.run epoch base T (forLoop q (rotOutC n2 n4))).X epoch base (n2 + n4 - 1 - v) =
      p.X epoch base (n2 + n4 + v) := by
  obtain ⟨m, r, hm, hr, rfl⟩ : ∃ m r, m < q ∧ r < 4 ∧ v = 4 * m + (3 - r) :=
    ⟨v / 4, 3 - v % 4, by omega, by omega, by omega⟩
  obtain ⟨p', hbefore, hafter⟩ := run_forLoop_iteration epoch base T
    (S := fun j => n2 + n4 ≤ j ∨ j = n2 + n4 - 4 - 4 * m + r) p hm
    fun m' hm' hne => rotOutC_spares n2 n4 m' fun r' hr' => by omega
  rw [show n2 + n4 - 1 - (4 * m + (3 - r)) = n2 + n4 - 4 - 4 * m + r by omega, hafter _ (.inr rfl),
    run_rotOutC _ _ _ p' (by omega) hr, hbefore _ (.inl (by omega)), Nat.add_assoc]

/-! ### The whole body -/

/-- The output in terms of the upper half as loop A leaves it: loops B and C read words that neither of them has written
before (R108). -/
theorem run_rotOutBody {l : Nat} {Y : Nat → Word} (h : 6 ≤ l) (hn2 : n2 = 2 ^ l / 2) (hn4 : n4 = 2 ^ l / 4)
    (hY : Y = (p.run epoch base T (forLoop (2 ^ l / 16) (rotOutA n2 n4))).X epoch base) (hv : v < n4) :
    (p.run epoch base T (rotOutBody l)).X epoch base v = Y (n2 + v) ∧
      (p.run epoch base T (rotOutBody l)).X epoch base (n4 + v) = fneg (Y (n2 + n4 - 1 - v)) ∧
      (p.run epoch base T (rotOutBody l)).X epoch base (n2 + n4 - 1 - v) = Y (n2 + n4 + v) ∧
      (p.run epoch base T (rotOutBody l)).X epoch base (n2 + n4 + v) = Y (n2 + n4 + v) := by
  obtain ⟨e, he, hn⟩ := blockSize_eq h
  have hq : 4 * (2 ^ l / 16) = n4 := by omega
  have hdouble : n2 = 2 * n4 := by omega
  have hB : ∀ a ∈ forLoop (2 ^ l / 16) (rotOutB n2 n4), spares (fun j => n2 ≤ j) a := by
    rw [forLoop_rotOutB (by omega)]
    exact forLoop_spares fun v' _ => rotOutBWords_spares n2 n4 v' (by omega) (by omega)
  have hC := forLoop_spares (q := 2 ^ l / 16) (S := fun j => j < n2 ∨ n2 + n4 ≤ j)
    fun m' _ => rotOutC_spares n2 n4 m' fun r _ => by omega
  simp only [rotOutBody, ← hn2, ← hn4, run_append, hY]
  generalize p.run epoch base T (forLoop (2 ^ l / 16) (rotOutA n2 n4)) = pA
  have hfront := (run_loop_rotOutB epoch base T pA (v := n4 - 1 - v) hdouble hq (by omega)).1
  have hneg := (run_loop_rotOutB epoch base T pA hdouble hq hv).2
  have hmirror := run_loop_rotOutC epoch base T (pA.run epoch base T (forLoop (2 ^ l / 16) (rotOutB n2 n4))) hdouble hq hv
  rw [show n4 - 1 - (n4 - 1 - v) = v by omega, show n2 + n4 - 1 - (n4 - 1 - v) = n2 + v by omega] at hfront
  rw [run_X_of_spares hB (by omega)] at hmirror
  refine ⟨?_, ?_, hmirror, ?_⟩
  · rw [run_X_of_spares hC (by omega), hfront]
  · rw [run_X_of_spares hC (by omega), hneg]
  · rw [run_X_of_spares hC (by omega), run_X_of_spares hB (by omega)]

end Loops

/-! ### The commands -/

/-- Settles O45: Y is the upper half as loop A leaves it, which loops B and C unroll. -/
theorem rotOutRotatesAndUnrolls : Obligations.RotOutRotatesAndUnrolls := by
  intro s k hr
  have h6 := (slotL_range hr.1).1
  obtain ⟨e, he, hn⟩ := blockSize_eq h6
  refine ⟨s.slotBody k rotOutBody, exec_rotOut (commonCheck_ready.2 hr), runBody_sameButBuf _ _ _ _,
    runBody_bytesSameOutside (rotOutBody_writes h6), ?_⟩
  rintro n n2 n4 rfl hn2 hn4
  refine ⟨_, fun m u hm hu => ?_, fun j hj => run_rotOutBody _ _ _ s.datapath h6 hn2 hn4 rfl hj⟩
  have hloop := run_loop_rotOutA s.bufEpoch s.base (slotTrig (s.slot k)) s.datapath
    (n2 := n2) (n4 := n4) (q := 2 ^ slotL (s.slot k) / 16) (v := 4 * m + u) (by omega) (by omega) (by omega)
  rw [show n2 + n4 - 4 - 4 * m + 3 - u = n2 + n4 - 1 - (4 * m + u) by omega,
    show 8 * m + 2 * u = 2 * (4 * m + u) by omega, show n2 + 8 * m + 2 * u = n2 + 2 * (4 * m + u) by omega,
    show n2 + n4 + 4 * m + u = n2 + n4 + (4 * m + u) by omega]
  exact hloop

/-- ROT_OUT leaves a first half that is odd about its centre and a second half that is even, whatever it finds (R111). -/
theorem rotOut_symmetries {u : State} {k : SlotId} {n m : Nat} (h : 6 ≤ slotL (u.slot k))
    (hn : n = 2 ^ slotL (u.slot k)) (hm : m < n / 4) :
    (u.slotBody k rotOutBody).X (n / 4 - 1 - m) = fneg ((u.slotBody k rotOutBody).X (n / 4 + m)) ∧
      (u.slotBody k rotOutBody).X (n / 2 + n / 4 - 1 - m) = (u.slotBody k rotOutBody).X (n / 2 + n / 4 + m) := by
  subst hn
  have hword := fun v => run_rotOutBody u.bufEpoch u.base (slotTrig (u.slot k)) u.datapath h rfl
    rfl rfl (v := v)
  obtain ⟨-, hneg, hmirror, hcopy⟩ := hword m hm
  obtain ⟨hfront, -⟩ := hword (2 ^ slotL (u.slot k) / 4 - 1 - m) (by omega)
  simp only [slotBody_X]
  rw [hfront, hneg, fneg_fneg, hmirror, hcopy]
  exact ⟨by congr 1; omega, rfl⟩

/-- Settles O46: BACKWARD ends with ROT_OUT. -/
theorem backwardOutputSymmetries : Obligations.BackwardOutputSymmetries := by
  intro s k hr
  refine ⟨s.slotBody k backwardBody, checked_none (commonCheck_ready.2 hr), fun n m hn hm => ?_⟩
  rw [slotBody_backwardBody hr.1]
  exact rotOut_symmetries (slotL_range hr.1).1 hn hm

end Sys2Proof.Proofs
end

section
/-! PROOFS. The half of the window that BACKWARD, ROT_IN, ROT_OUT and BITREV overwrite before they read it (R102, R113):
each body reads the other half only and assigns every word of this one. -/

namespace Sys2Proof.Proofs

open Sys2Proof.Machine Sys2Proof.Laws

/-! ### Every word of the half is assigned -/

/-- The body assigns the window word j. -/
def assigns (b : List Assign) (j : Nat) : Prop := ∃ e, Assign.setX j e ∈ b

theorem assigns_append {b c : List Assign} {j : Nat} : assigns (b ++ c) j ↔ assigns b j ∨ assigns c j := by
  simp only [assigns, List.mem_append, exists_or]

theorem assigns_forLoop {q j : Nat} {body : Nat → List Assign} :
    assigns (forLoop q body) j ↔ ∃ m, m < q ∧ assigns (body m) j := by
  simp only [assigns, mem_forLoop]
  exact ⟨fun ⟨e, m, hm, he⟩ => ⟨m, hm, e, he⟩, fun ⟨m, hm, e, he⟩ => ⟨e, m, hm, he⟩⟩

theorem assigns_rotInA {n2 n4 m j : Nat} (h : ∃ r < 4, j = n2 + n4 - 4 - 4 * m + r) : assigns (rotInA n2 n4 m) j := by
  obtain ⟨r, hr, rfl⟩ := h
  interval_cases r <;> simp [assigns, rotInA]

theorem assigns_rotInB {n2 n4 m j : Nat} (h : ∃ r < 4, j = n2 + n4 + 4 * m + r) : assigns (rotInB n2 n4 m) j := by
  obtain ⟨r, hr, rfl⟩ := h
  interval_cases r <;> simp [assigns, rotInB]

/-- ROT_IN assigns every word of the upper half (R102). -/
theorem assigns_rotInBody {l j : Nat} (h : 6 ≤ l) (hj : 2 ^ l / 2 ≤ j ∧ j < 2 ^ l) : assigns (rotInBody l) j := by
  obtain ⟨e, he, hn⟩ := blockSize_eq h
  rw [rotInBody, assigns_append, assigns_forLoop, assigns_forLoop]
  by_cases hlow : j < 2 ^ l / 2 + 2 ^ l / 4
  · exact .inl ⟨(2 ^ l / 2 + 2 ^ l / 4 - 1 - j) / 4, by omega, assigns_rotInA ⟨j % 4, by omega, by omega⟩⟩
  · exact .inr ⟨(j - (2 ^ l / 2 + 2 ^ l / 4)) / 4, by omega, assigns_rotInB ⟨j % 4, by omega, by omega⟩⟩

/-- ROT_OUT assigns every word of the upper half, in its loop A (R108). -/
theorem assigns_rotOutBody {l j : Nat} (h : 6 ≤ l) (hj : 2 ^ l / 2 ≤ j ∧ j < 2 ^ l) : assigns (rotOutBody l) j := by
  obtain ⟨e, he, hn⟩ := blockSize_eq h
  have hloop := rotOutA_covers (c := e) (j := j) (by omega)
  rw [show 4 * e = 2 ^ l / 16 by omega, show 32 * e = 2 ^ l / 2 by omega, show 16 * e = 2 ^ l / 4 by omega] at hloop
  exact assigns_append.2 (.inl (assigns_append.2 (.inl hloop)))

/-- BACKWARD assigns every word of the upper half, in its first stage (R101). -/
theorem assigns_backwardBody {l j : Nat} (h : 6 ≤ l) (hj : 2 ^ l / 2 ≤ j ∧ j < 2 ^ l) : assigns (backwardBody l) j := by
  simp only [backwardBody, assigns_append]
  exact .inl (.inl (.inl (assigns_rotInBody h hj)))

theorem assigns_bitrevStep {l m j : Nat} (h : ∃ r < 4, j = 4 * m + r ∨ j = 2 ^ l / 2 - 4 - 4 * m + r) :
    assigns (bitrevStep l m) j := by
  obtain ⟨r, hr, rfl | rfl⟩ := h <;> interval_cases r <;> simp [assigns, bitrevStep, bitrevPair, exists_or]

/-- BITREV assigns every word of the lower half (R107). -/
theorem assigns_bitrevBody {l j : Nat} (h : 6 ≤ l) (hj : j < 2 ^ l / 2) : assigns (bitrevBody l) j := by
  obtain ⟨e, he, hn⟩ := blockSize_eq h
  rw [bitrevBody, assigns_forLoop]
  by_cases hlow : j < 2 ^ l / 4
  · exact ⟨j / 4, by omega, assigns_bitrevStep ⟨j % 4, by omega, .inl (by omega)⟩⟩
  · exact ⟨(2 ^ l / 2 - 1 - j) / 4, by omega, assigns_bitrevStep ⟨j % 4, by omega, .inr (by omega)⟩⟩

/-! ### BACKWARD reads the lower half only -/

/-- Every stage of BACKWARD after the first finds an upper half that ROT_IN has assigned (R113). -/
theorem backwardBody_reads_lower {l : Nat} (h : 6 ≤ l) :
    bodyReadsWithin (fun j => j < 2 ^ l / 2) [] (backwardBody l) := by
  have hassigned : ∀ j, j < 2 ^ l → j < 2 ^ l / 2 ∨ assigns (rotInBody l) j := fun j hj => by
    by_cases hlow : j < 2 ^ l / 2
    · exact .inl hlow
    · exact .inr (assigns_rotInBody h ⟨by omega, hj⟩)
  refine bodyReadsWithin_append (bodyReadsWithin_append (bodyReadsWithin_append (rotInBody_reads h) ?_) ?_) ?_
  · exact bodyReadsWithin_mono (fun j hj => hassigned j hj.2) (fun _ hk => hk) (bflyAllBody_reads h)
  · refine bodyReadsWithin_mono (fun j hj => ?_) (fun _ hk => hk) (bitrevBody_reads h)
    exact (hassigned j hj.2).imp_right fun hw => assigns_append.2 (.inl hw)
  · exact bodyReadsWithin_mono (fun j hj => .inl hj) (fun _ hk => hk) (rotOutBody_reads h)

/-! ### The commands -/

/-- Two states that hold the same words where a body reads hold the same words there, and in every word it assigns,
after it. -/
theorem runBody_agree_assigned {s s' : State} {base : Nat} {T : Nat → Word} {b : List Assign} {S : Nat → Prop}
    (hX : ∀ j, S j → s.bufWord (base + j) = s'.bufWord (base + j)) (hd : s.nanDraws = s'.nanDraws)
    (hb : bodyReadsWithin S [] b) {j : Nat} (hj : S j ∨ assigns b j) :
    (s.runBody base T b).bufWord (base + j) = (s'.runBody base T b).bufWord (base + j) := by
  have hstart : Agree s.bufEpoch s'.bufEpoch base base S [] s.datapath s'.datapath := ⟨hX, by simp, hd⟩
  exact (run_agree _ _ T hstart hb).1 j hj

/-- Settles O47: each of the four bodies reads one half of the window only and assigns the whole of the other. -/
theorem overwrittenHalfHasNoInfluence : Obligations.OverwrittenHalfHasNoInfluence := by
  intro s s' k hsame hdraws hr
  obtain ⟨-, -, -, -, hbaseIdx, hslot0, hslot1, hsize, -⟩ := hsame
  have hbase : s'.base = s.base := congrArg BitVec.toNat hbaseIdx
  have hwords : s'.bufWords = s.bufWords := by rw [State.bufWords, hsize]; rfl
  have hslot : s'.slot k = s.slot k := by rw [State.slot, hslot0, hslot1]; rfl
  have h6 := (slotL_range hr.1).1
  have hcheck := commonCheck_ready.2 hr
  have hcheck' : s'.commonCheck k = none := by
    rw [State.commonCheck, State.blockSize, hslot, hbase, hwords]
    exact hcheck
  have hbody : ∀ {body : Nat → List Assign} {S : Nat → Prop}, bodyReadsWithin S [] (body (slotL (s.slot k))) →
      (∀ j, j < s.blockSize k → S j ∨ assigns (body (slotL (s.slot k))) j) → (∀ j, S j → s.X j = s'.X j) →
      ∀ j, j < s.blockSize k → (s.slotBody k body).X j = (s'.slotBody k body).X j :=
    fun hreads hassigns hX j hj => by
      simp only [State.X, State.slotBody, runBody_base, hbase, hslot] at hX ⊢
      exact runBody_agree_assigned hX hdraws.symm hreads (hassigns j hj)
  constructor
  · intro hX i hi
    have hupper : ∀ {b}, (∀ j, 2 ^ slotL (s.slot k) / 2 ≤ j ∧ j < 2 ^ slotL (s.slot k) → assigns b j) →
        ∀ j, j < s.blockSize k → j < 2 ^ slotL (s.slot k) / 2 ∨ assigns b j :=
      fun hb j hj => (Nat.lt_or_ge j _).imp_right fun hge => hb j ⟨hge, hj⟩
    simp only [List.mem_cons, List.not_mem_nil, or_false] at hi
    rcases hi with rfl | rfl | rfl
    · exact ⟨_, _, checked_none hcheck, checked_none hcheck',
        hbody (backwardBody_reads_lower h6) (hupper fun j => assigns_backwardBody h6) hX⟩
    · exact ⟨_, _, exec_rotIn hcheck, exec_rotIn hcheck',
        hbody (rotInBody_reads h6) (hupper fun j => assigns_rotInBody h6) hX⟩
    · exact ⟨_, _, exec_rotOut hcheck, exec_rotOut hcheck',
        hbody (rotOutBody_reads h6) (hupper fun j => assigns_rotOutBody h6) hX⟩
  · intro hX
    refine ⟨_, _, exec_bitrev hcheck, exec_bitrev hcheck',
      hbody (bitrevBody_reads h6) (fun j hj => ?_) fun j hj => hX j hj.1 hj.2⟩
    exact (Nat.lt_or_ge j (2 ^ slotL (s.slot k) / 2)).symm.imp (fun hge => ⟨hge, hj⟩) (assigns_bitrevBody h6)

end Sys2Proof.Proofs
end

section
/-! PROOFS. BFLY_ALL and its schedule (R106): each command of the schedule performs its own body on the window of the slot,
a kernel among them because it reads no table, and the bodies in a row are BFLY_ALL's. -/

namespace Sys2Proof.Proofs

open Sys2Proof.Machine Sys2Proof.Laws

/-! ### Bodies that read no table -/

/-- The expression reads no word of the trig table. -/
def rhsTableFree : Rhs → Prop
  | .x _ => True
  | .r _ => True
  | .t _ => False
  | .c _ => True
  | .neg e => rhsTableFree e
  | .add e f => rhsTableFree e ∧ rhsTableFree f
  | .sub e f => rhsTableFree e ∧ rhsTableFree f
  | .mul e f => rhsTableFree e ∧ rhsTableFree f

/-- The assignment reads no word of the trig table. -/
def tableFree : Assign → Prop
  | .setX _ e => rhsTableFree e
  | .setR _ e => rhsTableFree e

theorem eval_tableFree {X : Nat → Word} {R : Temp → Word} {T T' : Nat → Word} {e : Rhs} (h : rhsTableFree e) (d : Nat) :
    e.eval X R T d = e.eval X R T' d := by
  induction e generalizing d with
  | x i => rfl
  | r k => rfl
  | t k => exact h.elim
  | c w => rfl
  | neg e ih => simp only [Rhs.eval, ih h]
  | add e f ihe ihf | sub e f ihe ihf | mul e f ihe ihf => simp only [Rhs.eval, ihe h.1, ihf h.2]

theorem run_tableFree {epoch base : Nat} {T T' : Nat → Word} {b : List Assign} (h : ∀ a ∈ b, tableFree a)
    (p : Datapath) : p.run epoch base T b = p.run epoch base T' b := by
  induction b generalizing p with
  | nil => rfl
  | cons a b ih =>
    have hassign : p.assign epoch base T a = p.assign epoch base T' a := by
      have ha := h a List.mem_cons_self
      cases a <;> simp only [Datapath.assign, Datapath.value, eval_tableFree (T := T) (T' := T') ha]
    rw [run_cons, run_cons, hassign, ih fun a ha => h a (List.mem_cons_of_mem _ ha)]

theorem k8Body_tableFree (o : Nat) : ∀ a ∈ k8Body o, tableFree a := by
  simp [k8Body, tableFree, rhsTableFree]

theorem k16Body_tableFree (o : Nat) : ∀ a ∈ k16Body o, tableFree a := by
  simp only [k16Body, List.forall_mem_append]
  exact ⟨⟨by simp [k16Head, tableFree, rhsTableFree], k8Body_tableFree o⟩, k8Body_tableFree (o + 8)⟩

theorem k32Body_tableFree (o : Nat) : ∀ a ∈ k32Body o, tableFree a := by
  simp only [k32Body, List.forall_mem_append]
  exact ⟨⟨by simp [k32Head, tableFree, rhsTableFree], k16Body_tableFree o⟩, k16Body_tableFree (o + 16)⟩

/-! ### Commands that are one body on a slot's window -/

/-- In every state with the window and the slot of `s`, command `i` performs body `b` on that window with the slot's
table, and `b` sets its temporaries before it reads them. -/
structure Performs (s : State) (k : SlotId) (i : Instr) (b : List Assign) : Prop where
  setsTemps : bodyReadsWithin (fun _ => True) [] b
  exec_eq : ∀ u : State, u.base = s.base → u.slot k = s.slot k → u.bufWords = s.bufWords →
    exec i u = .next (u.runBody s.base (slotTrig (s.slot k)) b)

theorem runCommands_cons {i : Instr} {s t : State} (h : exec i s = .next t) (is : List Instr) :
    runCommands (i :: is) s = runCommands is t := by
  rw [runCommands, h]

/-- Commands that are one body each, issued one after another, are one body (R20). -/
theorem runCommands_eq_runBody {s : State} {k : SlotId} {bodyOf : Instr → List Assign} {is : List Instr}
    (h : ∀ i ∈ is, Performs s k i (bodyOf i)) (before : List Assign) :
    runCommands is (s.runBody s.base (slotTrig (s.slot k)) before) =
      .next (s.runBody s.base (slotTrig (s.slot k)) (before ++ is.flatMap bodyOf)) := by
  induction is generalizing before with
  | nil => rw [List.flatMap_nil, List.append_nil]; rfl
  | cons i is ih =>
    obtain ⟨htemps, hexec⟩ := h i List.mem_cons_self
    have hnext := hexec (s.runBody s.base (slotTrig (s.slot k)) before) rfl rfl rfl
    rw [← runBody_append htemps] at hnext
    rw [runCommands_cons hnext, List.flatMap_cons, ← List.append_assoc]
    exact ih (fun j hj => h j (List.mem_cons_of_mem _ hj)) _

section Schedule

variable {s : State} {k : SlotId} (h : s.transformReady k)
include h

theorem transformReady_congr {u : State} (hbase : u.base = s.base) (hslot : u.slot k = s.slot k)
    (hwords : u.bufWords = s.bufWords) : u.transformReady k := by
  rw [State.transformReady, State.blockSize, hslot, hbase, hwords]
  exact h

theorem performs_bflyFirst : Performs s k (.bflyFirst k) (bflyFirstBody (slotL (s.slot k))) where
  setsTemps := bodyReadsWithin_mono (fun _ _ => trivial) (fun _ hk => hk) (bflyFirstBody_reads (slotL_range h.1).1)
  exec_eq u hbase hslot hwords := by
    rw [← hbase, ← hslot]
    exact checked_none (commonCheck_ready.2 (transformReady_congr h hbase hslot hwords))

theorem performs_bflyGen {a b : Nat} (hstage : s.stageReady k a b) :
    Performs s k (.bflyGen k a b) (bflyGenBody a b (slotL (s.slot k))) where
  setsTemps := bodyReadsWithin_mono (fun _ _ => trivial) (fun _ hk => hk)
    (bflyGenBody_reads (slotL_range h.1).1 hstage.1 hstage.2)
  exec_eq u hbase hslot hwords := by
    have hready := transformReady_congr h hbase hslot hwords
    rw [State.stageReady, ← hslot] at hstage
    rw [← hbase, ← hslot]
    exact checked_none (stageCheck_ready.2 ⟨hready, hstage⟩)

/-- A kernel inside the slot's window performs the same body with the slot's table, which it does not read. -/
theorem performs_ker32 {ofs : Nat} (hofs : ofs + 32 ≤ s.blockSize k) : Performs s k (.ker32 ofs) (k32Body ofs) where
  setsTemps := bodyReadsWithin_mono (fun _ _ => trivial) (fun _ hk => hk) (k32Body_reads ofs)
  exec_eq u hbase hslot hwords := by
    have hready : u.kernelReady ofs 32 := by
      have hwindow := h.2
      rw [State.kernelReady, hbase, hwords]
      omega
    have hrun : u.kernelBody (k32Body ofs) = u.runBody s.base (slotTrig (s.slot k)) (k32Body ofs) := by
      rw [State.kernelBody, hbase, State.runBody, run_tableFree (k32Body_tableFree ofs)]
      rfl
    rw [← hrun]
    exact checked_none (kernelCheck_ready.2 hready)

end Schedule

/-! ### The schedule -/

/-- The body of a command of BFLY_ALL's schedule for n = 2^l. -/
def scheduleBody (l : Nat) : Instr → List Assign
  | .bflyFirst _ => bflyFirstBody l
  | .bflyGen _ a b => bflyGenBody a b l
  | .ker32 ofs => k32Body ofs
  | _ => []

/-- BFLY_ALL's schedule, as R106 lists it. -/
def schedule (k : SlotId) (l : Nat) : List Instr :=
  (if 7 ≤ l then [.bflyFirst k] else []) ++
    (List.range (l - 7)).flatMap (fun i => (List.range (2 ^ (i + 1))).map (fun j => Instr.bflyGen k (i + 1) j)) ++
    (List.range (2 ^ l / 64)).map (fun j => Instr.ker32 (2 ^ l / 2 + 32 * j))

/-- The bodies of the schedule in a row are BFLY_ALL's body (R106). -/
theorem flatMap_schedule (k : SlotId) (l : Nat) : (schedule k l).flatMap (scheduleBody l) = bflyAllBody l := by
  have hfirst : (if 7 ≤ l then [Instr.bflyFirst k] else []).flatMap (scheduleBody l) =
      if l ≥ 7 then bflyFirstBody l else [] := by
    split <;> simp [scheduleBody]
  rw [schedule, List.flatMap_append, List.flatMap_append, hfirst, List.flatMap_assoc]
  simp only [List.flatMap_map]
  rfl

/-- Settles O43: every command of the schedule passes its checks and performs its own part of BFLY_ALL's body. -/
theorem bflyAllIsItsSchedule : Obligations.BflyAllIsItsSchedule := by
  intro s k hr
  have h6 := (slotL_range hr.1).1
  obtain ⟨e, he, hn⟩ := blockSize_eq h6
  have hperforms : ∀ i ∈ schedule k (slotL (s.slot k)), Performs s k i (scheduleBody (slotL (s.slot k)) i) := by
    simp only [schedule, List.forall_mem_append, List.mem_flatMap, List.mem_map, List.mem_range]
    refine ⟨⟨fun i hi => ?_, ?_⟩, ?_⟩
    · split at hi
      · obtain rfl := List.mem_singleton.1 hi
        exact performs_bflyFirst hr
      · cases hi
    · rintro _ ⟨i, hi, j, hj, rfl⟩
      exact performs_bflyGen hr ⟨by omega, hj⟩
    · rintro _ ⟨j, hj, rfl⟩
      exact performs_ker32 hr (by rw [State.blockSize]; omega)
  refine ⟨s.slotBody k bflyAllBody, exec_bflyAll (commonCheck_ready.2 hr), ?_⟩
  have hrun := runCommands_eq_runBody hperforms []
  rwa [List.nil_append, flatMap_schedule] at hrun

end Sys2Proof.Proofs
end

section
/-! PROOFS. What is known of a body's results before it runs: each word of the window carries what is known of its value,
and each operation has a rule for what is then known of its result. Two such shadows settle what BACKWARD makes of zeros
(R115) and of a NaN (R112) at n = 64, by running BACKWARD's body on the shadow. -/

namespace Sys2Proof.Proofs

open Sys2Proof.Machine Sys2Proof.Laws

/-! ### Shadows -/

/-- Rules for what is known, as a value of α, of a given word and of an operation's result. -/
structure Shadow (α : Type) where
  word : Word → α
  neg : α → α
  add : α → α → α
  mul : α → α → α

/-- What is known of the window's words and of the temporaries. -/
structure ShadowPath (α : Type) where
  X : Nat → α
  temp : Temp → α

/-- What is known of an expression's value; a difference is the sum with the second operand negated (R8). -/
def Shadow.eval {α : Type} (h : Shadow α) (T : Nat → Word) (q : ShadowPath α) : Rhs → α
  | .x i => q.X i
  | .r k => q.temp k
  | .t k => h.word (T k)
  | .c w => h.word w
  | .neg e => h.neg (h.eval T q e)
  | .add e f => h.add (h.eval T q e) (h.eval T q f)
  | .sub e f => h.add (h.eval T q e) (h.neg (h.eval T q f))
  | .mul e f => h.mul (h.eval T q e) (h.eval T q f)

/-- What is known after an assignment. -/
def Shadow.assign {α : Type} (h : Shadow α) (T : Nat → Word) (q : ShadowPath α) : Assign → ShadowPath α
  | .setX i e => { q with X := fun j => if j = i then h.eval T q e else q.X j }
  | .setR k e => { q with temp := fun j => if j = k then h.eval T q e else q.temp j }

/-- What is known after a body. -/
def Shadow.run {α : Type} (h : Shadow α) (T : Nat → Word) : ShadowPath α → List Assign → ShadowPath α
  | q, [] => q
  | q, a :: b => h.run T (h.assign T q a) b

/-- The rules of a shadow are right, where `Holds a w` says that what a says of word w is so. -/
structure Shadow.Sound {α : Type} (h : Shadow α) (Holds : α → Word → Prop) : Prop where
  word : ∀ w, Holds (h.word w) w
  neg : ∀ {a v}, Holds a v → Holds (h.neg a) (fneg v)
  add : ∀ {a b v w} (d : Nat), Holds a v → Holds b w → Holds (h.add a b) (fadd d v w)
  mul : ∀ {a b v w} (d : Nat), Holds a v → Holds b w → Holds (h.mul a b) (fmul d v w)

section Soundness

variable {α : Type} {h : Shadow α} {Holds : α → Word → Prop} (hs : h.Sound Holds) {epoch base : Nat} {T : Nat → Word}
include hs

theorem eval_shadow {q : ShadowPath α} {X : Nat → Word} {R : Temp → Word} (hX : ∀ j, Holds (q.X j) (X j))
    (hR : ∀ k, Holds (q.temp k) (R k)) (e : Rhs) (d : Nat) : Holds (h.eval T q e) (e.eval X R T d) := by
  induction e generalizing d with
  | x i => exact hX i
  | r k => exact hR k
  | t k => exact hs.word _
  | c w => exact hs.word w
  | neg e ih => exact hs.neg (ih d)
  | add e f ihe ihf => exact hs.add _ (ihe d) (ihf _)
  | sub e f ihe ihf => exact hs.add _ (ihe d) (hs.neg (ihf _))
  | mul e f ihe ihf => exact hs.mul _ (ihe d) (ihf _)

/-- What holds of every word and temporary before a body holds of every word after it, as the shadow's run says. -/
theorem run_shadow {q : ShadowPath α} {p : Datapath} {b : List Assign} (hX : ∀ j, Holds (q.X j) (p.X epoch base j))
    (hR : ∀ k, Holds (q.temp k) (p.temp k)) (j : Nat) :
    Holds ((h.run T q b).X j) ((p.run epoch base T b).X epoch base j) := by
  induction b generalizing p q with
  | nil => exact hX j
  | cons a b ih =>
    have hvalue := fun e => eval_shadow hs (T := T) hX hR e p.draws
    cases a with
    | setX i e =>
      refine ih (fun j => ?_) fun k => ?_
      · rw [assign_setX_X]
        simp only [Shadow.assign]
        split
        · exact hvalue e
        · exact hX j
      · rw [assign_setX_temp]
        exact hR k
    | setR k e =>
      refine ih (fun j => ?_) fun j => ?_
      · rw [assign_setR_X]
        exact hX j
      · rw [assign_setR_temp]
        simp only [Shadow.assign]
        split
        · exact hvalue e
        · exact hR j

end Soundness

theorem slotTrig_eq_trigWord {v : Slot} {l : Nat} (hv : slotValid v = true) (hl : slotL v = l) :
    slotTrig v = trigWord l := by
  subst hl
  exact funext fun j => if_pos hv

/-- What a shadow says of BACKWARD's output at n = 64 holds, if what it begins with holds of the window's words and of a
temporary's zero (assumption 7). -/
theorem backward_shadow {α : Type} {h : Shadow α} {Holds : α → Word → Prop} (hs : h.Sound Holds) {q : ShadowPath α}
    {s : State} {k : SlotId} (hr : s.transformReady k) (hL : slotL (s.slot k) = 6) (hX : ∀ j, Holds (q.X j) (s.X j))
    (hR : ∀ k, Holds (q.temp k) 0#32) (j : Nat) :
    Holds ((h.run (trigWord 6) q (backwardBody 6)).X j) ((s.slotBody k backwardBody).X j) := by
  rw [slotBody_X, slotTrig_eq_trigWord hr.1 hL, hL]
  exact run_shadow hs (p := s.datapath) hX (fun r => by cases r <;> exact hR _) j

/-! ### Zeros (R115) -/

/-- What is known of a word: that it is a zero of a known sign, or finite with a known sign, or nothing. -/
inductive ZeroSign where
  | zero (neg : Bool)
  | finite (neg : Bool)
  | any

/-- What is known is so. -/
def ZeroSign.Holds : ZeroSign → Word → Prop
  | .zero neg, w => w = signed neg 0
  | .finite neg, w => isFinite w = true ∧ signBit w = neg
  | .any, _ => True

/-- The word is known to be a zero of sign `neg`. -/
def ZeroSign.isZeroOf (neg : Bool) : ZeroSign → Bool
  | .zero s => s == neg
  | .finite _ => false
  | .any => false

theorem eq_signed_zero_of_isZeroOf {neg : Bool} {a : ZeroSign} {w : Word} (h : a.isZeroOf neg = true) (ha : a.Holds w) :
    w = signed neg 0 := by
  cases a with
  | zero s => rwa [← eq_of_beq h]
  | finite _ | any => cases h

/-- What is known of a given word. -/
def ZeroSign.ofWord (w : Word) : ZeroSign :=
  if isZero w then .zero (signBit w) else if isFinite w then .finite (signBit w) else .any

/-- Negation changes the sign and nothing else (R8). -/
def ZeroSign.neg : ZeroSign → ZeroSign
  | .zero s => .zero !s
  | .finite s => .finite !s
  | .any => .any

/-- Only a sum of zeros is known, and negative only if both are (R8). -/
def ZeroSign.add : ZeroSign → ZeroSign → ZeroSign
  | .zero s, .zero t => .zero (s && t)
  | _, _ => .any

/-- A zero times a finite word is a zero of the product's sign (R8); no other product is known. -/
def ZeroSign.mul : ZeroSign → ZeroSign → ZeroSign
  | .zero s, .zero t => .zero (s != t)
  | .zero s, .finite t => .zero (s != t)
  | .finite s, .zero t => .zero (s != t)
  | _, _ => .any

/-- The rules for zeros and their signs. -/
def zeroShadow : Shadow ZeroSign where
  word := ZeroSign.ofWord
  neg := ZeroSign.neg
  add := ZeroSign.add
  mul := ZeroSign.mul

theorem isFinite_signed_zero (s : Bool) : isFinite (signed s 0) = true := by cases s <;> decide

theorem signBit_signed_zero (s : Bool) : signBit (signed s 0) = s := signBit_signed s (by norm_num)

theorem magnitude_signed_zero (s : Bool) : magnitude (signed s 0) = 0 := by cases s <;> decide

theorem fneg_signed_zero (s : Bool) : fneg (signed s 0) = signed (!s) 0 := by cases s <;> decide

theorem eq_signed_zero_of_isZero {w : Word} (h : isZero w = true) : w = signed (signBit w) 0 := by
  rw [isZero, Bool.and_eq_true, beq_iff_eq] at h
  have hfields : expField w = 0 ∧ fracField w = 0 := by
    have hmag := h.2
    rw [magnitude] at hmag
    split at hmag
    · exact ⟨‹_›, hmag⟩
    · simp at hmag
  apply BitVec.eq_of_toNat_eq
  rw [signed_toNat _ (by norm_num), toNat_fields w, hfields.1, hfields.2]
  omega

theorem fadd_signed_zero (d : Nat) (s t : Bool) : fadd d (signed s 0) (signed t 0) = signed (s && t) 0 := by
  have hsum : addResult (signed s 0) (signed t 0) = some (signed (s && t) 0) := by cases s <;> cases t <;> decide
  rw [fadd, hsum, orNaN_some]

/-- A product of finite words of which one is a zero. -/
theorem fmul_of_magnitude_mul_eq_zero (d : Nat) {v w : Word} (hv : isFinite v = true) (hw : isFinite w = true)
    (h : magnitude v * magnitude w = 0) : fmul d v w = signed (signBit v != signBit w) 0 := by
  rw [fmul_of_finite d hv hw, h]
  rfl

theorem zeroShadow_sound : zeroShadow.Sound ZeroSign.Holds where
  word w := by
    simp only [zeroShadow, ZeroSign.ofWord]
    split
    · exact eq_signed_zero_of_isZero ‹_›
    · split
      · exact ⟨‹_›, rfl⟩
      · trivial
  neg {a v} ha := by
    cases a with
    | zero s => exact (congrArg fneg ha).trans (fneg_signed_zero s)
    | finite s => exact ⟨by rw [isFinite_fneg, ha.1], by rw [signBit_fneg, ha.2]⟩
    | any => trivial
  add {a b v w} d ha hb := by
    cases a with
    | zero s =>
      cases b with
      | zero t =>
        obtain rfl : v = _ := ha
        obtain rfl : w = _ := hb
        exact fadd_signed_zero d s t
      | finite _ | any => trivial
    | finite _ | any => trivial
  mul {a b v w} d ha hb := by
    have hproduct : ∀ {s t : Bool}, isFinite v = true ∧ signBit v = s → isFinite w = true ∧ signBit w = t →
        magnitude v = 0 ∨ magnitude w = 0 → fmul d v w = signed (s != t) 0 := fun hv hw hz => by
      rw [fmul_of_magnitude_mul_eq_zero d hv.1 hw.1 (Nat.mul_eq_zero.2 hz), hv.2, hw.2]
    have hzero : ∀ {s : Bool} {u : Word}, u = signed s 0 → (isFinite u = true ∧ signBit u = s) ∧ magnitude u = 0 := by
      rintro s _ rfl
      exact ⟨⟨isFinite_signed_zero s, signBit_signed_zero s⟩, magnitude_signed_zero s⟩
    cases a with
    | zero s =>
      cases b with
      | zero t => exact hproduct (hzero ha).1 (hzero hb).1 (.inl (hzero ha).2)
      | finite t => exact hproduct (hzero ha).1 hb (.inl (hzero ha).2)
      | any => trivial
    | finite s =>
      cases b with
      | zero t => exact hproduct ha (hzero hb).1 (.inr (hzero hb).2)
      | finite _ | any => trivial
    | any => trivial

/-- +0.0 in the lower half of the window of 64 words, and nothing known of the upper. -/
def zeroInput : ShadowPath ZeroSign where
  X j := if j < 32 then .zero false else .any
  temp _ := .zero false

/-- A run of the shadow, on signs alone: at n = 64 only the first 16 outputs are positive zeros. -/
theorem zeroShadow_backward :
    ∀ j < 64, ((zeroShadow.run (trigWord 6) zeroInput (backwardBody 6)).X j).isZeroOf (decide (16 ≤ j)) = true := by
  decide +kernel

/-- Settles O48: the signs of the zeros of every stage follow from the signs of the coefficients and of the twiddles. -/
theorem backwardOfZeroInput : Obligations.BackwardOfZeroInput := by
  intro s k hr hL hzero
  have hinput : ∀ j, (zeroInput.X j).Holds (s.X j) := fun j => by
    simp only [zeroInput]
    split
    · exact hzero j ‹_›
    · trivial
  have houtput : ∀ j < 64, (s.slotBody k backwardBody).X j = signed (decide (16 ≤ j)) 0 := fun j hj =>
    eq_signed_zero_of_isZeroOf (zeroShadow_backward j hj)
      (backward_shadow zeroShadow_sound hr hL hinput (fun _ => rfl) j)
  refine ⟨s.slotBody k backwardBody, checked_none (commonCheck_ready.2 hr), fun j hj => ?_, fun j hj hj' => ?_⟩
  · rw [houtput j (by omega), decide_eq_false (by omega)]
    rfl
  · rw [houtput j hj', decide_eq_true hj]
    rfl

/-! ### A NaN (R112) -/

/-- What is known of a word is a set of coefficients, as a bit mask: if one of them is a NaN, so is the word. -/
def nanShadow : Shadow Nat where
  word _ := 0
  neg a := a
  add a b := a ||| b
  mul a b := a ||| b

/-- What the mask says of a word when coefficient c is a NaN. -/
def NanHolds (c a : Nat) (w : Word) : Prop := a.testBit c = true → isNaN w = true

theorem nanShadow_sound (c : Nat) : nanShadow.Sound (NanHolds c) where
  word w h := by
    rw [nanShadow, Nat.zero_testBit] at h
    cases h
  neg ha h := by rw [isNaN_fneg, ha h]
  add d ha hb h := fadd_of_nan d ((Bool.or_eq_true_iff.1 ((Nat.testBit_or _ _ c).symm.trans h)).imp ha hb)
  mul d ha hb h := fmul_of_nan d ((Bool.or_eq_true_iff.1 ((Nat.testBit_or _ _ c).symm.trans h)).imp ha hb)

/-- Coefficient j stands in word j of the window of 64 words. -/
def nanInput : ShadowPath Nat where
  X j := if j < 32 then 2 ^ j else 0
  temp _ := 0

/-- A run of the shadow, on sets of coefficients alone: at n = 64 every output depends on all 32. -/
theorem nanShadow_backward :
    ∀ j < 64, (nanShadow.run (trigWord 6) nanInput (backwardBody 6)).X j = 2 ^ 32 - 1 := by
  decide +kernel

/-- Settles O49: every output depends, through additions, subtractions and products alone, on every coefficient. -/
theorem nanCoefficientSpreadsToEveryOutput : Obligations.NanCoefficientSpreadsToEveryOutput := by
  intro s k c hr hL herrv hc hnan
  have hinput : ∀ j, NanHolds c (nanInput.X j) (s.X j) := fun j h => by
    simp only [nanInput] at h
    split at h
    · rw [Nat.testBit_two_pow, decide_eq_true_eq] at h
      rw [h, hnan]
    · rw [Nat.zero_testBit] at h
      cases h
  have htemps : ∀ r, NanHolds c (nanInput.temp r) 0#32 := fun r => (nanShadow_sound c).word 0#32
  refine ⟨s.slotBody k backwardBody, checked_none (commonCheck_ready.2 hr), herrv, fun j hj => ?_⟩
  refine backward_shadow (nanShadow_sound c) hr hL hinput htemps j ?_
  rw [nanShadow_backward j hj, Nat.testBit_two_pow_sub_one, decide_eq_true hc]

end Sys2Proof.Proofs
end

section
/-! PROOFS. Kernel commands whose window fits (R126), and K8 (R125): its three parts, what each leaves, and that each
finds the words it reads as the command found them. -/

namespace Sys2Proof.Proofs

open Sys2Proof.Machine Sys2Proof.Laws

/-! ### Kernel commands whose window fits -/

theorem exec_ker8 {s : State} {ofs : Nat} (h : s.kernelReady ofs 8) :
    exec (.ker8 ofs) s = .next (s.kernelBody (k8Body ofs)) := checked_none (kernelCheck_ready.2 h)

theorem exec_ker16 {s : State} {ofs : Nat} (h : s.kernelReady ofs 16) :
    exec (.ker16 ofs) s = .next (s.kernelBody (k16Body ofs)) := checked_none (kernelCheck_ready.2 h)

theorem exec_ker32 {s : State} {ofs : Nat} (h : s.kernelReady ofs 32) :
    exec (.ker32 ofs) s = .next (s.kernelBody (k32Body ofs)) := checked_none (kernelCheck_ready.2 h)

/-- The words of the window after a kernel's body, in the terms of its run. -/
theorem kernelBody_X (s : State) (body : List Assign) (i : Nat) :
    (s.kernelBody body).X i =
      (s.datapath.run s.bufEpoch s.base (fun _ => 0#32) body).X s.bufEpoch s.base i := rfl

/-! ### The three parts of K8 -/

/-- K8's part on the even words: it writes X(o + 4) and X(o + 6), and leaves differences in r1 and r3 (R125). -/
def k8Even (o : Nat) : List Assign :=
  [.setR .r0 (.add (.x (o + 6)) (.x (o + 2))), .setR .r1 (.sub (.x (o + 6)) (.x (o + 2))),
   .setR .r2 (.add (.x (o + 4)) (.x o)), .setR .r3 (.sub (.x (o + 4)) (.x o)),
   .setX (o + 6) (.add (.r .r0) (.r .r2)), .setX (o + 4) (.sub (.r .r0) (.r .r2))]

/-- K8's part that writes X(o) and X(o + 2), with r1 from the even words, and leaves a difference of odd words in r2
(R125). -/
def k8Cross (o : Nat) : List Assign :=
  [.setR .r0 (.sub (.x (o + 5)) (.x (o + 1))), .setR .r2 (.sub (.x (o + 7)) (.x (o + 3))),
   .setX o (.add (.r .r1) (.r .r0)), .setX (o + 2) (.sub (.r .r1) (.r .r0))]

/-- K8's part that writes the odd words, with r2 and r3 from the parts before (R125). -/
def k8Odd (o : Nat) : List Assign :=
  [.setR .r0 (.add (.x (o + 5)) (.x (o + 1))), .setR .r1 (.add (.x (o + 7)) (.x (o + 3))),
   .setX (o + 3) (.add (.r .r2) (.r .r3)), .setX (o + 1) (.sub (.r .r2) (.r .r3)),
   .setX (o + 7) (.add (.r .r1) (.r .r0)), .setX (o + 5) (.sub (.r .r1) (.r .r0))]

theorem k8Body_eq (o : Nat) : k8Body o = k8Even o ++ k8Cross o ++ k8Odd o := rfl

section Parts

variable (epoch base : Nat) (T : Nat → Word) (p : Datapath) (o : Nat)

theorem run_k8Even_X {j : Nat} (hj : j ≠ o + 4 ∧ j ≠ o + 6) :
    (p.run epoch base T (k8Even o)).X epoch base j = p.X epoch base j :=
  run_X_of_spares (S := fun j => j ≠ o + 4 ∧ j ≠ o + 6) (by simp [k8Even, spares]) hj

theorem run_k8Cross_X {j : Nat} (hj : j ≠ o ∧ j ≠ o + 2) :
    (p.run epoch base T (k8Cross o)).X epoch base j = p.X epoch base j :=
  run_X_of_spares (S := fun j => j ≠ o ∧ j ≠ o + 2) (by simp [k8Cross, spares]) hj

theorem run_k8Odd_X {j : Nat} (hj : j = o ∨ j = o + 2 ∨ j = o + 4 ∨ j = o + 6) :
    (p.run epoch base T (k8Odd o)).X epoch base j = p.X epoch base j :=
  run_X_of_spares (S := fun j => j = o ∨ j = o + 2 ∨ j = o + 4 ∨ j = o + 6) (by simp [k8Odd, spares]) hj

theorem run_k8Even :
    ∃ s62 s40, SumOf (p.X epoch base (o + 6)) (p.X epoch base (o + 2)) s62 ∧
      SumOf (p.X epoch base (o + 4)) (p.X epoch base o) s40 ∧
      DiffOf (p.X epoch base (o + 6)) (p.X epoch base (o + 2)) ((p.run epoch base T (k8Even o)).temp .r1) ∧
      DiffOf (p.X epoch base (o + 4)) (p.X epoch base o) ((p.run epoch base T (k8Even o)).temp .r3) ∧
      SumOf s62 s40 ((p.run epoch base T (k8Even o)).X epoch base (o + 6)) ∧
      DiffOf s62 s40 ((p.run epoch base T (k8Even o)).X epoch base (o + 4)) := by
  simp (disch := omega) only [k8Even, run_cons, run_nil, assign_setX_X, assign_setR_X, assign_setX_temp,
    assign_setR_temp, Datapath.value, Rhs.eval, reduceCtorEq, if_true, if_false, if_neg]
  exact ⟨_, _, sumOf_fadd .., sumOf_fadd .., diffOf_fsub .., diffOf_fsub .., sumOf_fadd .., diffOf_fsub ..⟩

theorem run_k8Cross :
    (p.run epoch base T (k8Cross o)).temp .r3 = p.temp .r3 ∧
      ∃ d51, DiffOf (p.X epoch base (o + 5)) (p.X epoch base (o + 1)) d51 ∧
        DiffOf (p.X epoch base (o + 7)) (p.X epoch base (o + 3)) ((p.run epoch base T (k8Cross o)).temp .r2) ∧
        SumOf (p.temp .r1) d51 ((p.run epoch base T (k8Cross o)).X epoch base o) ∧
        DiffOf (p.temp .r1) d51 ((p.run epoch base T (k8Cross o)).X epoch base (o + 2)) := by
  simp (disch := omega) only [k8Cross, run_cons, run_nil, assign_setX_X, assign_setR_X, assign_setX_temp,
    assign_setR_temp, Datapath.value, Rhs.eval, reduceCtorEq, if_true, if_false, if_neg, true_and]
  exact ⟨_, diffOf_fsub .., diffOf_fsub .., sumOf_fadd .., diffOf_fsub ..⟩

theorem run_k8Odd :
    ∃ s51 s73, SumOf (p.X epoch base (o + 5)) (p.X epoch base (o + 1)) s51 ∧
      SumOf (p.X epoch base (o + 7)) (p.X epoch base (o + 3)) s73 ∧
      SumOf (p.temp .r2) (p.temp .r3) ((p.run epoch base T (k8Odd o)).X epoch base (o + 3)) ∧
      DiffOf (p.temp .r2) (p.temp .r3) ((p.run epoch base T (k8Odd o)).X epoch base (o + 1)) ∧
      SumOf s73 s51 ((p.run epoch base T (k8Odd o)).X epoch base (o + 7)) ∧
      DiffOf s73 s51 ((p.run epoch base T (k8Odd o)).X epoch base (o + 5)) := by
  simp (disch := omega) only [k8Odd, run_cons, run_nil, assign_setX_X, assign_setR_X, assign_setX_temp,
    assign_setR_temp, Datapath.value, Rhs.eval, reduceCtorEq, if_true, if_false, if_neg]
  exact ⟨_, _, sumOf_fadd .., sumOf_fadd .., sumOf_fadd .., diffOf_fsub .., sumOf_fadd .., diffOf_fsub ..⟩

end Parts

/-- Settles O52: K8 is three parts in a row, and no part writes a word that a later one reads. -/
theorem ker8ComputesEightPointButterfly : Obligations.Ker8ComputesEightPointButterfly := by
  intro s ofs h
  refine ⟨s.kernelBody (k8Body ofs), exec_ker8 h, runBody_sameButBuf _ _ _ _,
    runBody_bytesSameOutside (k8Body_writes ofs), ?_⟩
  obtain ⟨s62, s40, hs62, hs40, hd62, hd40, h6, h4⟩ := run_k8Even s.bufEpoch s.base (fun _ => 0#32) s.datapath ofs
  obtain ⟨hr3, d51, hd51, hd73, h0, h2⟩ := run_k8Cross s.bufEpoch s.base (fun _ => 0#32)
    (s.datapath.run s.bufEpoch s.base (fun _ => 0#32) (k8Even ofs)) ofs
  obtain ⟨s51, s73, hs51, hs73, h3, h1, h7, h5⟩ := run_k8Odd s.bufEpoch s.base (fun _ => 0#32)
    ((s.datapath.run s.bufEpoch s.base (fun _ => 0#32) (k8Even ofs)).run s.bufEpoch s.base (fun _ => 0#32)
      (k8Cross ofs)) ofs
  rw [hr3] at h3 h1
  simp (disch := omega) only [run_k8Cross_X, run_k8Even_X] at hd51 hd73 hs51 hs73
  simp (disch := omega) only [kernelBody_X, k8Body_eq, run_append, run_k8Odd_X, run_k8Cross_X]
  exact ⟨s62, _, s40, _, d51, _, s51, s73, hs62, hd62, hs40, hd40, hd51, hd73, hs51, hs73,
    h6, h4, h0, h2, h3, h1, h7, h5⟩

end Sys2Proof.Proofs
end

section
/-! PROOFS. K16 and K32 (R123, R124): their groups of four words, what one group leaves in its words, and that no other
group touches them; then the two smaller kernels that end the body. -/

namespace Sys2Proof.Proofs

open Sys2Proof.Machine Sys2Proof.Laws

/-! ### One group -/

/-- What tells the groups of a kernel apart (R123, R124): r0 = X(a0) − X(b0) and r1 = X(a1) − X(b1), with indices from
the group's first word on, and the expressions e0 and e1 in r0 and r1 that its low pair takes. -/
structure GroupOps where
  a0 : Nat
  b0 : Nat
  a1 : Nat
  b1 : Nat
  e0 : Rhs
  e1 : Rhs

/-- A group's differences, and the sums its high pair, `half` words above the low one, takes. -/
def kernelGroupHead (half low : Nat) (g : GroupOps) : List Assign :=
  [.setR .r0 (.sub (.x (low + g.a0)) (.x (low + g.b0))), .setR .r1 (.sub (.x (low + g.a1)) (.x (low + g.b1))),
   .setX (low + half) (.add (.x (low + half)) (.x low)),
   .setX (low + 1 + half) (.add (.x (low + 1 + half)) (.x (low + 1)))]

/-- The group of a kernel whose low pair stands at X(low). -/
def kernelGroup (half low : Nat) (g : GroupOps) : List Assign :=
  kernelGroupHead half low g ++ [.setX low g.e0, .setX (low + 1) g.e1]

/-- The group's two differences read its own four words. -/
def GroupOps.ReadsOwn (half : Nat) (g : GroupOps) : Prop :=
  ∀ a ∈ [g.a0, g.b0, g.a1, g.b1], a = 0 ∨ a = 1 ∨ a = half ∨ a = half + 1

section One

variable (epoch base : Nat) (T : Nat → Word) (p : Datapath) {half : Nat} (low : Nat) (g : GroupOps)

/-- Each word of the high pair is the sum of itself and its word of the low pair. -/
theorem run_kernelGroup_high (hhalf : 2 ≤ half) {i j : Nat} (hi : low ≤ i) (hi' : i < low + 2) (hj : j = i + half) :
    SumOf (p.X epoch base j) (p.X epoch base i) ((p.run epoch base T (kernelGroup half low g)).X epoch base j) := by
  subst hj
  obtain rfl | rfl : i = low ∨ i = low + 1 := by omega
  all_goals
    simp (disch := omega) only [kernelGroup, kernelGroupHead, List.cons_append, List.nil_append, run_cons, run_nil,
      assign_setX_X, assign_setR_X, Datapath.value, Rhs.eval, if_true, if_neg]
    exact sumOf_fadd ..

theorem run_kernelGroupHead_temps :
    DiffOf (p.X epoch base (low + g.a0)) (p.X epoch base (low + g.b0))
        ((p.run epoch base T (kernelGroupHead half low g)).temp .r0) ∧
      DiffOf (p.X epoch base (low + g.a1)) (p.X epoch base (low + g.b1))
        ((p.run epoch base T (kernelGroupHead half low g)).temp .r1) := by
  simp only [kernelGroupHead, run_cons, run_nil, assign_setR_X, assign_setX_temp, assign_setR_temp, Datapath.value,
    Rhs.eval, reduceCtorEq, if_true, if_false]
  exact ⟨diffOf_fsub .., diffOf_fsub ..⟩

/-- The low pair is made of r0 and r1: P and Q are any relations that e0 and e1 meet whatever the operands. -/
theorem run_kernelGroup_low {P Q : Word → Word → Word → Prop}
    (hP : ∀ X R d, P (R .r0) (R .r1) (g.e0.eval X R T d)) (hQ : ∀ X R d, Q (R .r0) (R .r1) (g.e1.eval X R T d)) :
    ∃ r0 r1, DiffOf (p.X epoch base (low + g.a0)) (p.X epoch base (low + g.b0)) r0 ∧
      DiffOf (p.X epoch base (low + g.a1)) (p.X epoch base (low + g.b1)) r1 ∧
      P r0 r1 ((p.run epoch base T (kernelGroup half low g)).X epoch base low) ∧
      Q r0 r1 ((p.run epoch base T (kernelGroup half low g)).X epoch base (low + 1)) := by
  obtain ⟨h0, h1⟩ := run_kernelGroupHead_temps epoch base T p (half := half) low g
  refine ⟨_, _, h0, h1, ?_⟩
  simp (disch := omega) only [kernelGroup, run_append, run_cons, run_nil, assign_setX_X, if_true, if_neg]
  generalize p.run epoch base T (kernelGroupHead half low g) = q
  have hlast := hQ ((q.assign epoch base T (.setX low g.e0)).X epoch base)
    (q.assign epoch base T (.setX low g.e0)).temp (q.assign epoch base T (.setX low g.e0)).draws
  rw [assign_setX_temp, assign_setX_temp] at hlast
  exact ⟨hP _ q.temp _, hlast⟩

end One

/-! ### Groups one after another -/

/-- The first `q` groups of a kernel, with their low pairs at X(low 0), X(low 1), …. -/
def kernelGroups (q half : Nat) (low : Nat → Nat) (ops : Nat → GroupOps) : List Assign :=
  forLoop q fun m => kernelGroup half (low m) (ops m)

/-- The word is one of the four of the group with its low pair at X(low). -/
def GroupWord (half low j : Nat) : Prop := (low ≤ j ∧ j < low + 2) ∨ (low + half ≤ j ∧ j < low + half + 2)

/-- No two of the first `q` groups have a word in common. -/
def GroupsApart (q half : Nat) (low : Nat → Nat) : Prop :=
  ∀ m < q, ∀ m' < q, m' ≠ m → ∀ j, GroupWord half (low m) j → ¬ GroupWord half (low m') j

theorem kernelGroup_spares {half low : Nat} (g : GroupOps) {S : Nat → Prop} (h : ∀ j, S j → ¬ GroupWord half low j) :
    ∀ a ∈ kernelGroup half low g, spares S a := by
  have hword : ∀ j, GroupWord half low j → ¬ S j := fun j hj hS => h j hS hj
  unfold GroupWord at hword
  simp only [kernelGroup, kernelGroupHead, List.cons_append, List.nil_append, List.forall_mem_cons, spares]
  exact ⟨trivial, trivial, hword _ (by omega), hword _ (by omega), hword _ (by omega), hword _ (by omega), by simp⟩

section Groups

variable (epoch base : Nat) (T : Nat → Word) (p : Datapath) {q half : Nat} {low : Nat → Nat} (ops : Nat → GroupOps)
  (hapart : GroupsApart q half low) {m : Nat} (hm : m < q)
include hapart hm

/-- A group finds its own words as the kernel found them, and no other group changes them. -/
theorem run_kernelGroups_group :
    ∃ p' : Datapath, (∀ j, GroupWord half (low m) j → p'.X epoch base j = p.X epoch base j) ∧
      ∀ j, GroupWord half (low m) j → (p.run epoch base T (kernelGroups q half low ops)).X epoch base j =
        (p'.run epoch base T (kernelGroup half (low m) (ops m))).X epoch base j :=
  run_forLoop_iteration epoch base T p hm fun m' hm' hne => kernelGroup_spares _ (hapart m hm m' hm' hne)

theorem run_kernelGroups_high (hhalf : 2 ≤ half) {i j : Nat} (hi : low m ≤ i) (hi' : i < low m + 2)
    (hj : j = i + half) :
    SumOf (p.X epoch base j) (p.X epoch base i)
      ((p.run epoch base T (kernelGroups q half low ops)).X epoch base j) := by
  obtain ⟨p', hbefore, hafter⟩ := run_kernelGroups_group epoch base T p ops hapart hm
  have hlow : GroupWord half (low m) i := .inl ⟨hi, hi'⟩
  have hhigh : GroupWord half (low m) j := .inr ⟨by omega, by omega⟩
  rw [hafter j hhigh, ← hbefore i hlow, ← hbefore j hhigh]
  exact run_kernelGroup_high epoch base T p' (low m) (ops m) hhalf hi hi' hj

theorem run_kernelGroups_low (hreads : (ops m).ReadsOwn half) {P Q : Word → Word → Word → Prop}
    (hP : ∀ X R d, P (R .r0) (R .r1) ((ops m).e0.eval X R T d))
    (hQ : ∀ X R d, Q (R .r0) (R .r1) ((ops m).e1.eval X R T d)) :
    ∃ r0 r1, DiffOf (p.X epoch base (low m + (ops m).a0)) (p.X epoch base (low m + (ops m).b0)) r0 ∧
      DiffOf (p.X epoch base (low m + (ops m).a1)) (p.X epoch base (low m + (ops m).b1)) r1 ∧
      P r0 r1 ((p.run epoch base T (kernelGroups q half low ops)).X epoch base (low m)) ∧
      Q r0 r1 ((p.run epoch base T (kernelGroups q half low ops)).X epoch base (low m + 1)) := by
  obtain ⟨p', hbefore, hafter⟩ := run_kernelGroups_group epoch base T p ops hapart hm
  have hown : ∀ a ∈ [(ops m).a0, (ops m).b0, (ops m).a1, (ops m).b1], GroupWord half (low m) (low m + a) :=
    fun a ha => by have := hreads a ha; unfold GroupWord; omega
  simp only [List.forall_mem_cons] at hown
  obtain ⟨ha0, hb0, ha1, hb1, -⟩ := hown
  rw [hafter (low m) (by unfold GroupWord; omega), hafter (low m + 1) (by unfold GroupWord; omega),
    ← hbefore _ ha0, ← hbefore _ hb0, ← hbefore _ ha1, ← hbefore _ hb1]
  exact run_kernelGroup_low epoch base T p' (low m) (ops m) hP hQ

end Groups

/-! ### The groups of K16 and K32 -/

/-- The groups of K16, in the order of R124: their low pairs stand at X(o), X(o + 2), X(o + 4), X(o + 6). -/
def k16Ops : Nat → GroupOps
  | 0 => ⟨1, 9, 0, 8, .mul (.add (.r .r0) (.r .r1)) (.c C2), .mul (.sub (.r .r0) (.r .r1)) (.c C2)⟩
  | 1 => ⟨1, 9, 8, 0, .r .r0, .r .r1⟩
  | 2 => ⟨8, 0, 9, 1, .mul (.sub (.r .r0) (.r .r1)) (.c C2), .mul (.add (.r .r0) (.r .r1)) (.c C2)⟩
  | _ => ⟨8, 0, 9, 1, .r .r0, .r .r1⟩

/-- The groups of K32, in the order of R123: their low pairs stand at X(o + 14), X(o + 12), …, X(o). -/
def k32Ops : Nat → GroupOps
  | 0 => ⟨16, 0, 17, 1, .r .r0, .r .r1⟩
  | 1 => ⟨16, 0, 17, 1, .sub (.mul (.r .r0) (.c C1)) (.mul (.r .r1) (.c C3)),
      .add (.mul (.r .r0) (.c C3)) (.mul (.r .r1) (.c C1))⟩
  | 2 => ⟨16, 0, 17, 1, .mul (.sub (.r .r0) (.r .r1)) (.c C2), .mul (.add (.r .r0) (.r .r1)) (.c C2)⟩
  | 3 => ⟨16, 0, 17, 1, .sub (.mul (.r .r0) (.c C3)) (.mul (.r .r1) (.c C1)),
      .add (.mul (.r .r1) (.c C3)) (.mul (.r .r0) (.c C1))⟩
  | 4 => ⟨16, 0, 1, 17, .r .r1, .r .r0⟩
  | 5 => ⟨0, 16, 1, 17, .add (.mul (.r .r1) (.c C1)) (.mul (.r .r0) (.c C3)),
      .sub (.mul (.r .r1) (.c C3)) (.mul (.r .r0) (.c C1))⟩
  | 6 => ⟨0, 16, 1, 17, .mul (.add (.r .r1) (.r .r0)) (.c C2), .mul (.sub (.r .r1) (.r .r0)) (.c C2)⟩
  | _ => ⟨0, 16, 1, 17, .add (.mul (.r .r1) (.c C3)) (.mul (.r .r0) (.c C1)),
      .sub (.mul (.r .r1) (.c C1)) (.mul (.r .r0) (.c C3))⟩

theorem k16Head_eq (o : Nat) : k16Head o = kernelGroups 4 8 (fun m => o + 2 * m) k16Ops := rfl

theorem k32Head_eq (o : Nat) : k32Head o = kernelGroups 8 16 (fun m => o + (14 - 2 * m)) k32Ops := rfl

theorem k16Ops_readsOwn (m : Nat) : (k16Ops m).ReadsOwn 8 := by
  unfold k16Ops
  split <;> simp [GroupOps.ReadsOwn]

theorem k32Ops_readsOwn (m : Nat) : (k32Ops m).ReadsOwn 16 := by
  unfold k32Ops
  split <;> simp [GroupOps.ReadsOwn]

theorem k16_groupsApart (o : Nat) : GroupsApart 4 8 fun m => o + 2 * m := by
  simp only [GroupsApart, GroupWord]
  omega

theorem k32_groupsApart (o : Nat) : GroupsApart 8 16 fun m => o + (14 - 2 * m) := by
  simp only [GroupsApart, GroupWord]
  omega

/-! ### The commands -/

/-- A kernel's body leaves the check passed for its window and every window within it. -/
theorem kernelReady_kernelBody {s : State} {b : List Assign} {ofs size ofs' size' : Nat} (h : s.kernelReady ofs size)
    (hwithin : ofs' + size' ≤ ofs + size) : (s.kernelBody b).kernelReady ofs' size' := by
  change s.base + ofs' + size' ≤ s.bufWords
  unfold State.kernelReady at h
  omega

/-- Two kernel bodies in a row are one, when the second sets its temporaries before it reads them (R20). -/
theorem kernelBody_append {s : State} {b c : List Assign} {S : Nat → Prop} (hc : bodyReadsWithin S [] c) :
    s.kernelBody (b ++ c) = (s.kernelBody b).kernelBody c := runBody_append hc

/-- Two kernel commands after a kernel's body perform theirs as the rest of one body. -/
theorem runCommands_kernels {s : State} {i j : Instr} {before b c : List Assign} {S S' : Nat → Prop}
    (hi : exec i (s.kernelBody before) = .next ((s.kernelBody before).kernelBody b))
    (hj : exec j ((s.kernelBody before).kernelBody b) = .next (((s.kernelBody before).kernelBody b).kernelBody c))
    (hb : bodyReadsWithin S [] b) (hc : bodyReadsWithin S' [] c) :
    runCommands [i, j] (s.kernelBody before) = .next (s.kernelBody (before ++ b ++ c)) := by
  rw [runCommands_cons hi, runCommands_cons hj, kernelBody_append hc, kernelBody_append hb, runCommands]

/-- Settles O53: each of the four groups finds its four words as the command found them, and the rest of the body is K8
on each half. -/
theorem ker16ComputesGroupsThenKer8s : Obligations.Ker16ComputesGroupsThenKer8s := by
  intro s ofs h
  refine ⟨s.kernelBody (k16Head ofs), s.kernelBody (k16Body ofs), exec_ker16 h, runBody_sameButBuf _ _ _ _,
    runBody_bytesSameOutside (k16Head_writes ofs), runCommands_kernels
      (exec_ker8 (kernelReady_kernelBody h (by omega)))
      (exec_ker8 (kernelReady_kernelBody (kernelReady_kernelBody h le_rfl) (by omega))) (k8Body_reads _)
      (k8Body_reads _), ?_⟩
  simp only [kernelBody_X, k16Head_eq]
  have hlow := fun m (hm : m < 4) P Q => run_kernelGroups_low s.bufEpoch s.base (fun _ => 0#32) s.datapath k16Ops
    (k16_groupsApart ofs) hm (k16Ops_readsOwn m) (P := P) (Q := Q)
  obtain ⟨_, _, h2, h3, rfl, rfl⟩ := hlow 1 (by omega) (fun a _ w => w = a) (fun _ b w => w = b)
    (fun _ _ _ => rfl) (fun _ _ _ => rfl)
  obtain ⟨_, _, h6, h7, rfl, rfl⟩ := hlow 3 (by omega) (fun a _ w => w = a) (fun _ b w => w = b)
    (fun _ _ _ => rfl) (fun _ _ _ => rfl)
  exact ⟨fun i hi hi' => run_kernelGroups_high _ _ _ s.datapath k16Ops (k16_groupsApart ofs) (m := (i - 8) / 2)
      (by omega) (by omega) (by omega) (by omega) (by omega),
    hlow 0 (by omega) (fun a b => SumMul a b C2) (fun a b => DiffMul a b C2)
      (fun _ _ _ => sumMul_fmul ..) (fun _ _ _ => diffMul_fmul ..),
    h2, h3,
    hlow 2 (by omega) (fun a b => DiffMul a b C2) (fun a b => SumMul a b C2)
      (fun _ _ _ => diffMul_fmul ..) (fun _ _ _ => sumMul_fmul ..),
    h6, h7⟩

/-- Settles O54: each of the eight groups finds its four words as the command found them, and the rest of the body is
K16 on each half. -/
theorem ker32ComputesGroupsThenKer16s : Obligations.Ker32ComputesGroupsThenKer16s := by
  intro s ofs h
  refine ⟨s.kernelBody (k32Head ofs), s.kernelBody (k32Body ofs), exec_ker32 h, runBody_sameButBuf _ _ _ _,
    runBody_bytesSameOutside (k32Head_writes ofs), runCommands_kernels
      (exec_ker16 (kernelReady_kernelBody h (by omega)))
      (exec_ker16 (kernelReady_kernelBody (kernelReady_kernelBody h le_rfl) (by omega))) (k16Body_reads _)
      (k16Body_reads _), ?_⟩
  simp only [kernelBody_X, k32Head_eq]
  have hlow := fun m (hm : m < 8) P Q => run_kernelGroups_low s.bufEpoch s.base (fun _ => 0#32) s.datapath k32Ops
    (k32_groupsApart ofs) hm (k32Ops_readsOwn m) (P := P) (Q := Q)
  obtain ⟨_, _, h14, h15, rfl, rfl⟩ := hlow 0 (by omega) (fun a _ w => w = a) (fun _ b w => w = b)
    (fun _ _ _ => rfl) (fun _ _ _ => rfl)
  obtain ⟨_, _, h7, h6, rfl, rfl⟩ := hlow 4 (by omega) (fun _ b w => w = b) (fun a _ w => w = a)
    (fun _ _ _ => rfl) (fun _ _ _ => rfl)
  exact ⟨fun i hi hi' => run_kernelGroups_high _ _ _ s.datapath k32Ops (k32_groupsApart ofs) (m := (31 - i) / 2)
      (by omega) (by omega) (by omega) (by omega) (by omega),
    h14, h15,
    hlow 1 (by omega) (fun a b => MulSub a C1 b C3) (fun a b => MulAdd a C3 b C1)
      (fun _ _ _ => mulSub_fsub ..) (fun _ _ _ => mulAdd_fadd ..),
    hlow 2 (by omega) (fun a b => DiffMul a b C2) (fun a b => SumMul a b C2)
      (fun _ _ _ => diffMul_fmul ..) (fun _ _ _ => sumMul_fmul ..),
    hlow 3 (by omega) (fun a b => MulSub a C3 b C1) (fun a b => MulAdd b C3 a C1)
      (fun _ _ _ => mulSub_fsub ..) (fun _ _ _ => mulAdd_fadd ..),
    h6, h7,
    hlow 5 (by omega) (fun a b => MulAdd b C1 a C3) (fun a b => MulSub b C3 a C1)
      (fun _ _ _ => mulAdd_fadd ..) (fun _ _ _ => mulSub_fsub ..),
    hlow 6 (by omega) (fun a b => SumMul b a C2) (fun a b => DiffMul b a C2)
      (fun _ _ _ => sumMul_fmul ..) (fun _ _ _ => diffMul_fmul ..),
    hlow 7 (by omega) (fun a b => MulAdd b C3 a C1) (fun a b => MulSub b C1 a C3)
      (fun _ _ _ => mulAdd_fadd ..) (fun _ _ _ => mulSub_fsub ..)⟩

end Sys2Proof.Proofs
end

section
/-! PROOFS. The kernels on +0.0 words (R120 to R122): their bodies add, subtract and multiply by positive constants
only, and read no word outside their window. -/

namespace Sys2Proof.Proofs

open Sys2Proof.Machine Sys2Proof.Laws

/-! ### Assignments that keep positive zeros -/

/-- The expression makes a positive zero of positive zeros: it reads no table, negates nothing, and multiplies by C1, C2
and C3 only. -/
def rhsKeepsZeros : Rhs → Prop
  | .x _ => True
  | .r _ => True
  | .t _ => False
  | .c _ => False
  | .neg _ => False
  | .add e f => rhsKeepsZeros e ∧ rhsKeepsZeros f
  | .sub e f => rhsKeepsZeros e ∧ rhsKeepsZeros f
  | .mul e f => rhsKeepsZeros e ∧ ∃ w ∈ [C1, C2, C3], f = .c w

/-- The assignment makes a positive zero of positive zeros. -/
def keepsZeros : Assign → Prop
  | .setX _ e => rhsKeepsZeros e
  | .setR _ e => rhsKeepsZeros e

theorem k8Body_keepsZeros (o : Nat) : ∀ a ∈ k8Body o, keepsZeros a := by
  simp [k8Body, keepsZeros, rhsKeepsZeros]

theorem k16Body_keepsZeros (o : Nat) : ∀ a ∈ k16Body o, keepsZeros a := by
  simp only [k16Body, List.forall_mem_append]
  exact ⟨⟨by simp [k16Head, keepsZeros, rhsKeepsZeros], k8Body_keepsZeros o⟩, k8Body_keepsZeros (o + 8)⟩

theorem k32Body_keepsZeros (o : Nat) : ∀ a ∈ k32Body o, keepsZeros a := by
  simp only [k32Body, List.forall_mem_append]
  exact ⟨⟨by simp [k32Head, keepsZeros, rhsKeepsZeros], k16Body_keepsZeros o⟩, k16Body_keepsZeros (o + 16)⟩

/-! ### Runs on positive zeros -/

theorem fadd_zero_zero (d : Nat) : fadd d 0#32 0#32 = 0#32 := fadd_signed_zero d false false

theorem fsub_zero_zero (d : Nat) : fsub d 0#32 0#32 = 0#32 := fadd_signed_zero d false true

theorem fmul_zero_constant (d : Nat) {w : Word} (hw : w ∈ [C1, C2, C3]) : fmul d 0#32 w = 0#32 := by
  have hfinite : ∀ w ∈ [C1, C2, C3], isFinite w = true ∧ signBit w = false := by
    simp [isFinite, expField, signBit, C1, C2, C3]
  exact zeroShadow_sound.mul (a := .zero false) (b := .finite false) d rfl (hfinite w hw)

theorem eval_keepsZeros {S : Nat → Prop} {D : List Temp} {X : Nat → Word} {R : Temp → Word} {T : Nat → Word}
    (hX : ∀ i, S i → X i = 0#32) (hR : ∀ k ∈ D, R k = 0#32) {e : Rhs} (he : readsWithin S D e) (hz : rhsKeepsZeros e)
    (d : Nat) : e.eval X R T d = 0#32 := by
  induction e generalizing d with
  | x i => exact hX i he
  | r k => exact hR k he
  | t k | c w | neg e => exact hz.elim
  | add e f ihe ihf => rw [Rhs.eval, ihe he.1 hz.1, ihf he.2 hz.2, fadd_zero_zero]
  | sub e f ihe ihf => rw [Rhs.eval, ihe he.1 hz.1, ihf he.2 hz.2, fsub_zero_zero]
  | mul e f ihe _ =>
    obtain ⟨hze, w, hw, rfl⟩ := hz
    rw [Rhs.eval, ihe he.1 hze, Rhs.eval, fmul_zero_constant _ hw]

/-- A body that reads positive zeros only, and makes positive zeros of them, leaves them. -/
theorem run_keepsZeros {epoch base : Nat} {T : Nat → Word} {S : Nat → Prop} {D : List Temp} {p : Datapath}
    {b : List Assign} (hX : ∀ i, S i → p.X epoch base i = 0#32) (hR : ∀ k ∈ D, p.temp k = 0#32)
    (hreads : bodyReadsWithin S D b) (hz : ∀ a ∈ b, keepsZeros a) {j : Nat} (hj : S j) :
    (p.run epoch base T b).X epoch base j = 0#32 := by
  induction b generalizing p S D with
  | nil => exact hX j hj
  | cons a b ih =>
    obtain ⟨hza, hzb⟩ := List.forall_mem_cons.1 hz
    cases a with
    | setX i e =>
      refine ih (fun m hm => ?_) (fun k hk => ?_) hreads.2 hzb (.inr hj)
      · rw [assign_setX_X]
        split
        · exact eval_keepsZeros hX hR hreads.1 hza _
        · exact hX m (hm.resolve_left ‹_›)
      · rw [assign_setX_temp]
        exact hR k hk
    | setR k e =>
      refine ih (fun m hm => ?_) (fun m hm => ?_) hreads.2 hzb hj
      · rw [assign_setR_X]
        exact hX m hm
      · rw [assign_setR_temp]
        split
        · exact eval_keepsZeros hX hR hreads.1 hza _
        · exact hR m ((List.mem_cons.1 hm).resolve_left ‹_›)

/-- A kernel's body on a window of positive zeros. -/
theorem kernelBody_keepsZeros {s : State} {ofs size : Nat} {b : List Assign}
    (hreads : bodyReadsWithin (fun j => ofs ≤ j ∧ j < ofs + size) [] b) (hz : ∀ a ∈ b, keepsZeros a)
    (hX : ∀ j, j < size → s.X (ofs + j) = 0#32) {j : Nat} (hj : j < size) : (s.kernelBody b).X (ofs + j) = 0#32 := by
  have hwindow : ∀ i, ofs ≤ i ∧ i < ofs + size → s.datapath.X s.bufEpoch s.base i = 0#32 := fun i hi => by
    obtain ⟨m, rfl⟩ := Nat.exists_eq_add_of_le hi.1
    exact hX m (by omega)
  exact run_keepsZeros hwindow (by simp) hreads hz ⟨by omega, by omega⟩

/-- Settles O55: a kernel adds, subtracts, and multiplies by positive constants, which keeps +0.0 in every word of its
window. -/
theorem kernelsOfZerosGiveZeros : Obligations.KernelsOfZerosGiveZeros := by
  intro s ofs size i hi hr hX
  simp only [List.mem_cons, Prod.mk.injEq, List.not_mem_nil, or_false] at hi
  rcases hi with ⟨rfl, rfl⟩ | ⟨rfl, rfl⟩ | ⟨rfl, rfl⟩
  · exact ⟨_, exec_ker32 hr, fun j => kernelBody_keepsZeros (k32Body_reads ofs) (k32Body_keepsZeros ofs) hX⟩
  · exact ⟨_, exec_ker16 hr, fun j => kernelBody_keepsZeros (k16Body_reads ofs) (k16Body_keepsZeros ofs) hX⟩
  · exact ⟨_, exec_ker8 hr, fun j => kernelBody_keepsZeros (k8Body_reads ofs) (k8Body_keepsZeros ofs) hX⟩

end Sys2Proof.Proofs
end

section
/-! PROOFS. The error entry, what a pending error holds back, and the hardware reset (R142, R146, R160, R161). -/

namespace Sys2Proof.Proofs

open Sys2Proof.Machine Sys2Proof.Laws

/-! ### Error entry (R142) -/

/-- A command that leaves an error where none was pending is the error entry with its own word. -/
theorem exec_eq_raiseError {i : Instr} {s t : State} (hs : s.errv = false) (h : exec i s = .next t)
    (ht : t.errv = true) : ∃ code, code ≠ .noError ∧ t = s.raiseError code (encode i) := by
  rcases exec_cases i s with ⟨code, hcode, heq⟩ | heq | ⟨k, x, -, heq⟩ | ⟨T, b, lo, hi, heq, -⟩ <;>
    obtain rfl := Host.Outcome.next.inj (heq.symm.trans h)
  · exact ⟨code, hcode, rfl⟩
  · exact absurd (hs.symm.trans ht) (by decide)
  · rw [setSlot_errv] at ht
    exact absurd (hs.symm.trans ht) (by decide)
  · rw [runBody_errv] at ht
    exact absurd (hs.symm.trans ht) (by decide)

/-- Settles O17: a word that is no command is recorded itself, and a command records its encoding, which is the word. -/
theorem errorEntryRecordsWordAndNothingElse : Obligations.ErrorEntryRecordsWordAndNothingElse := by
  intro s t w hs h ht
  rcases issue_cases s w with ⟨hpending, -⟩ | ⟨-, e, -, heq⟩ | ⟨-, i, hdec, heq⟩
  · exact absurd (hs.symm.trans hpending) (by decide)
  · obtain rfl := Host.Outcome.next.inj (heq.symm.trans h)
    exact ⟨decodeErrCode e, decodeErrCode_ne_noError e, rfl⟩
  · have hword := (decodedWordIsItsEncoding w i hdec).2
    rw [← hword]
    exact exec_eq_raiseError hs (heq.symm.trans h) ht

/-! ### While an error is pending (R146) -/

theorem issue_of_errv {s : State} (h : s.errv = true) (w : Word) : s.issue w = .next (s.discard w) := if_pos h

theorem discard_eq (s : State) (w : Word) : s.discard w = { s with drop := if w = 0#32 then s.drop else true } := by
  unfold State.discard
  by_cases hw : w = 0#32 <;> simp [hw]

/-- Of the registers only STATUS shows ERRV (R22, R25). -/
theorem readReg_withErrv (s : State) (e : Bool) {o : Nat} (h : o ≠ addrStatus) :
    State.readReg { s with errv := e } o = s.readReg o := by
  unfold State.readReg
  split
  case h_3 => exact absurd rfl h
  all_goals rfl

theorem memRead_withErrv (s : State) (e : Bool) {a : BitVec 24} (h : a ≠ 0x000008#24) :
    State.memRead { s with errv := e } a = s.memRead a := by
  by_cases hreg : a.toNat < 0x001000
  · rw [memRead_reg hreg, memRead_reg hreg]
    exact readReg_withErrv s e fun hst => h (BitVec.eq_of_toNat_eq hst)
  · simp only [State.memRead, if_neg hreg]
    rfl

/-- The transaction does one and the same thing whether an error is pending or not, and leaves ERRV as it is. -/
def IgnoresErrv (s : State) (rest : List HostOp) (op : HostOp) : Prop :=
  ∃ t : State, ∀ e, step { s with errv := e, pending := op :: rest } = .next { t with errv := e }

theorem ignoresErrv_read {s : State} {rest : List HostOp} {a : BitVec 24} (h4 : a.toNat % 4 = 0)
    (ha : a ≠ 0x000008#24) : IgnoresErrv s rest (.read a 4) := by
  refine ⟨{ s with pending := rest, replies := s.memRead a :: s.replies }, fun e => ?_⟩
  simpa only [BitVec.ofNat_toNat, BitVec.setWidth_eq, memRead_withErrv s e ha] using
    step_read { s with errv := e } rest a.isLt h4

theorem ignoresErrv_baseWrite (s : State) (rest : List HostOp) (v : Word) :
    IgnoresErrv s rest (.write 0x000010#24 4 v) :=
  ⟨State.writeBase { s with pending := rest } v, fun e => step_baseWrite { s with errv := e } rest v⟩

/-- A write to the BUF window stores its word, or is ignored from word `BUF_WORDS` on (R42, R44). -/
theorem ignoresErrv_bufWrite (s : State) (rest : List HostOp) {w : Nat} (hw : w < 2 ^ 20) (v : Word) :
    IgnoresErrv s rest (.write (BitVec.ofNat 24 (0x400000 + 4 * w)) 4 v) := by
  by_cases hin : w < s.bufWords
  · exact ⟨State.setBufWord { s with pending := rest } w v, fun e => step_bufWrite { s with errv := e } rest hin v⟩
  · refine ⟨{ s with pending := rest }, fun e => ?_⟩
    have habove : 0x400000 + 4 * State.bufWords { s with errv := e } ≤ 0x400000 + 4 * w :=
      Nat.add_le_add_left (Nat.mul_le_mul_left 4 (not_lt.1 hin)) _
    exact hostWriteElsewhereIgnored { s with errv := e } rest _ v (by omega) (by omega) (by simp; omega) (.inr habove)

/-- Settles O19: issuing is discarding, and ERRV enters no other transaction but a read of STATUS. -/
theorem commandsDiscardedWhileErrorPending : Obligations.CommandsDiscardedWhileErrorPending := by
  refine ⟨fun s rest w hs => ?_, fun s t rest op hop h => ?_, fun s rest _ => ?_⟩
  · rw [step_cmdWrite, issue_of_errv (s := { s with pending := rest }) hs, discard_eq]
  · obtain ⟨u, hu⟩ : IgnoresErrv s rest op := by
      rcases hop with ⟨a, rfl, ha⟩ | ⟨v, rfl⟩ | ⟨w, v, hw, rfl⟩
      · refine ignoresErrv_read (by_contra fun h4 => ?_) ha
        obtain ⟨r, hr⟩ := (accessOutsideContractRefused { s with errv := false } rest a 4 0#32 (.inr h4)).1
        cases hr.symm.trans h
      · exact ignoresErrv_baseWrite s rest v
      · exact ignoresErrv_bufWrite s rest hw v
    obtain rfl := Host.Outcome.next.inj ((hu false).symm.trans h)
    exact hu true
  · exact step_read s rest (a := 0x008) (by norm_num) (by norm_num)

/-! ### The hardware reset (R160, R161) -/

/-- Settles O24: the step is `hardReset`, whose fields the laws of the state give. -/
theorem hardResetFromAnyState : Obligations.HardResetFromAnyState := fun s rest =>
  ⟨_, step_reset s rest, hardReset_errv _, hardReset_drop _, hardReset_errcode _, hardReset_baseIdx _,
    hardReset_errcmd _, hardReset_slot0 _, hardReset_slot1 _, hardReset_buf _, hardReset_bufSize _,
    hardReset_pending _, hardReset_replies _⟩

end Sys2Proof.Proofs
end

section
/-! PROOFS. The execution checks and their codes, in their order (R81, R100, R105, R126, R143, R144). -/

namespace Sys2Proof.Proofs

open Sys2Proof.Machine Sys2Proof.Laws

/-! ### What each check answers when it fails -/

section Checks

variable {s : State} {k : SlotId}

theorem sizeCheck_badSize {l : Nat} (h : l < 6 ∨ 13 < l) : sizeCheck l = some .badSize := if_pos h

theorem commonCheck_slotInvalid (hv : slotValid (s.slot k) = false) : s.commonCheck k = some .slotInvalid := by
  rw [State.commonCheck, hv]
  rfl

theorem commonCheck_range (hv : slotValid (s.slot k) = true) (hr : s.bufWords < s.base + s.blockSize k) :
    s.commonCheck k = some .range := by
  rw [State.commonCheck, hv]
  exact if_pos hr

theorem stageCheck_slotInvalid (hv : slotValid (s.slot k) = false) (a b : Nat) :
    s.stageCheck k a b = some .slotInvalid := by
  rw [State.stageCheck, hv]
  rfl

theorem stageCheck_badStage {a b : Nat} (hv : slotValid (s.slot k) = true)
    (hs : slotL (s.slot k) - 5 < a ∨ 2 ^ a ≤ b) : s.stageCheck k a b = some .badStage := by
  rw [State.stageCheck, hv]
  exact if_pos hs

/-- BFLY_GEN checks its window last, after the slot and the stage (R105). -/
theorem stageCheck_range {a b : Nat} (hv : slotValid (s.slot k) = true) (hs : s.stageReady k a b)
    (hr : s.bufWords < s.base + s.blockSize k) : s.stageCheck k a b = some .range := by
  obtain ⟨ha, hb⟩ := hs
  rw [State.stageCheck, hv, if_neg (by decide), if_neg (by omega)]
  exact if_pos hr

theorem kernelCheck_range {ofs size : Nat} (h : s.bufWords < s.base + ofs + size) :
    s.kernelCheck ofs size = some .range := if_pos h

end Checks

/-! ### What a command does with its check's answer -/

theorem checked_some {s t : State} {i : Instr} {c : Option ErrCode} {e : ErrCode} (h : c = some e) :
    s.checked i c t = .next (s.raiseError e (encode i)) := by
  rw [h]
  rfl

/-- The transform commands but BFLY_GEN are their bodies under COMMON_CHECK (R100). -/
theorem exec_transform {i : Instr} {k : SlotId}
    (hi : i ∈ [.backward k, .rotIn k, .bflyFirst k, .bflyAll k, .bitrev k, .rotOut k]) (s : State) :
    ∃ body, exec i s = s.checked i (s.commonCheck k) (s.slotBody k body) := by
  simp only [List.mem_cons, List.not_mem_nil, or_false] at hi
  rcases hi with rfl | rfl | rfl | rfl | rfl | rfl <;> exact ⟨_, rfl⟩

/-- The codes of the transform commands but BFLY_GEN (R100). -/
theorem exec_transform_checks {i : Instr} {k : SlotId}
    (hi : i ∈ [.backward k, .rotIn k, .bflyFirst k, .bflyAll k, .bitrev k, .rotOut k]) (s : State) :
    (slotValid (s.slot k) = false → exec i s = .next (s.raiseError .slotInvalid (encode i))) ∧
    (slotValid (s.slot k) = true → s.bufWords < s.base + s.blockSize k →
      exec i s = .next (s.raiseError .range (encode i))) := by
  obtain ⟨body, hexec⟩ := exec_transform hi s
  rw [hexec]
  exact ⟨fun hv => checked_some (commonCheck_slotInvalid hv), fun hv hr => checked_some (commonCheck_range hv hr)⟩

/-- A transform command whose checks pass raises no error. -/
theorem exec_transform_ready {s : State} {k : SlotId} (hr : s.transformReady k) {i : Instr}
    (hi : i ∈ [.backward k, .rotIn k, .bflyFirst k, .bflyAll k, .bitrev k, .rotOut k] ∨
      ∃ a b, s.stageReady k a b ∧ i = .bflyGen k a b) : ∃ t, exec i s = .next t ∧ t.errv = s.errv := by
  rcases hi with hi | ⟨a, b, hs, rfl⟩
  · obtain ⟨body, hexec⟩ := exec_transform hi s
    exact ⟨_, hexec.trans (checked_none (commonCheck_ready.2 hr)), runBody_errv ..⟩
  · exact ⟨_, checked_none (stageCheck_ready.2 ⟨hr, hs⟩), runBody_errv ..⟩

/-- Settles O20: each clause is the answer of the command's own check, and a command whose check passes leaves ERRV. -/
theorem executionChecksInOrder : Obligations.ExecutionChecksInOrder := by
  refine ⟨fun s k l hl => checked_some (sizeCheck_badSize hl), fun s k i hi => exec_transform_checks hi s,
    fun s k a b => ⟨fun hv => ?_, fun hv hs => ?_, fun hv ha hb hr => ?_⟩,
    fun s ofs => ⟨fun h => ?_, fun h => ?_, fun h => ?_⟩, fun s i hs hi => ?_⟩
  · exact checked_some (stageCheck_slotInvalid hv a b)
  · exact checked_some (stageCheck_badStage hv hs)
  · exact checked_some (stageCheck_range hv ⟨ha, hb⟩ hr)
  · exact checked_some (kernelCheck_range h)
  · exact checked_some (kernelCheck_range h)
  · exact checked_some (kernelCheck_range h)
  · rw [← hs]
    rcases hi with (rfl | ⟨k, rfl⟩ | ⟨k, l, h6, h13, rfl⟩) | ⟨k, hr, hi⟩ | ⟨ofs, ⟨hr, rfl⟩ | ⟨hr, rfl⟩ | ⟨hr, rfl⟩⟩
    · exact ⟨s, rfl, rfl⟩
    · exact ⟨_, rfl, setSlot_errv ..⟩
    · exact ⟨_, exec_init h6 h13 k s, setSlot_errv ..⟩
    · exact exec_transform_ready hr hi
    · exact ⟨_, exec_ker32 hr, runBody_errv ..⟩
    · exact ⟨_, exec_ker16 hr, runBody_errv ..⟩
    · exact ⟨_, exec_ker8 hr, runBody_errv ..⟩

end Sys2Proof.Proofs
end

section
/-! PROOFS. The reset state's values (R160) and the operations each stage performs (R173). -/

namespace Sys2Proof.Proofs

open Sys2Proof.Machine Sys2Proof.Laws

/-! ### The reset state (R160) -/

theorem reset_slot (k : SlotId) : State.reset.slot k = none := ite_self none

/-- Settles O22: both slots are empty after reset, and an empty slot has L = 0 and zero tables (R30). -/
theorem resetLeavesSpecifiedValues : Obligations.ResetLeavesSpecifiedValues := by
  refine ⟨rfl, rfl, rfl, rfl, rfl, fun k => ?_, fun k j => ?_, rfl⟩
  · rw [reset_slot]
    exact ⟨rfl, rfl⟩
  · rw [reset_slot]
    exact ⟨rfl, rfl⟩

/-! ### The operations of each stage, in closed form (R173) -/

theorem bodyOps_rotInBody (l : Nat) : bodyOps (rotInBody l) = 24 * (2 ^ l / 16) := by
  rw [rotInBody, bodyOps_append, bodyOps_forLoop (c := 12) fun _ _ => rfl, bodyOps_forLoop (c := 12) fun _ _ => rfl]
  ring

theorem bodyOps_pairBody (a b ta tb : Nat) : bodyOps (pairBody a b ta tb) = 10 := rfl

/-- An iteration of GROUP is four PAIRs (R103). -/
theorem bodyOps_groupBody (g p d : Nat) : bodyOps (groupBody g p d) = p / 16 * 40 :=
  bodyOps_forLoop fun _ _ => by simp only [groupStep, bodyOps_append, bodyOps_pairBody]

theorem bodyOps_bflyFirstBody (l : Nat) : bodyOps (bflyFirstBody l) = 40 * (2 ^ l / 32) := by
  rw [bflyFirstBody, bodyOps_groupBody, Nat.div_div_eq_div_mul, Nat.mul_comm]

/-- The 2^i groups of generic stage i together perform what the one group of the first stage does. -/
theorem bodyOps_genericStage {l i : Nat} (h : i + 5 ≤ l) : bodyOps (genericStage l i) = 40 * (2 ^ l / 32) := by
  have hdvd : 2 ^ i ∣ 2 ^ l / 32 := by
    have hpow : 2 ^ (5 + i) ∣ 2 ^ l := Nat.pow_dvd_pow 2 (by omega)
    rw [pow_add] at hpow
    exact Nat.dvd_div_of_mul_dvd hpow
  have hgroup (j : Nat) : bodyOps (bflyGenBody i j l) = 2 ^ l / 32 / 2 ^ i * 40 := by
    rw [bflyGenBody, bodyOps_groupBody, Nat.div_right_comm _ (2 ^ i), Nat.div_div_eq_div_mul (2 ^ l)]
  rw [genericStage, bodyOps_forLoop fun j _ => hgroup j, ← Nat.mul_assoc, Nat.mul_div_cancel' hdvd, Nat.mul_comm]

theorem bodyOps_k8Body (o : Nat) : bodyOps (k8Body o) = 16 := rfl

theorem bodyOps_k16Head (o : Nat) : bodyOps (k16Head o) = 24 := by simp only [k16Head, bodyOps, Rhs.ops]

theorem bodyOps_k16Body (o : Nat) : bodyOps (k16Body o) = 56 := by
  rw [k16Body, bodyOps_append, bodyOps_append, bodyOps_k16Head, bodyOps_k8Body, bodyOps_k8Body]

theorem bodyOps_k32Head (o : Nat) : bodyOps (k32Head o) = 64 := by simp only [k32Head, bodyOps, Rhs.ops]

theorem bodyOps_k32Body (o : Nat) : bodyOps (k32Body o) = 176 := by
  rw [k32Body, bodyOps_append, bodyOps_append, bodyOps_k32Head, bodyOps_k16Body, bodyOps_k16Body]

/-- The first stage and the generic stages 1 .. L − 7 are L − 6 stages of equal cost, and the KER32s follow (R106). -/
theorem bodyOps_bflyAllBody {l : Nat} (h : 6 ≤ l) :
    bodyOps (bflyAllBody l) = (l - 6) * (40 * (2 ^ l / 32)) + 176 * (2 ^ l / 64) := by
  have hfirst : bodyOps (if l ≥ 7 then bflyFirstBody l else []) = (l - 6 - (l - 7)) * (40 * (2 ^ l / 32)) := by
    split
    case isTrue h7 => rw [bodyOps_bflyFirstBody, show l - 6 - (l - 7) = 1 by omega, Nat.one_mul]
    case isFalse h7 => rw [show l - 6 - (l - 7) = 0 by omega, Nat.zero_mul]; rfl
  rw [bflyAllBody, bodyOps_append, bodyOps_append, hfirst,
    bodyOps_forLoop fun i hi => bodyOps_genericStage (show i + 1 + 5 ≤ l by omega), ← Nat.add_mul,
    bodyOps_forLoop fun _ _ => bodyOps_k32Body _, Nat.sub_add_cancel (by omega), Nat.mul_comm _ 176]

theorem bodyOps_bitrevPair (i0 i1 k lo hi : Nat) : bodyOps (bitrevPair i0 i1 k lo hi) = 16 := rfl

/-- An iteration of BITREV is two pairs (R107). -/
theorem bodyOps_bitrevBody (l : Nat) : bodyOps (bitrevBody l) = 32 * (2 ^ l / 16) := by
  rw [bitrevBody, bodyOps_forLoop (c := 32) fun _ _ => by simp only [bitrevStep, bodyOps_append, bodyOps_bitrevPair],
    Nat.mul_comm]

/-- Loops B and C of ROT_OUT move and negate words alone, which is no operation (R108). -/
theorem bodyOps_rotOutBody (l : Nat) : bodyOps (rotOutBody l) = 24 * (2 ^ l / 16) := by
  rw [rotOutBody, bodyOps_append, bodyOps_append, bodyOps_forLoop (c := 24) fun _ _ => rfl,
    bodyOps_forLoop (c := 0) fun _ _ => rfl, bodyOps_forLoop (c := 0) fun _ _ => rfl, Nat.mul_comm]
  rfl

theorem bodyOps_backwardBody (l : Nat) : bodyOps (backwardBody l) =
    bodyOps (rotInBody l) + bodyOps (bflyAllBody l) + bodyOps (bitrevBody l) + bodyOps (rotOutBody l) := by
  rw [backwardBody, bodyOps_append, bodyOps_append, bodyOps_append]

/-! ### The commands -/

/-- A transform command whose check passes performs the operations of its body. -/
theorem checked_slotBody_ops {s : State} {k : SlotId} (h : s.transformReady k) (i : Instr)
    (body : Nat → List Assign) :
    ∃ t, s.checked i (s.commonCheck k) (s.slotBody k body) = .next t ∧
      t.nanDraws = s.nanDraws + bodyOps (body (slotL (s.slot k))) :=
  ⟨_, checked_none (commonCheck_ready.2 h), runBody_ops ..⟩

/-- The operations of ROT_IN, BFLY_ALL, BITREV, ROT_OUT and BACKWARD in a row of R173's table, which starts with L. -/
def RowCounts (p : Nat × Nat × Nat × Nat × Nat × Nat) : Prop :=
  bodyOps (rotInBody p.1) = p.2.1 ∧ bodyOps (bflyAllBody p.1) = p.2.2.1 ∧ bodyOps (bitrevBody p.1) = p.2.2.2.1 ∧
    bodyOps (rotOutBody p.1) = p.2.2.2.2.1 ∧ bodyOps (backwardBody p.1) = p.2.2.2.2.2

/-- A row counts the operations of its L when its numbers are those of the closed forms. -/
theorem rowCounts_of_closed {p : Nat × Nat × Nat × Nat × Nat × Nat}
    (h : 6 ≤ p.1 ∧ 24 * (2 ^ p.1 / 16) = p.2.1 ∧
      (p.1 - 6) * (40 * (2 ^ p.1 / 32)) + 176 * (2 ^ p.1 / 64) = p.2.2.1 ∧ 32 * (2 ^ p.1 / 16) = p.2.2.2.1 ∧
      24 * (2 ^ p.1 / 16) = p.2.2.2.2.1 ∧ p.2.1 + p.2.2.1 + p.2.2.2.1 + p.2.2.2.2.1 = p.2.2.2.2.2) :
    RowCounts p := by
  obtain ⟨h6, hrotIn, hbflyAll, hbitrev, hrotOut, hsum⟩ := h
  rw [← bodyOps_rotInBody] at hrotIn
  rw [← bodyOps_bflyAllBody h6] at hbflyAll
  rw [← bodyOps_bitrevBody] at hbitrev
  rw [← bodyOps_rotOutBody] at hrotOut
  refine ⟨hrotIn, hbflyAll, hbitrev, hrotOut, ?_⟩
  rw [bodyOps_backwardBody, hrotIn, hbflyAll, hbitrev, hrotOut, hsum]

/-- Settles O50: each command adds the operations of its body, and each row of R173 is the closed forms at its L. -/
theorem operationCountsPerStage : Obligations.OperationCountsPerStage := by
  intro s k p hp
  have hrow : RowCounts p := rowCounts_of_closed (by revert p; decide)
  intro hr hl i c hi
  obtain ⟨hrotIn, hbflyAll, hbitrev, hrotOut, hbackward⟩ := hrow
  rw [← hrotIn, ← hbflyAll, ← hbitrev, ← hrotOut, ← hbackward, ← hl] at hi
  simp only [List.mem_cons, Prod.mk.injEq, List.not_mem_nil, or_false] at hi
  rcases hi with ⟨rfl, rfl⟩ | ⟨rfl, rfl⟩ | ⟨rfl, rfl⟩ | ⟨rfl, rfl⟩ | ⟨rfl, rfl⟩ <;>
    exact checked_slotBody_ops hr _ _

end Sys2Proof.Proofs
end
